-- ==== Sys2Proof/Word.lean ====
section
/-! DEFINITION. The word types of the block (00_scope.md R12, R14): bit vectors, bit 0 the least significant. -/

namespace Sys2Proof

/-- One sink or source transfer: 8 bits (R12 `BYTE`). -/
abbrev Byte := BitVec 8

/-- An operand or a result: 32 bits, two's complement where a sign is read (R12 `XLEN`). -/
abbrev Word := BitVec 32

/-- A command word (R12 `CMD_W`, R101). -/
abbrev CommandWord := BitVec 48

/-- A response word (R12 `RSP_W`, R120). -/
abbrev ResponseWord := BitVec 36

end Sys2Proof
end

