-- ==== Sys2Proof/Syntax.lean ====
section
/-! DEFINITION. The two ports and the fifteen commands of 30_encoding.md R103. -/

namespace Sys2Proof

/-- The unit a command port belongs to (R2, R100). -/
inductive Port where
  | writer
  | reader
  deriving DecidableEq, Repr

/-- One command, as `decode` of R107 gives it: the operation, `uint(N)` as a number, `V` as a 32-bit pattern.
One constructor for each row of opcode_table.json. -/
inductive Instr where
  /-- W_BIT v (R145). -/
  | wBit (v : Word)
  /-- W_ZEROES v (R146). -/
  | wZeroes (v : Word)
  /-- W_UNARY v (R147). -/
  | wUnary (v : Word)
  /-- W_BINARY v, n (R148). -/
  | wBinary (v : Word) (n : Nat)
  /-- W_BYTE v (R149). -/
  | wByte (v : Word)
  /-- W_RICE v, k (R150). -/
  | wRice (v : Word) (k : Nat)
  /-- W_FLUSH (R151). -/
  | wFlush
  /-- W_CLOSE (R152). -/
  | wClose
  /-- R_BIT (R205). -/
  | rBit
  /-- R_UNARY (R206). -/
  | rUnary
  /-- R_BINARY n (R207). -/
  | rBinary (n : Nat)
  /-- R_RICE k (R208). -/
  | rRice (k : Nat)
  /-- R_BYTE (R209). -/
  | rByte
  /-- R_REALIGN (R210). -/
  | rRealign
  /-- R_RESET (R211). -/
  | rReset
  deriving DecidableEq, Repr

end Sys2Proof
end

