-- ==== Sys2Proof/WellFormed.lean ====
section
/-! DEFINITION. Which commands a command word can carry: `N` is a value 0 to 63 (30_encoding.md R102). The
range checks of R264 (legal operands) are the machine's, in Machine/Operands.lean: an operand outside them
is well formed and gets a PRECONDITION response. -/

namespace Sys2Proof

/-- The N operand fits its six bits (R101, R102). -/
def fitsN (n : Nat) : Bool := n < 64

/-- The command has an encoding. -/
def wellFormed : Instr → Bool
  | .wBit _ => true
  | .wZeroes _ => true
  | .wUnary _ => true
  | .wBinary _ n => fitsN n
  | .wByte _ => true
  | .wRice _ k => fitsN k
  | .wFlush => true
  | .wClose => true
  | .rBit => true
  | .rUnary => true
  | .rBinary n => fitsN n
  | .rRice k => fitsN k
  | .rByte => true
  | .rRealign => true
  | .rReset => true

end Sys2Proof
end

