-- ==== Sys2Proof/Decode.lean ====
section
/-! DEFINITION. Decoding a 48-bit command word on a port (30_encoding.md R101 to R107), total on every word and
rejecting by name, and the encoder. -/

namespace Sys2Proof

/-- Why a word is an IllegalCommand on its port (R265): the causes R104, R105 and R106 list. -/
inductive DecodeError where
  /-- OP = 0xF (R106). -/
  | reservedOp
  /-- OP[3] names the other unit (R104). -/
  | otherUnit
  /-- RSV is not zero (R105). -/
  | rsvNotZero
  /-- N is not zero in a command that has no N (R105). -/
  | nNotZero
  /-- V is not zero in a command that has no V (R105). -/
  | vNotZero
  deriving DecidableEq, Repr

/-- OP, bits 47:44 (R101). -/
def opField (w : CommandWord) : BitVec 4 := w.extractLsb' 44 4

/-- N, bits 43:38 (R101). -/
def nField (w : CommandWord) : BitVec 6 := w.extractLsb' 38 6

/-- RSV, bits 37:32 (R101). -/
def rsvField (w : CommandWord) : BitVec 6 := w.extractLsb' 32 6

/-- V, bits 31:0 (R101). -/
def vField (w : CommandWord) : Word := w.extractLsb' 0 32

/-- The port whose half of the opcode map holds OP: OP[3] = 0 names a writer command (R103). -/
def opPort (op : BitVec 4) : Port := if op.getLsbD 3 then .reader else .writer

/-- The commands that have an N operand: W_BINARY, W_RICE, R_BINARY, R_RICE (R103). -/
def usesN (op : BitVec 4) : Bool := op == 0x3#4 || op == 0x5#4 || op == 0xA#4 || op == 0xB#4

/-- The commands that have a V operand: the writer's first six (R103). -/
def usesV (op : BitVec 4) : Bool := decide (op.toNat ≤ 5)

/-- The command an opcode names, with its operands (R103). -/
def commandOf (op : BitVec 4) (n : Nat) (v : Word) : Except DecodeError Instr :=
  match op.toNat with
  | 0x0 => .ok (.wBit v)
  | 0x1 => .ok (.wZeroes v)
  | 0x2 => .ok (.wUnary v)
  | 0x3 => .ok (.wBinary v n)
  | 0x4 => .ok (.wByte v)
  | 0x5 => .ok (.wRice v n)
  | 0x6 => .ok .wFlush
  | 0x7 => .ok .wClose
  | 0x8 => .ok .rBit
  | 0x9 => .ok .rUnary
  | 0xA => .ok (.rBinary n)
  | 0xB => .ok (.rRice n)
  | 0xC => .ok .rByte
  | 0xD => .ok .rRealign
  | 0xE => .ok .rReset
  | _ => .error .reservedOp

/-- `decode(port, w)` of R107, its checks in the order given there. -/
def decode (p : Port) (w : CommandWord) : Except DecodeError Instr :=
  if opField w = 0xF#4 then .error .reservedOp
  else if opPort (opField w) ≠ p then .error .otherUnit
  else if rsvField w ≠ 0#6 then .error .rsvNotZero
  else if usesN (opField w) = false ∧ nField w ≠ 0#6 then .error .nNotZero
  else if usesV (opField w) = false ∧ vField w ≠ 0#32 then .error .vNotZero
  else commandOf (opField w) (nField w).toNat (vField w)

/-- The OP value of a command (R103). -/
def opcode : Instr → BitVec 4
  | .wBit _ => 0x0#4
  | .wZeroes _ => 0x1#4
  | .wUnary _ => 0x2#4
  | .wBinary _ _ => 0x3#4
  | .wByte _ => 0x4#4
  | .wRice _ _ => 0x5#4
  | .wFlush => 0x6#4
  | .wClose => 0x7#4
  | .rBit => 0x8#4
  | .rUnary => 0x9#4
  | .rBinary _ => 0xA#4
  | .rRice _ => 0xB#4
  | .rByte => 0xC#4
  | .rRealign => 0xD#4
  | .rReset => 0xE#4

/-- The N operand of a command, 0 where it has none (R103). -/
def operandN : Instr → Nat
  | .wBinary _ n => n
  | .wRice _ k => k
  | .rBinary n => n
  | .rRice k => k
  | _ => 0

/-- The V operand of a command, 0 where it has none (R103). -/
def operandV : Instr → Word
  | .wBit v => v
  | .wZeroes v => v
  | .wUnary v => v
  | .wBinary v _ => v
  | .wByte v => v
  | .wRice v _ => v
  | _ => 0#32

/-- The port a command belongs to (R103). -/
def portOf (i : Instr) : Port := opPort (opcode i)

/-- The command word: `{OP, N, RSV, V}` with RSV zero (R101, R105). -/
def encode (i : Instr) : CommandWord :=
  opcode i ++ BitVec.ofNat 6 (operandN i) ++ 0#6 ++ operandV i

/-- `W_ONE` expands to `W_BIT 1` (R111). -/
def pseudoWOne : Instr := .wBit 1#32

/-- `W_ZERO` expands to `W_BIT 0` (R111). -/
def pseudoWZero : Instr := .wBit 0#32

/-- `R_SKIP n` expands to `R_BINARY n`, its response data ignored by the host (R111). -/
def pseudoRSkip (n : Nat) : Instr := .rBinary n

/-- The host's question about one row of the opcode table: the command this decoder reads from the word w, bit 0
the least significant. The port is the one whose half of the map holds the word's OP (R103, log 16). -/
def decodeTableWord (nbits w : Nat) : Option Instr :=
  if nbits ≤ 48 ∧ w < 2 ^ nbits then
    (decode (opPort (opField (BitVec.ofNat 48 w))) (BitVec.ofNat 48 w)).toOption
  else none

end Sys2Proof
end

