-- ==== Sys2Proof/Machine/State.lean ====
section
/-! DEFINITION. The state of the block as plain data (10_state.md R30), the inputs the environment presents, the
event histories, and the reset state (R51). -/

namespace Sys2Proof.Machine

/-- The errors of 60_exceptions.md R260. -/
inductive Err where
  | endOfStream
  | ioFailure
  | precondition
  | illegalCommand
  | stateError
  | codeRange
  deriving DecidableEq, Repr

/-- A response's outcome (R261). The reserved codes 7 to 15 have no constructor (93 X6). -/
inductive Code where
  | ok
  | err (e : Err)
  deriving DecidableEq, Repr

/-- A response: CODE and DATA (30_encoding.md R120). -/
structure Response where
  code : Code
  data : Word
  deriving DecidableEq, Repr

/-- The writer unit's state (R33). -/
inductive WState where
  | ready
  | busy
  | closed
  | broken
  deriving DecidableEq, Repr

/-- The reader unit's state (R43). -/
inductive RState where
  | ready
  | busy
  | broken
  | dead
  deriving DecidableEq, Repr

/-- What the sink answers to a write or to the close (20_memory.md R72, R77). -/
inductive SinkAnswer where
  | accepted
  | failed
  deriving DecidableEq, Repr

/-- The inputs of the sink port on an edge, `w_sink_ready` and `w_sink_err` (R75), and of the close port,
`w_close_ready` and `w_close_err` (R77). -/
structure SinkPins where
  ready : Bool
  err : Bool
  deriving DecidableEq, Repr

/-- The source port's inputs on the edge of a fetch: `r_src_err`, `r_src_eod`, `r_src_data` (R79). -/
structure SourcePins where
  err : Bool
  eod : Bool
  data : Byte
  deriving DecidableEq, Repr

/-- What a fetch returns (R80). -/
inductive SourceAnswer where
  | byte (b : Byte)
  | eod
  | err
  deriving DecidableEq, Repr

/-- One event of history_W (R72, R77). -/
inductive WEvent where
  | emit (b : Byte) (answer : SinkAnswer)
  | close (answer : SinkAnswer)
  deriving DecidableEq, Repr

/-- One event of history_R (R80). -/
inductive REvent where
  | fetch (answer : SourceAnswer)
  deriving DecidableEq, Repr

/-- One statement of a writer body (R140 to R152), as far as it is still to run (R38; log 10). -/
inductive WOp where
  /-- `repeat n times: PutBit(0)`. -/
  | zeros (n : Nat)
  /-- `PutBit(v[i])`, `PutBit(v[i+1])`, …: n bits still to place. -/
  | bits (v : Word) (i n : Nat)
  /-- `FlushPending()` (R142). -/
  | flush
  /-- `SinkWrite(W.pendingByte)` and, if accepted, the accumulator emptied (the emit of R141 and R142). -/
  | emit
  /-- `SinkClose()` and, if accepted, `W.state <- CLOSED` (R152). -/
  | close
  deriving DecidableEq, Repr

/-- The writer's in-command state while BUSY: the accepted command and the rest of its body (R38). -/
structure WBody where
  cmd : Instr
  rest : List WOp
  deriving DecidableEq, Repr

/-- The rest of a reader body (R200 to R211), with its partial result (R48; log 10). -/
inductive RRest where
  /-- A field of n bits: the next bit is bit i, v holds the bits below it (R205, R207, R209). -/
  | field (n i : Nat) (v : Word)
  /-- The UnaryScan of R_UNARY, c zero bits counted so far (R203, R206). -/
  | unary (c : Nat)
  /-- The UnaryScan of R_RICE k, c zero bits counted so far (R208). -/
  | riceQuotient (k c : Nat)
  /-- The remainder of R_RICE k: quotient q, next bit i, v holds the bits below it (R208). -/
  | riceRemainder (k q i : Nat) (v : Word)
  /-- `R.bitPosition <- 8` (R210, R211). -/
  | align
  deriving DecidableEq, Repr

/-- The reader's in-command state while BUSY: the accepted command and the rest of its body (R48). -/
structure RBody where
  cmd : Instr
  rest : RRest
  deriving DecidableEq, Repr

/-- The writer unit (10_state.md R31 to R38), its sink, its response port and its event history. -/
structure Writer where
  /-- W.pendingByte (R31). -/
  pendingByte : Byte
  /-- W.pendingBitCount (R32). -/
  pendingBitCount : BitVec 3
  /-- W.state (R33). -/
  state : WState
  /-- W.fault (R36). -/
  fault : BitVec 8
  /-- The in-command state, present while BUSY (R38). -/
  body : Option WBody
  /-- The response offered and not yet taken (R100, R122; log 8). -/
  response : Option Response
  /-- Input: what SinkOracle has settled of the writes to come, the next one first: `w_sink_ready` is 1 with this answer
  on the edge of that transfer (R72, R75; log 1). Empty: the pins decide, edge by edge. -/
  sink : List SinkAnswer
  /-- Input: what SinkOracle has settled of the closes to come, on their own handshake (R77; log 1). -/
  closes : List SinkAnswer
  /-- history_W, the oldest event first (R72, R77; log 9). -/
  history : List WEvent
  /-- Record: the responses the host has taken, the oldest first (R122; log 9). -/
  taken : List Response
  /-- The model's own counter: index of this unit's next free value (log 17). -/
  draws : Nat
  deriving DecidableEq, Repr

/-- The reader unit (10_state.md R40 to R48), its source, its response port and its event history. -/
structure Reader where
  /-- R.currentByte (R40). -/
  currentByte : Byte
  /-- R.bitPosition (R41). -/
  bitPosition : BitVec 4
  /-- R.state (R43). -/
  state : RState
  /-- R.fault (R46). -/
  fault : BitVec 8
  /-- The in-command state, present while BUSY (R48). -/
  body : Option RBody
  /-- The response offered and not yet taken (R100, R122; log 8). -/
  response : Option Response
  /-- Input: what SourceOracle has settled of the fetches to come, the next one first: the source's inputs on the edge of
  that fetch (R79, R80; log 1). Empty: the pins decide, edge by edge. -/
  source : List SourcePins
  /-- history_R, the oldest event first (R80; log 9). -/
  history : List REvent
  /-- Record: the responses the host has taken, the oldest first (R122; log 9). -/
  taken : List Response
  /-- The model's own counter: index of this unit's next free value (log 17). -/
  draws : Nat
  deriving DecidableEq, Repr

/-- One act of the outside world at the block's pins (60_exceptions.md R278; log 2, log 13, log 15). -/
inductive Input where
  /-- A rising edge with `rst` = 1 (R300). -/
  | rst
  /-- The host drives `*_cmd_valid` = 1 with this word (R100). -/
  | command (p : Port) (w : CommandWord)
  /-- The host drives `*_rsp_ready` = 1 (R100). -/
  | take (p : Port)
  /-- An edge of the sink port, with these `w_sink_ready` and `w_sink_err`: a transfer if a byte is offered on it (R75). -/
  | sink (pins : SinkPins)
  /-- An edge of the close port, with these `w_close_ready` and `w_close_err`: the close if it is requested on it
  (R77). -/
  | close (pins : SinkPins)
  /-- An edge of the source port, with this `r_src_ack` and these inputs: a fetch if it is requested on it (R79). -/
  | source (ack : Bool) (pins : SourcePins)
  /-- The source is repositioned outside the block: what was fetchable and is not yet fetched is withdrawn (R278, R311). -/
  | reposition
  /-- A transport shared by the two streams makes the next accepted byte fetchable (Loopback, R92). -/
  | loop
  deriving DecidableEq, Repr

/-- The whole state. The two units share nothing (R50). -/
structure State where
  /-- The writer unit (R2). -/
  writer : Writer
  /-- The reader unit (R2). -/
  reader : Reader
  /-- Input: what the outside does, the next act first (log 2). -/
  inputs : List Input
  /-- The loopback transport's own record: how many bytes of the output stream it has delivered (log 13). -/
  looped : Nat
  /-- The model's own counter: index of the free values of a status sample (log 4, log 17). -/
  clock : Nat
  deriving DecidableEq, Repr

/-- Why the machine stops. -/
inductive Fault where
  /-- Raised by a GetBit (41_read_path.md R201) of a reader whose bitPosition is 9 to 15, values which R41 says
  never occur. Safe: no run from reset reaches it (log 11). -/
  | bitPositionOutOfRange
  deriving DecidableEq, Repr

/-- Why an instruction is refused. -/
inductive Refusal where
  /-- Raised by an arm of `exec` whose instruction has no meaning yet; no arm does. Safe. -/
  | notModelled (mnemonic : String)
  deriving DecidableEq, Repr

/-- The writer after reset (R51, R302). -/
def Writer.reset : Writer where
  pendingByte := 0x00#8
  pendingBitCount := 0#3
  state := .ready
  fault := 0x00#8
  body := none
  response := none
  sink := []
  closes := []
  history := []
  taken := []
  draws := 0

/-- The reader after reset (R51, R302). R51 gives currentByte no value: 0x00 is a DESIGN CHOICE (log 5). -/
def Reader.reset : Reader where
  currentByte := 0x00#8
  bitPosition := 8#4
  state := .ready
  fault := 0x00#8
  body := none
  response := none
  source := []
  history := []
  taken := []
  draws := 0

/-- The machine right after reset, with nothing presented at its pins (R51). -/
def State.reset : State where
  writer := Writer.reset
  reader := Reader.reset
  inputs := []
  looped := 0
  clock := 0

end Sys2Proof.Machine
end

