-- ==== Sys2Proof/Machine/Flags.lean ====
section
/-! DEFINITION. The sticky fault registers, the response codes and the response word: the block has no condition
flags (10_state.md R49); these keep the outcome of a command (R36, R46, R120, R261). -/

namespace Sys2Proof.Machine

/-- CODE of an error (60_exceptions.md R261). -/
def errCode : Err → BitVec 4
  | .endOfStream => 1#4
  | .ioFailure => 2#4
  | .precondition => 3#4
  | .illegalCommand => 4#4
  | .stateError => 5#4
  | .codeRange => 6#4

/-- CODE of an outcome (R261). -/
def codeBits : Code → BitVec 4
  | .ok => 0#4
  | .err e => errCode e

/-- The bit of `*.fault` an error sets (R36, R46). -/
def faultBit : Err → Nat
  | .ioFailure => 0
  | .precondition => 1
  | .illegalCommand => 2
  | .stateError => 3
  | .endOfStream => 4
  | .codeRange => 5

/-- `fault[bit(E)] <- 1`, the other bits kept: the register is sticky (R36, R46, R268, R269). -/
def recordFault (e : Err) (fault : BitVec 8) : BitVec 8 := fault ||| BitVec.twoPow 8 (faultBit e)

/-- An error response: DATA = 0 (R121, R271). -/
def errorResponse (e : Err) : Response := ⟨.err e, 0#32⟩

/-- An OK response with its data (R121). -/
def okResponse (data : Word) : Response := ⟨.ok, data⟩

/-- The 36-bit response word: CODE[35:32], DATA[31:0] (R120). -/
def responseWord (r : Response) : ResponseWord := codeBits r.code ++ r.data

/-- The WSTATE encoding (R33). -/
def wstateBits : WState → BitVec 2
  | .ready => 0#2
  | .busy => 1#2
  | .closed => 2#2
  | .broken => 3#2

/-- The RSTATE encoding (R43). -/
def rstateBits : RState → BitVec 2
  | .ready => 0#2
  | .busy => 1#2
  | .broken => 2#2
  | .dead => 3#2

end Sys2Proof.Machine
end

