-- ==== Sys2Proof/Config.lean ====
section
/-! DEFINITION. The fixed parameters of 00_scope.md R12 and the free values: constants without a body, so that
nothing can be proved of the value the spec leaves open. -/

namespace Sys2Proof.Config

/-- `NBITS_MAX`, the largest binary field width (R12). -/
abbrev nbitsMax : Nat := 32

/-- `K_MAX`, the largest Rice parameter (R12). -/
abbrev kMax : Nat := 31

/-- `COUNT_MAX`, the largest W_ZEROES count and W_UNARY or W_RICE value (R12). -/
abbrev countMax : Nat := 2147483647

/-- `UNARY_MAX`, the largest count R_UNARY returns (R12, R203). -/
abbrev unaryMax : Nat := 2147483647

/-- `RICE_MAX`, the largest value R_RICE returns (R12, R208). -/
abbrev riceMax : Nat := 2147483647

/-- W.pendingByte after an IOFailure (R35: "A model draws them freely"). Log 3. DESIGN CHOICE, safe. -/
opaque freePendingByte : Nat → Byte

/-- W.pendingBitCount after an IOFailure (R35). Log 3. DESIGN CHOICE, safe. -/
opaque freePendingBitCount : Nat → BitVec 3

/-- R.currentByte after EndOfStream, CodeRange or IOFailure (R45). Log 3. DESIGN CHOICE, safe. -/
opaque freeCurrentByte : Nat → Byte

/-- R.bitPosition after EndOfStream, CodeRange or IOFailure (R45), within the values R41 says occur.
Log 3; log 12 for the bound: DEDUCED, unsafe. -/
opaque freeBitPosition : Nat → Fin 9

/-- The WCOUNT field of a W_STATUS sample taken in BUSY or BROKEN (R37 "any value otherwise").
Log 4. DESIGN CHOICE, safe. -/
opaque freeWCount : Nat → BitVec 3

/-- The RPOS field of an R_STATUS sample taken outside READY (R47 "any value otherwise").
Log 4. DESIGN CHOICE, safe. -/
opaque freeRPos : Nat → BitVec 4

end Sys2Proof.Config
end

