-- ==== Sys2Proof/Machine/Operands.lean ====
section
/-! DEFINITION. Operand forms: the preconditions of 60_exceptions.md R264 and the parts of an operand the bodies use
(30_encoding.md R102). -/

namespace Sys2Proof.Machine

/-- `sint(V) >= 0`, that is V[31] = 0: W_ZEROES, W_UNARY, W_RICE (R102, R264). -/
def nonNegative (v : Word) : Bool := v.getLsbD 31 == false

/-- `uint(V) <= 1`: W_BIT (R145, R264). -/
def legalBit (v : Word) : Bool := v.toNat ≤ 1

/-- `uint(V) <= 255`: W_BYTE (R149, R264). -/
def legalByte (v : Word) : Bool := v.toNat ≤ 255

/-- `uint(N) <= 32`: W_BINARY, R_BINARY (R148, R207, R264). -/
def legalWidth (n : Nat) : Bool := n ≤ Config.nbitsMax

/-- `uint(N) <= 31`: W_RICE, R_RICE (R150, R208, R264). -/
def legalParameter (k : Nat) : Bool := k ≤ Config.kMax

/-- The quotient `q = v / 2^k` of a Rice code (R87, R150). -/
def riceQuotient (v : Word) (k : Nat) : Nat := v.toNat / 2 ^ k

/-- The remainder `r = v % 2^k` of a Rice code, a k-bit field (R87, R150). -/
def riceRemainder (v : Word) (k : Nat) : Word := BitVec.ofNat 32 (v.toNat % 2 ^ k)

/-- `v[i] <- b` of a bit not yet set (R207). -/
def withBit (v : Word) (i : Nat) (b : Bool) : Word := if b then v ||| BitVec.twoPow 32 i else v

/-- The sink's answer on an edge of the sink port or of the close port: none without a ready, else `err` = 0 means
ACCEPTED and 1 means FAILED (R75, R77). -/
def sinkAnswer (pins : SinkPins) : Option SinkAnswer :=
  if pins.ready then some (if pins.err then .failed else .accepted) else none

/-- The answer of a fetch from the source port's inputs: err wins over eod, which wins over the data (R80, D21). -/
def sourceAnswer (pins : SourcePins) : SourceAnswer :=
  if pins.err then .err else if pins.eod then .eod else .byte pins.data

end Sys2Proof.Machine
end

