-- ==== Sys2Proof/Machine/Ops.lean ====
section
/-! DEFINITION. The shared operations: the byte-port primitives, PutBit, FlushPending, GetBit and UnaryScan, running
a body as far as the environment has answered, raising an error (`fail` and `enter` of R268, R269), the command
cycle (R268), resuming a waiting body, and hardware reset (R300). -/

namespace Sys2Proof.Machine

/-! ### Byte ports (20_memory.md) -/

/-- `SinkWrite(b)` (R72): the sink's next answer, with the event recorded; `none` while the sink has not answered. -/
def sinkWrite (b : Byte) (w : Writer) : Option (SinkAnswer × Writer) :=
  match w.sink with
  | [] => none
  | a :: later => some (a, { w with sink := later, history := w.history ++ [.emit b a] })

/-- `SinkClose()` (R77): the sink's next answer on the close's own handshake, with the event recorded; `none` while the
sink has not answered. -/
def sinkClose (w : Writer) : Option (SinkAnswer × Writer) :=
  match w.closes with
  | [] => none
  | a :: later => some (a, { w with closes := later, history := w.history ++ [.close a] })

/-- `SourceRead()` (R80): the source's next answer, with the event recorded; `none` while the source has not
answered. -/
def sourceRead (r : Reader) : Option (SourceAnswer × Reader) :=
  match r.source with
  | [] => none
  | pins :: later =>
    some (sourceAnswer pins, { r with source := later, history := r.history ++ [.fetch (sourceAnswer pins)] })

/-! ### Writer bodies (40_write_path.md) -/

/-- How far a writer body has run: to its end, to a transfer the sink has not answered (with the rest of the
body), or to `raise IOFailure`. -/
inductive WriteRun where
  | done (w : Writer)
  | wait (w : Writer) (rest : List WOp)
  | raise (w : Writer)
  deriving DecidableEq, Repr

/-- Go on with `k` when the part before it is done; a wait keeps `later` as the statements still to run. -/
def andThenW (x : WriteRun) (k : Writer → WriteRun) (later : List WOp) : WriteRun :=
  match x with
  | .done w => k w
  | .wait w rest => .wait w (rest ++ later)
  | .raise w => .raise w

/-- The emit of R141 and R142: `SinkWrite(W.pendingByte)`, a raise if it failed, else the accumulator emptied. -/
def emitPending (w : Writer) : WriteRun :=
  match sinkWrite w.pendingByte w with
  | none => .wait w [.emit]
  | some (.failed, w') => .raise w'
  | some (.accepted, w') => .done { w' with pendingByte := 0x00#8, pendingBitCount := 0#3 }

/-- `W.pendingByte` with bit b placed at the next free position (R141). -/
def placeBit (b : Bool) (w : Writer) : Byte :=
  if b then w.pendingByte ||| BitVec.twoPow 8 w.pendingBitCount.toNat else w.pendingByte

/-- `PutBit(b)` (R141): the count runs through a 4-bit intermediate, so the 3-bit register never holds 8. -/
def putBit (b : Bool) (w : Writer) : WriteRun :=
  let count : BitVec 4 := w.pendingBitCount.setWidth 4 + 1#4
  if count = 8#4 then emitPending { w with pendingByte := placeBit b w }
  else .done { w with pendingByte := placeBit b w, pendingBitCount := count.setWidth 3 }

/-- `FlushPending()` (R142). -/
def flushPending (w : Writer) : WriteRun :=
  if w.pendingBitCount ≠ 0#3 then emitPending w else .done w

/-- `repeat n times: PutBit(0)` (R146). -/
def putZeros : Nat → Writer → WriteRun
  | 0, w => .done w
  | n + 1, w => andThenW (putBit false w) (putZeros n) [.zeros n]

/-- `PutBit(v[i])`, `PutBit(v[i+1])`, …, n bits (R148). -/
def putBits (v : Word) : Nat → Nat → Writer → WriteRun
  | 0, _, w => .done w
  | n + 1, i, w => andThenW (putBit (v.getLsbD i) w) (putBits v n (i + 1)) [.bits v (i + 1) n]

/-- The close of W_CLOSE (R152): `SinkClose()`, a raise if it failed, else `W.state <- CLOSED`. -/
def closeSink (w : Writer) : WriteRun :=
  match sinkClose w with
  | none => .wait w [.close]
  | some (.failed, w') => .raise w'
  | some (.accepted, w') => .done { w' with state := .closed }

/-- One statement of a writer body. -/
def runWOp : WOp → Writer → WriteRun
  | .zeros n, w => putZeros n w
  | .bits v i n, w => putBits v n i w
  | .flush, w => flushPending w
  | .emit, w => emitPending w
  | .close, w => closeSink w

/-- A writer body, statement after statement, up to the first wait or raise (R143). -/
def runWOps : List WOp → Writer → WriteRun
  | [], w => .done w
  | op :: later, w => andThenW (runWOp op w) (runWOps later) later

/-! ### Reader bodies (41_read_path.md) -/

/-- How far a part of a reader body has run: to its result, to a fetch the source has not answered (with the
progress made), to a raise, or into a bitPosition that R41 says never occurs. -/
inductive ReadRun (α β : Type) where
  | done (a : α) (r : Reader)
  | wait (p : β) (r : Reader)
  | raise (e : Err) (r : Reader)
  | stuck
  deriving DecidableEq, Repr

/-- Go on with `k` when the part before it is done; a wait's progress is turned into the whole part's by `f`. -/
def andThenR {α β γ δ : Type} (x : ReadRun α β) (k : α → Reader → ReadRun γ δ) (f : β → δ) : ReadRun γ δ :=
  match x with
  | .done a r => k a r
  | .wait p r => .wait (f p) r
  | .raise e r => .raise e r
  | .stuck => .stuck

/-- The bit at bitPosition, which then increases (the second half of R201). -/
def nextBit (r : Reader) : ReadRun Bool Unit :=
  if r.bitPosition.toNat < 8 then
    .done (r.currentByte.getLsbD r.bitPosition.toNat) { r with bitPosition := r.bitPosition + 1#4 }
  else .stuck

/-- `GetBit()` (R201): a fetch exactly when bitPosition is 8. -/
def getBit (r : Reader) : ReadRun Bool Unit :=
  if r.bitPosition = 8#4 then
    match sourceRead r with
    | none => .wait () r
    | some (.err, r') => .raise .ioFailure r'
    | some (.eod, r') => .raise .endOfStream r'
    | some (.byte b, r') => nextBit { r' with currentByte := b, bitPosition := 0#4 }
  else nextBit r

/-- `for i …: v[i] <- GetBit()`, n bits from bit i on (R207). The progress is the next index and the field so
far. -/
def readBits : Nat → Nat → Word → Reader → ReadRun Word (Nat × Word)
  | 0, _, v, r => .done v r
  | n + 1, i, v, r =>
    andThenR (getBit r) (fun b r' => readBits n (i + 1) (withBit v i b) r') (fun _ => (i, v))

/-- `UnaryScan()` (R203) with c zero bits counted so far and `fuel` more allowed: the zero bit that would make the
count `UNARY_MAX` + 1 raises CodeRange right after it is read. -/
def scanUnary : Nat → Nat → Reader → ReadRun Nat Nat
  | 0, _, r => .raise .codeRange r
  | fuel + 1, c, r =>
    andThenR (getBit r) (fun b r' => if b then .done c r' else scanUnary fuel (c + 1) r') (fun _ => c)

/-- How many zero bits a scan at count c may still read (R203: the 2^31st raises). -/
def scanFuel (c : Nat) : Nat := Config.unaryMax + 1 - c

/-- The end of R_RICE (R208): the value over unbounded integers, checked after the remainder is read. -/
def riceValue (k q : Nat) (v : Word) (r : Reader) : ReadRun Word RRest :=
  if q * 2 ^ k + v.toNat > Config.riceMax then .raise .codeRange r
  else .done (BitVec.ofNat 32 (q * 2 ^ k + v.toNat)) r

/-- The remainder bits of R_RICE k from bit i on, then the value (R208). -/
def readRemainder (k q i : Nat) (v : Word) (r : Reader) : ReadRun Word RRest :=
  andThenR (readBits (k - i) i v r) (riceValue k q) (fun p => .riceRemainder k q p.1 p.2)

/-- The rest of a reader body, to its response data. -/
def runRest : RRest → Reader → ReadRun Word RRest
  | .field n i v, r => andThenR (readBits (n - i) i v r) .done (fun p => .field n p.1 p.2)
  | .unary c, r => andThenR (scanUnary (scanFuel c) c r) (fun q => .done (BitVec.ofNat 32 q)) .unary
  | .riceQuotient k c, r =>
    andThenR (scanUnary (scanFuel c) c r) (fun q => readRemainder k q 0 0#32) (.riceQuotient k)
  | .riceRemainder k q i v, r => readRemainder k q i v r
  | .align, r => .done 0#32 { r with bitPosition := 8#4 }

/-! ### Errors: `fail` (R268) and `enter` (R269, R270) -/

/-- `fail(W, code)` (R268): the sticky bit and the response, nothing else. -/
def failWriter (e : Err) (w : Writer) : Writer :=
  { w with fault := recordFault e w.fault, response := some (errorResponse e) }

/-- `fail(R, code)` (R268). -/
def failReader (e : Err) (r : Reader) : Reader :=
  { r with fault := recordFault e r.fault, response := some (errorResponse e) }

/-- `enter(W, IOFailure)` (R269, R270): the sticky bit, BROKEN, the response; the accumulator holds free values
(R35, log 3). -/
def enterWriter (w : Writer) : Writer :=
  failWriter .ioFailure
    { w with
      state := .broken
      body := none
      pendingByte := Config.freePendingByte w.draws
      pendingBitCount := Config.freePendingBitCount w.draws
      draws := w.draws + 1 }

/-- `next_state(R, E)` (R270): DEAD after an IOFailure, else BROKEN. -/
def stateAfterError : Err → RState
  | .ioFailure => .dead
  | _ => .broken

/-- `enter(R, E)` (R269, R270): the sticky bit, the next state, the response; the accumulator holds free values
(R45, log 3, log 12). -/
def enterReader (e : Err) (r : Reader) : Reader :=
  failReader e
    { r with
      state := stateAfterError e
      body := none
      currentByte := Config.freeCurrentByte r.draws
      bitPosition := BitVec.ofNat 4 (Config.freeBitPosition r.draws).val
      draws := r.draws + 1 }

/-! ### The command cycle (R268) -/

/-- `w_cmd_ready` (R122): 0 from the acceptance of a command until its response is taken. -/
def writerCmdReady (w : Writer) : Bool := w.state != .busy && w.response.isNone

/-- `r_cmd_ready` (R122). -/
def readerCmdReady (r : Reader) : Bool := r.state != .busy && r.response.isNone

/-- `*_cmd_ready` of a port. -/
def cmdReady (p : Port) (s : State) : Bool :=
  match p with
  | .writer => writerCmdReady s.writer
  | .reader => readerCmdReady s.reader

/-- The writer's state when a body ends normally (R140, R268). -/
def writerEndState (cmd : Instr) : WState := if cmd = .wClose then .closed else .ready

/-- The end of a writer command's run: respond, wait in BUSY, or enter the error (R268). -/
def settleWriter (cmd : Instr) : WriteRun → Writer
  | .done w => { w with state := writerEndState cmd, body := none, response := some (okResponse 0#32) }
  | .wait w rest => { w with body := some ⟨cmd, rest⟩ }
  | .raise w => enterWriter w

/-- `Execute(W, w)` from check 2 on (R268), for a command the port accepts: the state check (R266), the
precondition (R264), BUSY, the body. -/
def cycleWriter (cmd : Instr) (pre : Bool) (body : List WOp) (w : Writer) : Writer :=
  if w.state ≠ .ready then failWriter .stateError w
  else if pre = false then failWriter .precondition w
  else settleWriter cmd (runWOps body { w with state := .busy })

/-- A writer command presented at the writer's port: nothing happens while `w_cmd_ready` is 0 (R100, log 7). -/
def writerCommand (cmd : Instr) (pre : Bool) (body : List WOp) (s : State) : Host.Outcome State Fault Refusal :=
  if cmdReady .writer s then .next { s with writer := cycleWriter cmd pre body s.writer } else .next s

/-- The commands a reader state runs (R266). -/
def runsReader (cmd : Instr) : RState → Bool
  | .ready => true
  | .broken => cmd == .rReset
  | .busy => false
  | .dead => false

/-- The end of a reader command's run: respond, wait in BUSY, or enter the error (R268); `none` for a bitPosition
that never occurs. -/
def settleReader (cmd : Instr) : ReadRun Word RRest → Option Reader
  | .done data r => some { r with state := .ready, body := none, response := some (okResponse data) }
  | .wait rest r => some { r with body := some ⟨cmd, rest⟩ }
  | .raise e r => some (enterReader e r)
  | .stuck => none

/-- `Execute(R, w)` from check 2 on (R268). -/
def cycleReader (cmd : Instr) (pre : Bool) (body : RRest) (r : Reader) : Option Reader :=
  if runsReader cmd r.state = false then some (failReader .stateError r)
  else if pre = false then some (failReader .precondition r)
  else settleReader cmd (runRest body { r with state := .busy })

/-- The state with a reader that has run, or the fault of a bitPosition that never occurs (log 11). -/
def withReader (s : State) : Option Reader → Host.Outcome State Fault Refusal
  | some r => .next { s with reader := r }
  | none => .fault .bitPositionOutOfRange

/-- A reader command presented at the reader's port: nothing happens while `r_cmd_ready` is 0 (R100, log 7). -/
def readerCommand (cmd : Instr) (pre : Bool) (body : RRest) (s : State) : Host.Outcome State Fault Refusal :=
  if cmdReady .reader s then withReader s (cycleReader cmd pre body s.reader) else .next s

/-- A word that decodes to no command on its port (R265, check 1 of R268): the state of the unit stays. -/
def illegalCommand (p : Port) (s : State) : State :=
  match p with
  | .writer => { s with writer := failWriter .illegalCommand s.writer }
  | .reader => { s with reader := failReader .illegalCommand s.reader }

/-! ### A waiting unit, the response handshake, and reset -/

/-- A BUSY writer goes on with the rest of its body; in any other state nothing moves (R38, R315). -/
def resumeWriter (w : Writer) : Writer :=
  match w.state, w.body with
  | .busy, some b => settleWriter b.cmd (runWOps b.rest w)
  | _, _ => w

/-- A BUSY reader goes on with the rest of its body; in any other state nothing moves (R48, R315). -/
def resumeReader (r : Reader) : Option Reader :=
  match r.state, r.body with
  | .busy, some b => settleReader b.cmd (runRest b.rest r)
  | _, _ => some r

/-- The sink answers the next write (R72): a writer that waits for it goes on, else the answer is settled (log 1). -/
def postSink (a : SinkAnswer) (s : State) : State :=
  { s with writer := resumeWriter { s.writer with sink := s.writer.sink ++ [a] } }

/-- The sink answers the next close (R77): a writer that waits for it goes on, else the answer is settled (log 1). -/
def postClose (a : SinkAnswer) (s : State) : State :=
  { s with writer := resumeWriter { s.writer with closes := s.writer.closes ++ [a] } }

/-- The source answers the next fetch (R80): a reader that waits for it goes on, else the answer is settled (log 1). -/
def postSource (pins : SourcePins) (s : State) : Host.Outcome State Fault Refusal :=
  withReader s (resumeReader { s.reader with source := s.reader.source ++ [pins] })

/-- The host takes the response offered; with none offered no handshake takes place (R100). -/
def takeResponse (p : Port) (s : State) : State :=
  match p with
  | .writer =>
    { s with writer :=
      { s.writer with
        response := none
        taken := s.writer.taken ++ s.writer.response.toList } }
  | .reader =>
    { s with reader :=
      { s.reader with
        response := none
        taken := s.reader.taken ++ s.reader.response.toList } }

/-- The output stream: the bytes of the accepted emits, in order (R72). -/
def outputStream (history : List WEvent) : List Byte :=
  history.filterMap fun
    | .emit b .accepted => some b
    | .emit _ .failed => none
    | .close _ => none

/-- The next accepted byte the loopback transport has not delivered becomes fetchable (R92, log 13). -/
def loopByte (s : State) : Host.Outcome State Fault Refusal :=
  match (outputStream s.writer.history).drop s.looped with
  | [] => .next s
  | b :: _ => postSource ⟨false, false, b⟩ { s with looped := s.looped + 1 }

/-- The source is repositioned: what was fetchable and the reader has not fetched is withdrawn (R278, R311). -/
def reposition (s : State) : State := { s with reader := { s.reader with source := [] } }

/-- Hardware reset of the writer (R300, R301): every state element at its R51 value, a command in flight and a
response not taken are gone, transfers made stay made. -/
def resetWriter (w : Writer) : Writer :=
  { Writer.reset with
    sink := w.sink
    closes := w.closes
    history := w.history
    taken := w.taken
    draws := w.draws }

/-- Hardware reset of the reader (R300, R301); currentByte as at `Reader.reset` (log 5). -/
def resetReader (r : Reader) : Reader :=
  { Reader.reset with source := r.source, history := r.history, taken := r.taken, draws := r.draws }

/-- A rising edge with `rst` = 1 resets both units together (R300). -/
def hardwareReset (s : State) : State :=
  { s with writer := resetWriter s.writer, reader := resetReader s.reader }

end Sys2Proof.Machine
end

