-- ==== Sys2Proof/Machine/Reader.lean ====
section
/-! DEFINITION. The meanings of the seven reader commands (41_read_path.md R205 to R211): each a precondition and a
body over the shared operations, inside the command cycle (R200). -/

namespace Sys2Proof.Machine

/-- R_BIT (R205): `respond(zext_32(GetBit()))`, a field of one bit. -/
def execRBit (s : State) : Host.Outcome State Fault Refusal :=
  readerCommand .rBit true (.field 1 0 0#32) s

/-- R_UNARY (R206): `respond(UnaryScan())`. -/
def execRUnary (s : State) : Host.Outcome State Fault Refusal :=
  readerCommand .rUnary true (.unary 0) s

/-- R_BINARY (R207): n bits, the least significant first, for n at most 32. -/
def execRBinary (n : Nat) (s : State) : Host.Outcome State Fault Refusal :=
  readerCommand (.rBinary n) (legalWidth n) (.field n 0 0#32) s

/-- R_RICE (R208): the quotient by UnaryScan, the k-bit remainder, the range check. -/
def execRRice (k : Nat) (s : State) : Host.Outcome State Fault Refusal :=
  readerCommand (.rRice k) (legalParameter k) (.riceQuotient k 0) s

/-- R_BYTE (R209): the body of R_BINARY 8. -/
def execRByte (s : State) : Host.Outcome State Fault Refusal :=
  readerCommand .rByte true (.field 8 0 0#32) s

/-- R_REALIGN (R210): `R.bitPosition <- 8`. -/
def execRRealign (s : State) : Host.Outcome State Fault Refusal :=
  readerCommand .rRealign true .align s

/-- R_RESET (R211): `R.bitPosition <- 8`, in READY and in BROKEN; `R.fault` keeps its bits. -/
def execRReset (s : State) : Host.Outcome State Fault Refusal :=
  readerCommand .rReset true .align s

end Sys2Proof.Machine
end

