-- ==== Sys2Proof/Machine/Writer.lean ====
section
/-! DEFINITION. The meanings of the eight writer commands (40_write_path.md R145 to R152): each a precondition and a
body over the shared operations, inside the command cycle (R140). -/

namespace Sys2Proof.Machine

/-- W_BIT (R145): `PutBit(V[0])`, for V at most 1. -/
def execWBit (v : Word) (s : State) : Host.Outcome State Fault Refusal :=
  writerCommand (.wBit v) (legalBit v) [.bits v 0 1] s

/-- W_ZEROES (R146): `repeat uint(V) times: PutBit(0)`, for a non-negative count. -/
def execWZeroes (v : Word) (s : State) : Host.Outcome State Fault Refusal :=
  writerCommand (.wZeroes v) (nonNegative v) [.zeros v.toNat] s

/-- W_UNARY (R147): V zero bits and a one, for a non-negative value. -/
def execWUnary (v : Word) (s : State) : Host.Outcome State Fault Refusal :=
  writerCommand (.wUnary v) (nonNegative v) [.zeros v.toNat, .bits 1#32 0 1] s

/-- W_BINARY (R148): the low n bits of V, the least significant first; the bits of V above them have no effect. -/
def execWBinary (v : Word) (n : Nat) (s : State) : Host.Outcome State Fault Refusal :=
  writerCommand (.wBinary v n) (legalWidth n) [.bits v 0 n] s

/-- W_BYTE (R149, 90_conflicts.md C1): eight bits, the least significant first, for V at most 255. -/
def execWByte (v : Word) (s : State) : Host.Outcome State Fault Refusal :=
  writerCommand (.wByte v) (legalByte v) [.bits v 0 8] s

/-- W_RICE (R150): the quotient in unary, then the k-bit remainder. -/
def execWRice (v : Word) (k : Nat) (s : State) : Host.Outcome State Fault Refusal :=
  writerCommand (.wRice v k) (legalParameter k && nonNegative v)
    [.zeros (riceQuotient v k), .bits 1#32 0 1, .bits (riceRemainder v k) 0 k] s

/-- W_FLUSH (R151): `FlushPending()`. -/
def execWFlush (s : State) : Host.Outcome State Fault Refusal :=
  writerCommand .wFlush true [.flush] s

/-- W_CLOSE (R152): `FlushPending()`, then the close; CLOSED when both are accepted. -/
def execWClose (s : State) : Host.Outcome State Fault Refusal :=
  writerCommand .wClose true [.flush, .close] s

end Sys2Proof.Machine
end

