-- ==== Sys2Proof/Machine/Dispatch.lean ====
section
/-! DEFINITION. One arm per command (30_encoding.md R103). -/

namespace Sys2Proof.Machine

def exec (i : Instr) (s : State) : Host.Outcome State Fault Refusal :=
  match i with
  | .wBit v => Sys2Proof.Machine.execWBit v s
  | .wZeroes v => Sys2Proof.Machine.execWZeroes v s
  | .wUnary v => Sys2Proof.Machine.execWUnary v s
  | .wBinary v n => Sys2Proof.Machine.execWBinary v n s
  | .wByte v => Sys2Proof.Machine.execWByte v s
  | .wRice v k => Sys2Proof.Machine.execWRice v k s
  | .wFlush => Sys2Proof.Machine.execWFlush s
  | .wClose => Sys2Proof.Machine.execWClose s
  | .rBit => Sys2Proof.Machine.execRBit s
  | .rUnary => Sys2Proof.Machine.execRUnary s
  | .rBinary n => Sys2Proof.Machine.execRBinary n s
  | .rRice k => Sys2Proof.Machine.execRRice k s
  | .rByte => Sys2Proof.Machine.execRByte s
  | .rRealign => Sys2Proof.Machine.execRRealign s
  | .rReset => Sys2Proof.Machine.execRReset s

end Sys2Proof.Machine
end

