-- ==== Sys2Proof/Machine/Ports.lean ====
section
/-! DEFINITION. The output pins: the ready, valid and data signals of 30_encoding.md R100 and 20_memory.md R75, R77,
R79, held 0 while `rst` = 1 (70_reset_and_hazards.md R300), and the status outputs (10_state.md R37, R47). A data
signal whose valid is 0 is `none` (log 22). -/

namespace Sys2Proof.Machine

/-- WCOUNT (R37): the count in READY and CLOSED, otherwise any value (log 4). -/
def wcountField (s : State) : BitVec 3 :=
  match s.writer.state with
  | .ready => s.writer.pendingBitCount
  | .closed => s.writer.pendingBitCount
  | .busy => Config.freeWCount s.clock
  | .broken => Config.freeWCount s.clock

/-- `W_STATUS[15:0]` (R37): WFAULT, reserved 0, WCOUNT, WSTATE. -/
def wStatus (s : State) : BitVec 16 :=
  s.writer.fault ++ 0#3 ++ wcountField s ++ wstateBits s.writer.state

/-- RPOS (R47): the position in READY, otherwise any value (log 4). -/
def rposField (s : State) : BitVec 4 :=
  match s.reader.state with
  | .ready => s.reader.bitPosition
  | .busy => Config.freeRPos s.clock
  | .broken => Config.freeRPos s.clock
  | .dead => Config.freeRPos s.clock

/-- `R_STATUS[15:0]` (R47): RFAULT, reserved 0, RPOS, RSTATE. -/
def rStatus (s : State) : BitVec 16 :=
  s.reader.fault ++ 0#2 ++ rposField s ++ rstateBits s.reader.state

/-- The byte the writer offers its sink, held until the sink answers: `w_sink_valid` and `w_sink_data` (R75). -/
def sinkOffer (s : State) : Option Byte :=
  match s.writer.state, s.writer.body with
  | .busy, some ⟨_, .emit :: _⟩ => some s.writer.pendingByte
  | _, _ => none

/-- `w_close_valid` (R77). -/
def closeOffer (s : State) : Bool :=
  match s.writer.state, s.writer.body with
  | .busy, some ⟨_, .close :: _⟩ => true
  | _, _ => false

/-- `r_src_req` (R79): a BUSY reader waits for nothing but a fetch. -/
def sourceRequest (s : State) : Bool := s.reader.state == .busy

/-- The response a port offers: `*_rsp_valid` and `*_rsp` (R100, R120). -/
def responseOffer (p : Port) (s : State) : Option ResponseWord :=
  match p with
  | .writer => s.writer.response.map responseWord
  | .reader => s.reader.response.map responseWord

/-- All handshake outputs and the status outputs. -/
structure OutputPins where
  wCmdReady : Bool
  rCmdReady : Bool
  wResponse : Option ResponseWord
  rResponse : Option ResponseWord
  wSink : Option Byte
  wCloseValid : Bool
  rSourceReq : Bool
  wStatus : BitVec 16
  rStatus : BitVec 16
  deriving DecidableEq, Repr

/-- The outputs with the `rst` pin at the given level: during reset every ready, valid and request is 0 (R300). -/
def outputPins (rst : Bool) (s : State) : OutputPins where
  wCmdReady := !rst && cmdReady .writer s
  rCmdReady := !rst && cmdReady .reader s
  wResponse := if rst then none else responseOffer .writer s
  rResponse := if rst then none else responseOffer .reader s
  wSink := if rst then none else sinkOffer s
  wCloseValid := !rst && closeOffer s
  rSourceReq := !rst && sourceRequest s
  wStatus := wStatus s
  rStatus := rStatus s

end Sys2Proof.Machine
end

