-- ==== Sys2Proof/Machine/Inputs.lean ====
section
/-! DEFINITION. What the block does with one act of the outside world (60_exceptions.md R278), the command port's
fetch among them. -/

namespace Sys2Proof.Machine

/-- A word on a command port (R100, R107, R268): accepted only while `*_cmd_ready` is 1, then decoded on that port
and executed, or answered ILLEGAL_COMMAND. -/
def presentCommand (p : Port) (w : CommandWord) (s : State) : Host.Outcome State Fault Refusal :=
  if cmdReady p s then
    match decode p w with
    | .ok i => exec i s
    | .error _ => .next (illegalCommand p s)
  else .next s

/-- An edge of the sink port (R75): a transfer exactly when `w_sink_valid` and `w_sink_ready` are both 1 on it, with the
answer `w_sink_err` has on it; on any other edge nothing happens, and nothing of it is kept. -/
def sinkEdge (pins : SinkPins) (s : State) : State :=
  match sinkOffer s, sinkAnswer pins with
  | some _, some a => postSink a s
  | _, _ => s

/-- An edge of the close port (R77), on the same handshake: the close exactly when `w_close_valid` and `w_close_ready`
are both 1 on it. -/
def closeEdge (pins : SinkPins) (s : State) : State :=
  match closeOffer s, sinkAnswer pins with
  | true, some a => postClose a s
  | _, _ => s

/-- An edge of the source port (R79): a fetch exactly when `r_src_req` and `r_src_ack` are both 1 on it, with the inputs
sampled on it; on any other edge nothing happens, and nothing of it is kept. -/
def sourceEdge (ack : Bool) (pins : SourcePins) (s : State) : Host.Outcome State Fault Refusal :=
  if sourceRequest s && ack then postSource pins s else .next s

/-- The block's answer to one input. -/
def applyInput (x : Input) (s : State) : Host.Outcome State Fault Refusal :=
  match x with
  | .rst => .next (hardwareReset s)
  | .command p w => presentCommand p w s
  | .take p => .next (takeResponse p s)
  | .sink pins => .next (sinkEdge pins s)
  | .close pins => .next (closeEdge pins s)
  | .source ack pins => sourceEdge ack pins s
  | .reposition => .next (reposition s)
  | .loop => loopByte s

/-- The state with the first input consumed and the sample counter advanced (log 2, log 4). -/
def consumeInput (s : State) : State := { s with inputs := s.inputs.tail, clock := s.clock + 1 }

/-- One step's work: the first input, if there is one; with none the block waits (R278, R315). -/
def runInputs (s : State) : Host.Outcome State Fault Refusal :=
  match s.inputs with
  | [] => .next (consumeInput s)
  | x :: _ => applyInput x (consumeInput s)

/-- The next input is the host presenting this command word on the port of its OP (R103, log 16). -/
def presentNext (w : Nat) (s : State) : State :=
  { s with inputs := .command (opPort (opField (BitVec.ofNat 48 w))) (BitVec.ofNat 48 w) :: s.inputs }

end Sys2Proof.Machine
end

