-- ==== Sys2Proof/Machine/Step.lean ====
section
/-! DEFINITION. One step of the machine. -/

namespace Sys2Proof.Machine

/-- One step: the block's answer to the next input (log 2). -/
def step (s : State) : Host.Outcome State Fault Refusal := runInputs s

/-- The state whose next step fetches and runs the command word w. A command word is 48 bits, all of them the
table's, so nbits adds nothing. -/
def State.withFetchWord (s : State) (_nbits w : Nat) : State := presentNext w s

end Sys2Proof.Machine
end

