-- ==== Sys2Proof/Machine/Assembler.lean ====
section
/-! DEFINITION. The assembler syntax of 30_encoding.md R110 and the pseudo-commands of R111, over a line of
characters. A notation for the host's programs: no step uses it (92_eei_decisions.md D34; log 18). -/

namespace Sys2Proof.Machine

/-- Why a line does not assemble. -/
inductive AsmError where
  /-- The first word of the line is no mnemonic of R103 or R111. -/
  | unknownMnemonic
  /-- An operand is no number of R110. -/
  | badNumber
  /-- Too few or too many operands for the mnemonic. -/
  | operandCount
  /-- An operand no field can carry: v outside −2^31 to 2^32−1, or n above 63 (R110). -/
  | notEncodable
  deriving DecidableEq, Repr

/-- What stands between two words of a line. -/
def isBlank (c : Char) : Bool := c == ' ' || c == '\t'

/-- A line without its comment: `;` starts one (R110). -/
def uncommented (line : List Char) : List Char := line.takeWhile (· != ';')

/-- The text without blanks at its two ends. -/
def trimmed (text : List Char) : List Char := ((text.dropWhile isBlank).reverse.dropWhile isBlank).reverse

/-- The parts of an operand text between its commas (R110). -/
def splitCommas : List Char → List (List Char)
  | [] => [[]]
  | c :: rest =>
    if c = ',' then [] :: splitCommas rest
    else
      match splitCommas rest with
      | [] => [[c]]
      | part :: parts => (c :: part) :: parts

/-- The value of a digit in a base of at most 16. -/
def digitValue (base : Nat) (c : Char) : Option Nat :=
  let d :=
    if '0' ≤ c ∧ c ≤ '9' then c.toNat - 48
    else if 'a' ≤ c ∧ c ≤ 'f' then c.toNat - 87
    else if 'A' ≤ c ∧ c ≤ 'F' then c.toNat - 55
    else base
  if d < base then some d else none

/-- Digits read on from the value `acc`, the most significant first. -/
def readDigits (base acc : Nat) : List Char → Option Nat
  | [] => some acc
  | c :: rest =>
    match digitValue base c with
    | some d => readDigits base (acc * base + d) rest
    | none => none

/-- A number without a sign: decimal, or hexadecimal with `0x` (R110). -/
def readUnsigned : List Char → Option Nat
  | [] => none
  | '0' :: 'x' :: c :: rest => readDigits 16 0 (c :: rest)
  | c :: rest => readDigits 10 0 (c :: rest)

/-- An operand as written: a number, or a negative decimal (R110). `-0` reads as 0, for v and for n alike: R110, whose
negative decimals end at −1, does not settle it. DESIGN CHOICE (log 18). -/
def readNumber : List Char → Option Int
  | '-' :: c :: rest => (readDigits 10 0 (c :: rest)).map fun n => -(Int.ofNat n)
  | text => (readUnsigned text).map Int.ofNat

/-- The V field of an operand: −2^31 to 2^32−1, a negative number as its two's-complement pattern; a value outside
the legal range of its command (a negative count, a byte above 255) assembles (R110). -/
def operandAsV (x : Int) : Except AsmError Word :=
  if -2147483648 ≤ x ∧ x < 4294967296 then .ok (BitVec.ofInt 32 x) else .error .notEncodable

/-- The N field of an operand: 0 to 63; the values above the legal ones assemble (R110). -/
def operandAsN (x : Int) : Except AsmError Nat :=
  if 0 ≤ x ∧ x ≤ 63 then .ok x.toNat else .error .notEncodable

/-- How many operands a mnemonic takes, and of which kind (R110). -/
inductive Shape where
  | plain (i : Instr)
  | oneV (f : Word → Instr)
  | oneN (f : Nat → Instr)
  | bothVN (f : Word → Nat → Instr)

/-- The mnemonics of R103 and the pseudo-commands of R111. -/
def shapeOf (name : List Char) : Option Shape :=
  if name = ['W', '_', 'B', 'I', 'T'] then some (.oneV .wBit)
  else if name = ['W', '_', 'Z', 'E', 'R', 'O', 'E', 'S'] then some (.oneV .wZeroes)
  else if name = ['W', '_', 'U', 'N', 'A', 'R', 'Y'] then some (.oneV .wUnary)
  else if name = ['W', '_', 'B', 'I', 'N', 'A', 'R', 'Y'] then some (.bothVN .wBinary)
  else if name = ['W', '_', 'B', 'Y', 'T', 'E'] then some (.oneV .wByte)
  else if name = ['W', '_', 'R', 'I', 'C', 'E'] then some (.bothVN .wRice)
  else if name = ['W', '_', 'F', 'L', 'U', 'S', 'H'] then some (.plain .wFlush)
  else if name = ['W', '_', 'C', 'L', 'O', 'S', 'E'] then some (.plain .wClose)
  else if name = ['R', '_', 'B', 'I', 'T'] then some (.plain .rBit)
  else if name = ['R', '_', 'U', 'N', 'A', 'R', 'Y'] then some (.plain .rUnary)
  else if name = ['R', '_', 'B', 'I', 'N', 'A', 'R', 'Y'] then some (.oneN .rBinary)
  else if name = ['R', '_', 'R', 'I', 'C', 'E'] then some (.oneN .rRice)
  else if name = ['R', '_', 'B', 'Y', 'T', 'E'] then some (.plain .rByte)
  else if name = ['R', '_', 'R', 'E', 'A', 'L', 'I', 'G', 'N'] then some (.plain .rRealign)
  else if name = ['R', '_', 'R', 'E', 'S', 'E', 'T'] then some (.plain .rReset)
  else if name = ['W', '_', 'O', 'N', 'E'] then some (.plain pseudoWOne)
  else if name = ['W', '_', 'Z', 'E', 'R', 'O'] then some (.plain pseudoWZero)
  else if name = ['R', '_', 'S', 'K', 'I', 'P'] then some (.oneN pseudoRSkip)
  else none

/-- A mnemonic applied to the operands written after it. -/
def applyShape : Shape → List Int → Except AsmError Instr
  | .plain i, [] => .ok i
  | .oneV f, [x] => (operandAsV x).map f
  | .oneN f, [x] => (operandAsN x).map f
  | .bothVN f, [x, y] =>
    match operandAsV x, operandAsN y with
    | .ok v, .ok n => .ok (f v n)
    | .error e, _ => .error e
    | _, .error e => .error e
  | _, _ => .error .operandCount

/-- The operands of a line, none where nothing stands after the mnemonic. -/
def readOperands (text : List Char) : Option (List Int) :=
  if trimmed text = [] then some []
  else (splitCommas text).mapM fun part => readNumber (trimmed part)

/-- One line: a command of R110 or a pseudo-command of R111. R110 has one command per line and does not say whether a
line may hold none: here an empty or blank line, and one that is only a comment, is no command and no error. DESIGN
CHOICE (log 18). -/
def assembleLine (line : List Char) : Except AsmError (Option Instr) :=
  let text := trimmed (uncommented line)
  let name := text.takeWhile (fun c => !isBlank c)
  if text = [] then .ok none
  else
    match shapeOf name, readOperands (text.drop name.length) with
    | none, _ => .error .unknownMnemonic
    | some _, none => .error .badNumber
    | some shape, some xs => (applyShape shape xs).map some

/-- The program of one port, one command a line (R110): the words its host presents, in order. R110 lists the two
units' commands separately and does not say what a list of both is: here each line assembles on its own, with no check
of the port. DESIGN CHOICE (log 23). -/
def assemble : List (List Char) → Except AsmError (List CommandWord)
  | [] => .ok []
  | line :: rest =>
    match assembleLine line, assemble rest with
    | .ok (some i), .ok ws => .ok (encode i :: ws)
    | .ok none, .ok ws => .ok ws
    | .error e, _ => .error e
    | _, .error e => .error e

end Sys2Proof.Machine
end

