-- ==== Sys2Proof/Safety.lean ====
section
/-! DEFINITION. The terms in which claims are stated: the spec's own view of streams as bit sequences (20_memory.md
R83 to R87, 40_write_path.md R155, 41_read_path.md R215, R216), legal operands (60_exceptions.md R264), the rows of
the opcode table (30_encoding.md R105), running a list of commands, and the invariant of the machine. -/

namespace Sys2Proof.Safety

open Sys2Proof.Machine

/-! ### Bit sequences -/

/-- The bits of a byte in stream order: position 0 first (R83). -/
def byteBits (b : Byte) : List Bool := (List.range 8).map b.getLsbD

/-- An n-bit field in stream order: field bit 0 first (R84). -/
def fieldBits (v : Word) (n : Nat) : List Bool := (List.range n).map v.getLsbD

/-- The number a bit sequence stands for, its first bit the least significant (R84). -/
def bitsValue : List Bool → Nat
  | [] => 0
  | b :: later => b.toNat + 2 * bitsValue later

/-- The unary code of q: q zero bits and a one (R86). -/
def unaryBits (q : Nat) : List Bool := List.replicate q false ++ [true]

/-- The Rice code of v with parameter k (R87). -/
def riceBits (v k : Nat) : List Bool := unaryBits (v / 2 ^ k) ++ fieldBits (BitVec.ofNat 32 (v % 2 ^ k)) k

/-- The bit sequence a writer command places (R145 to R150); none for the others. -/
def placedBits : Instr → List Bool
  | .wBit v => fieldBits v 1
  | .wZeroes v => List.replicate v.toNat false
  | .wUnary v => unaryBits v.toNat
  | .wBinary v n => fieldBits v n
  | .wByte v => fieldBits v 8
  | .wRice v k => riceBits v.toNat k
  | _ => []

/-- The commands whose body is a sequence of PutBit calls (R141): W_BIT, W_ZEROES, W_UNARY, W_BINARY, W_BYTE,
W_RICE. -/
def placesBits : Instr → Bool
  | .wBit _ => true
  | .wZeroes _ => true
  | .wUnary _ => true
  | .wBinary _ _ => true
  | .wByte _ => true
  | .wRice _ _ => true
  | _ => false

/-- The byte that holds a bit sequence from position 0 on (R155). -/
def packByte (bits : List Bool) : Byte := BitVec.ofNat 8 (bitsValue bits)

/-- The j-th byte of a bit sequence (R85, R155). -/
def streamByte (bits : List Bool) (j : Nat) : Byte := packByte ((bits.drop (8 * j)).take 8)

/-- The first n bytes of a bit sequence (R155). -/
def streamBytes (bits : List Bool) (n : Nat) : List Byte := (List.range n).map (streamByte bits)

/-- The bits the writer holds (R31, R32). -/
def pendingBits (w : Writer) : List Bool := (byteBits w.pendingByte).take w.pendingBitCount.toNat

/-- The bits of currentByte the reader has not returned (R42). -/
def unreadBits (r : Reader) : List Bool := (byteBits r.currentByte).drop r.bitPosition.toNat

/-- What a reader at this state would read from these bytes next, bit after bit (R91). -/
def upcomingBits (r : Reader) (bytes : List Byte) : List Bool := unreadBits r ++ bytes.flatMap byteBits

/-- The source port's inputs for a byte (R79). -/
def bytePins (b : Byte) : SourcePins := ⟨false, false, b⟩

/-- How many fetches a command makes that reads m bits from position p (R216). -/
def fetchCount (p m : Nat) : Nat := (m - (8 - p) + 7) / 8

/-- The position after m bits read from position p (R216). -/
def positionAfter (p m : Nat) : Nat := if m ≤ 8 - p then p + m else (m - (8 - p) - 1) % 8 + 1

/-- The byte the reader holds after fetching these bytes. -/
def lastByte (r : Reader) (bytes : List Byte) : Byte := bytes.getLast?.getD r.currentByte

/-! ### Legal operands and commands -/

/-- The operand ranges of R102 and R264. -/
def legal : Instr → Prop
  | .wBit v => v.toNat ≤ 1
  | .wZeroes v => 0 ≤ v.toInt
  | .wUnary v => 0 ≤ v.toInt
  | .wBinary _ n => n ≤ 32
  | .wByte v => v.toNat ≤ 255
  | .wRice v k => k ≤ 31 ∧ 0 ≤ v.toInt
  | .rBinary n => n ≤ 32
  | .rRice k => k ≤ 31
  | _ => True

/-- The commands a writer state runs (the table of R266). -/
def writerRuns : WState → Prop
  | .ready => True
  | _ => False

/-- The commands a reader state runs (the table of R266). -/
def readerRuns : RState → Instr → Prop
  | .ready, _ => True
  | .broken, i => i = .rReset
  | _, _ => False

/-- The bits so far (all consumed) leave this reading command short of at least one more bit (R218). -/
def needsMore : Instr → List Bool → Prop
  | .rBit, bits => bits.length < 1
  | .rBinary n, bits => n ≤ 32 ∧ bits.length < n
  | .rByte, bits => bits.length < 8
  | .rUnary, bits => bits = List.replicate bits.length false ∧ bits.length ≤ 2147483647
  | .rRice k, bits =>
    k ≤ 31 ∧
      ((bits = List.replicate bits.length false ∧ bits.length ≤ 2147483647) ∨
        ∃ q rest, bits = unaryBits q ++ rest ∧ q ≤ 2147483647 ∧ rest.length < k)
  | .rRealign, _ => False
  | .rReset, _ => False
  | .wBit _, _ => False
  | .wZeroes _, _ => False
  | .wUnary _, _ => False
  | .wBinary _ _, _ => False
  | .wByte _, _ => False
  | .wRice _ _, _ => False
  | .wFlush, _ => False
  | .wClose, _ => False

/-! ### The opcode table (R105) -/

/-- One row: the port, the fixed bits and their values. -/
structure OpRow where
  port : Port
  mask : CommandWord
  pattern : CommandWord
  deriving DecidableEq, Repr

/-- The fifteen rows of opcode_table.json (R103, R105). -/
def opcodeTable : List OpRow :=
  [ ⟨.writer, 0xFFFF00000000#48, 0x000000000000#48⟩,
    ⟨.writer, 0xFFFF00000000#48, 0x100000000000#48⟩,
    ⟨.writer, 0xFFFF00000000#48, 0x200000000000#48⟩,
    ⟨.writer, 0xF03F00000000#48, 0x300000000000#48⟩,
    ⟨.writer, 0xFFFF00000000#48, 0x400000000000#48⟩,
    ⟨.writer, 0xF03F00000000#48, 0x500000000000#48⟩,
    ⟨.writer, 0xFFFFFFFFFFFF#48, 0x600000000000#48⟩,
    ⟨.writer, 0xFFFFFFFFFFFF#48, 0x700000000000#48⟩,
    ⟨.reader, 0xFFFFFFFFFFFF#48, 0x800000000000#48⟩,
    ⟨.reader, 0xFFFFFFFFFFFF#48, 0x900000000000#48⟩,
    ⟨.reader, 0xF03FFFFFFFFF#48, 0xA00000000000#48⟩,
    ⟨.reader, 0xF03FFFFFFFFF#48, 0xB00000000000#48⟩,
    ⟨.reader, 0xFFFFFFFFFFFF#48, 0xC00000000000#48⟩,
    ⟨.reader, 0xFFFFFFFFFFFF#48, 0xD00000000000#48⟩,
    ⟨.reader, 0xFFFFFFFFFFFF#48, 0xE00000000000#48⟩ ]

/-- The word carries the row's fixed bits. -/
def rowMatches (row : OpRow) (p : Port) (w : CommandWord) : Prop := row.port = p ∧ w &&& row.mask = row.pattern

/-- The causes of an IllegalCommand, read off the word's bits (R101, R103, R265): OP = 0xF, an opcode of the other
unit, RSV not zero, N not zero where unused, V not zero where unused. -/
def illegalWord (p : Port) (w : CommandWord) : Prop :=
  w.extractLsb' 44 4 = 0xF#4 ∨
  (p = .writer ∧ w.getLsbD 47 = true) ∨
  (p = .reader ∧ w.getLsbD 47 = false) ∨
  w.extractLsb' 32 6 ≠ 0#6 ∨
  (w.extractLsb' 38 6 ≠ 0#6 ∧ w.extractLsb' 44 4 ∉ [0x3#4, 0x5#4, 0xA#4, 0xB#4]) ∨
  (w.extractLsb' 0 32 ≠ 0#32 ∧ w.extractLsb' 44 4 ∉ [0x0#4, 0x1#4, 0x2#4, 0x3#4, 0x4#4, 0x5#4])

/-! ### Running commands one after another -/

/-- The response a port offers. -/
def offered (p : Port) (s : State) : Option Response :=
  match p with
  | .writer => s.writer.response
  | .reader => s.reader.response

/-- Each command is run to its response, which the host takes before the next (R91, R122); `none` where a command
waits or stops. -/
def runCommands : List Instr → State → Option (State × List Response)
  | [], s => some (s, [])
  | i :: later, s =>
    match exec i s with
    | .next t =>
      match offered (portOf i) t with
      | some rsp => (runCommands later (takeResponse (portOf i) t)).map fun u => (u.1, rsp :: u.2)
      | none => none
    | _ => none

/-- The reader command that matches a writer command (R215); W_CLOSE has none. -/
def matching : Instr → Option Instr
  | .wBit _ => some .rBit
  | .wZeroes v => some (.rBinary v.toNat)
  | .wUnary _ => some .rUnary
  | .wBinary _ n => some (.rBinary n)
  | .wByte _ => some .rByte
  | .wRice _ k => some (.rRice k)
  | .wFlush => some .rRealign
  | .wClose => none
  | .rBit => none
  | .rUnary => none
  | .rBinary _ => none
  | .rRice _ => none
  | .rByte => none
  | .rRealign => none
  | .rReset => none

/-- The value the matching read command returns (R215). -/
def writtenValue : Instr → Word
  | .wBit v => v
  | .wUnary v => v
  | .wBinary v n => BitVec.ofNat 32 (v.toNat % 2 ^ n)
  | .wByte v => v
  | .wRice v _ => v
  | _ => 0#32

/-- A writer command R215 lets stand before the last one: legal operands, not W_CLOSE, a zero run of at most 32. -/
def roundTrips : Instr → Prop
  | .wBit v => v.toNat ≤ 1
  | .wZeroes v => v.toNat ≤ 32
  | .wUnary v => 0 ≤ v.toInt
  | .wBinary _ n => n ≤ 32
  | .wByte v => v.toNat ≤ 255
  | .wRice v k => k ≤ 31 ∧ 0 ≤ v.toInt
  | .wFlush => True
  | .wClose => False
  | .rBit => False
  | .rUnary => False
  | .rBinary _ => False
  | .rRice _ => False
  | .rByte => False
  | .rRealign => False
  | .rReset => False

/-- The machine after reset with a sink that accepts the next n writes and the next n closes. -/
def writerFrom (n : Nat) : State :=
  { State.reset with
    writer := { Writer.reset with sink := List.replicate n .accepted, closes := List.replicate n .accepted } }

/-- The machine after reset with a source that holds these bytes, then whatever is in `later`. -/
def readerFrom (bytes : List Byte) (later : List SourcePins) : State :=
  { State.reset with reader := { Reader.reset with source := bytes.map bytePins ++ later } }

/-- Edges of the writer's two handshakes with its sink, one of the sink port and one of the close port at a time (R75,
R77). -/
def sinkEdges : List (SinkPins × SinkPins) → State → State
  | [], s => s
  | x :: later, s => sinkEdges later (closeEdge x.2 (sinkEdge x.1 s))

/-- Edges of the source port, one after another (R79); a machine that stops stays stopped. -/
def sourceEdges : List (Bool × SourcePins) → State → Host.Outcome State Fault Refusal
  | [], s => .next s
  | x :: later, s =>
    match sourceEdge x.1 x.2 s with
    | .next t => sourceEdges later t
    | .fault e => .fault e
    | .refused e => .refused e

/-- A number of transfers that is enough for these commands and a W_FLUSH or W_CLOSE after them. -/
def enoughAnswers (cs : List Instr) : Nat := (cs.map fun c => (placedBits c).length + 1).sum + 2

/-! ### Assembler text (R110, R111) -/

/-- The digits of a number and their values; a letter may be of either case (log 18). -/
def digitTable : List (Char × Nat) :=
  [('0', 0), ('1', 1), ('2', 2), ('3', 3), ('4', 4), ('5', 5), ('6', 6), ('7', 7), ('8', 8), ('9', 9)] ++
  [('a', 10), ('b', 11), ('c', 12), ('d', 13), ('e', 14), ('f', 15)] ++
  [('A', 10), ('B', 11), ('C', 12), ('D', 13), ('E', 14), ('F', 15)]

/-- The text is digits of this base, the most significant first, that stand for n. -/
def WrittenDigits (base : Nat) (text : List Char) (n : Nat) : Prop :=
  ∃ digits : List (Char × Nat), digits ≠ [] ∧ (∀ d ∈ digits, d ∈ digitTable ∧ d.2 < base) ∧
    text = digits.map (·.1) ∧ n = digits.foldl (fun acc d => acc * base + d.2) 0

/-- The text is a number of R110: decimal, or hexadecimal with `0x`. -/
def WrittenNat (text : List Char) (n : Nat) : Prop :=
  WrittenDigits 10 text n ∨ ∃ digits, text = '0' :: 'x' :: digits ∧ WrittenDigits 16 digits n

/-- The text is a number of R110 or a negative decimal. -/
def WrittenInt (text : List Char) (x : Int) : Prop :=
  (∃ n : Nat, WrittenNat text n ∧ x = n) ∨
    ∃ digits n, text = '-' :: digits ∧ WrittenDigits 10 digits n ∧ 0 < n ∧ x = -(n : Int)

/-- The name of a command in assembler text (R103). -/
def mnemonic : Instr → List Char
  | .wBit _ => ['W', '_', 'B', 'I', 'T']
  | .wZeroes _ => ['W', '_', 'Z', 'E', 'R', 'O', 'E', 'S']
  | .wUnary _ => ['W', '_', 'U', 'N', 'A', 'R', 'Y']
  | .wBinary _ _ => ['W', '_', 'B', 'I', 'N', 'A', 'R', 'Y']
  | .wByte _ => ['W', '_', 'B', 'Y', 'T', 'E']
  | .wRice _ _ => ['W', '_', 'R', 'I', 'C', 'E']
  | .wFlush => ['W', '_', 'F', 'L', 'U', 'S', 'H']
  | .wClose => ['W', '_', 'C', 'L', 'O', 'S', 'E']
  | .rBit => ['R', '_', 'B', 'I', 'T']
  | .rUnary => ['R', '_', 'U', 'N', 'A', 'R', 'Y']
  | .rBinary _ => ['R', '_', 'B', 'I', 'N', 'A', 'R', 'Y']
  | .rRice _ => ['R', '_', 'R', 'I', 'C', 'E']
  | .rByte => ['R', '_', 'B', 'Y', 'T', 'E']
  | .rRealign => ['R', '_', 'R', 'E', 'A', 'L', 'I', 'G', 'N']
  | .rReset => ['R', '_', 'R', 'E', 'S', 'E', 'T']

/-- The operands of a line as R110 writes them: v before n, with a comma between. -/
def writtenOperands : Instr → List Char → List Char → List Char
  | .wBinary _ _, v, n => ' ' :: v ++ [',', ' '] ++ n
  | .wRice _ _, v, n => ' ' :: v ++ [',', ' '] ++ n
  | .wBit _, v, _ => ' ' :: v
  | .wZeroes _, v, _ => ' ' :: v
  | .wUnary _, v, _ => ' ' :: v
  | .wByte _, v, _ => ' ' :: v
  | .rBinary _, _, n => ' ' :: n
  | .rRice _, _, n => ' ' :: n
  | .wFlush, _, _ => []
  | .wClose, _, _ => []
  | .rBit, _, _ => []
  | .rUnary, _, _ => []
  | .rByte, _, _ => []
  | .rRealign, _, _ => []
  | .rReset, _, _ => []

/-- The line R110 writes for a command, with these texts for its operands. -/
def writtenLine (i : Instr) (v n : List Char) : List Char := mnemonic i ++ writtenOperands i v n

/-- Nothing, or a comment: what may stand after a command (R110). -/
def CommentOrNothing (text : List Char) : Prop := text = [] ∨ ∃ comment, text = ';' :: comment

/-- The texts v and n write the operands the command has: v a number from −2^31 to 2^32−1 whose pattern is V, n the
number N (R110). -/
def WritesOperands (i : Instr) (v n : List Char) : Prop :=
  (usesV (opcode i) = true →
    ∃ x, WrittenInt v x ∧ -2147483648 ≤ x ∧ x < 4294967296 ∧ operandV i = BitVec.ofInt 32 x) ∧
  (usesN (opcode i) = true → WrittenNat n (operandN i))

/-- The texts v and n are numbers, but one of those the command has is outside the encodable range: v outside −2^31 to
2^32−1, or n above 63 (R110). -/
def WritesUnencodable (i : Instr) (v n : List Char) : Prop :=
  ∃ (x : Int) (m : Nat), (usesV (opcode i) = true → WrittenInt v x) ∧ (usesN (opcode i) = true → WrittenNat n m) ∧
    ((usesV (opcode i) = true ∧ (x < -2147483648 ∨ 4294967296 ≤ x)) ∨ (usesN (opcode i) = true ∧ 63 < m))

/-! ### The invariant -/

/-- The bits at and above the count are zero (R34). -/
abbrev PendingClean (w : Writer) : Prop := w.pendingByte.toNat < 2 ^ w.pendingBitCount.toNat

/-- A BUSY writer waits at an emit, or at the close of a W_CLOSE with an empty accumulator, with no answer to it there
(R38, R75, R77, R152). -/
def writerWaits (w : Writer) : Bool :=
  match w.body with
  | some ⟨cmd, .emit :: later⟩ =>
    w.sink.isEmpty && portOf cmd == .writer && (if cmd = .wClose then later == [.close] else !later.contains .close)
  | some ⟨cmd, [.close]⟩ => w.closes.isEmpty && cmd == .wClose && w.pendingByte == 0#8 && w.pendingBitCount == 0#3
  | _ => false

/-- The writer unit's invariant (R33, R34, R36, R121, R122, R152, R261). -/
abbrev WriterInv (w : Writer) : Prop :=
  (w.state = .ready → PendingClean w) ∧
  (w.state = .closed → w.pendingByte = 0#8 ∧ w.pendingBitCount = 0#3) ∧
  (w.state ≠ .busy → w.body = none) ∧
  (w.state = .busy → w.response = none ∧ writerWaits w = true) ∧
  w.fault &&& 0xF0#8 = 0#8 ∧
  (w.response.all fun rsp =>
    rsp.data == 0#32 && rsp.code != .err .endOfStream && rsp.code != .err .codeRange) = true

/-- A BUSY reader waits for a fetch inside the body of its own command, with a partial result below the next bit's
weight (R48, R203, R208). -/
def readerWaits (r : Reader) : Bool :=
  match r.body with
  | some ⟨.rBit, .field n i v⟩ => n == 1 && i < n && v.toNat < 2 ^ i
  | some ⟨.rBinary m, .field n i v⟩ => n == m && m ≤ 32 && i < n && v.toNat < 2 ^ i
  | some ⟨.rByte, .field n i v⟩ => n == 8 && i < n && v.toNat < 2 ^ i
  | some ⟨.rUnary, .unary c⟩ => c ≤ Config.unaryMax
  | some ⟨.rRice m, .riceQuotient k c⟩ => k == m && m ≤ 31 && c ≤ Config.unaryMax
  | some ⟨.rRice m, .riceRemainder k q i v⟩ =>
    k == m && m ≤ 31 && q ≤ Config.unaryMax && i < k && v.toNat < 2 ^ i
  | _ => false

/-- The reader unit's invariant (R41, R43, R46, R121, R122). -/
abbrev ReaderInv (r : Reader) : Prop :=
  r.bitPosition.toNat ≤ 8 ∧
  (r.state = .ready → 1 ≤ r.bitPosition.toNat) ∧
  (r.state ≠ .busy → r.body = none) ∧
  (r.state = .busy → r.bitPosition = 8#4 ∧ r.response = none ∧ r.source = [] ∧ readerWaits r = true) ∧
  r.fault &&& 0xC0#8 = 0#8 ∧
  (r.response.all fun rsp => rsp.code == .ok || rsp.data == 0#32) = true

/-- The machine's invariant: both units', and the loopback transport has delivered no byte that was not accepted. -/
abbrev Inv (s : State) : Prop :=
  WriterInv s.writer ∧ ReaderInv s.reader ∧ s.looped ≤ (outputStream s.writer.history).length

/-- How many commands the port has accepted since the record began, less those a reset abandoned: taken, offered,
or still running (R122). -/
def answered (p : Port) (s : State) : Nat :=
  match p with
  | .writer =>
    s.writer.taken.length + s.writer.response.toList.length + (if s.writer.state = .busy then 1 else 0)
  | .reader =>
    s.reader.taken.length + s.reader.response.toList.length + (if s.reader.state = .busy then 1 else 0)

end Sys2Proof.Safety
end

