-- ==== Sys2Proof/Certificates/Slice0/Obligations.lean ====
section
/-! DEFINITION. The statements for the provers, from the numbered rules of spec/. What a statement says of `exec` or
`step` rests on the model's reading of time: an answer the environment has settled for a transfer to come is on a list,
any other comes as an edge of its port (log 1), a step is the block's response to one input (log 2), and a command runs
in one step as far as the answers settled go (log 6). A statement
that rests on another log entry, or on a sentence the spec marks as its own inference, says so. -/

open Sys2Proof Sys2Proof.Machine Sys2Proof.Safety

/-! ### Reset -/

/-- O1. The reset table of R51 (currentByte, which R51 leaves unspecified, is left out; log 5). The values of
pendingByte, pendingBitCount and bitPosition are the spec's own inference there ("[derived: from rule R34 with count
0 …]", "[derived: from §3 …]"). -/
def Obligations.ResetStateHoldsTheSpecValues : Prop :=
  State.reset.writer.pendingByte = 0x00#8 ∧ State.reset.writer.pendingBitCount = 0#3 ∧
  State.reset.writer.state = .ready ∧ State.reset.writer.fault = 0x00#8 ∧ State.reset.writer.body = none ∧
  State.reset.reader.bitPosition = 8#4 ∧ State.reset.reader.state = .ready ∧
  State.reset.reader.fault = 0x00#8 ∧ State.reset.reader.body = none

/-- O2. R300: in every state, an edge with `rst` = 1 gives both units their R51 values; during it every ready, valid
and request output is 0; after it both units are READY with `cmd_ready` = 1. The values of R51 are in part the
spec's own inference (see O1); that a time with `rst` = 1 is one input is the model's choice (log 15). -/
def Obligations.HardwareResetRestoresBothUnits : Prop :=
  ∀ (s : State) (later : List Input), s.inputs = .rst :: later →
    ((outputPins true s).wCmdReady = false ∧ (outputPins true s).rCmdReady = false ∧
      (outputPins true s).wResponse = none ∧ (outputPins true s).rResponse = none ∧
      (outputPins true s).wSink = none ∧ (outputPins true s).wCloseValid = false ∧
      (outputPins true s).rSourceReq = false) ∧
    ∃ t, step s = .next t ∧
      t.writer.pendingByte = 0x00#8 ∧ t.writer.pendingBitCount = 0#3 ∧ t.writer.state = .ready ∧
      t.writer.fault = 0x00#8 ∧ t.writer.body = none ∧
      t.reader.bitPosition = 8#4 ∧ t.reader.state = .ready ∧ t.reader.fault = 0x00#8 ∧ t.reader.body = none ∧
      (outputPins false t).wCmdReady = true ∧ (outputPins false t).rCmdReady = true

/-- O3. R301: reset may come in any state; a command in progress is abandoned without a response and a transfer it
offered does not happen; transfers made stay made; the fault registers are cleared; and reset is the only way out of
W CLOSED, W BROKEN and R DEAD. -/
def Obligations.ResetAbandonsTheCommandAndKeepsTheTransfers : Prop :=
  (∀ (s : State) (later : List Input), s.inputs = .rst :: later →
    ∃ t, step s = .next t ∧
      (s.writer.state = .busy →
        t.writer.body = none ∧ t.writer.response = none ∧ t.writer.taken = s.writer.taken) ∧
      (s.reader.state = .busy →
        t.reader.body = none ∧ t.reader.response = none ∧ t.reader.taken = s.reader.taken) ∧
      t.writer.history = s.writer.history ∧ t.reader.history = s.reader.history ∧
      sinkOffer t = none ∧ closeOffer t = false ∧ sourceRequest t = false ∧
      t.writer.fault = 0x00#8 ∧ t.reader.fault = 0x00#8 ∧
      t.writer.state = .ready ∧ t.reader.state = .ready) ∧
  ∀ s t : State, step s = .next t →
    (s.writer.state = .closed ∧ t.writer.state ≠ .closed) ∨ (s.writer.state = .broken ∧ t.writer.state ≠ .broken) ∨
      (s.reader.state = .dead ∧ t.reader.state ≠ .dead) →
    ∃ later, s.inputs = .rst :: later

/-! ### Encoding -/

/-- O4. Decoding an encoded well-formed command gives it back, with every operand at every value its field holds
(R101, R103, R105, R107). -/
def Obligations.DecodeReadsBackEveryEncodedCommand : Prop :=
  ∀ i : Instr, wellFormed i = true → decode (portOf i) (encode i) = .ok i

/-- O5. Every word that decodes is the encoding of what it decodes to, a well-formed command of that port (R107). -/
def Obligations.EncodeRebuildsEveryDecodedWord : Prop :=
  ∀ (p : Port) (w : CommandWord) (i : Instr),
    decode p w = .ok i → wellFormed i = true ∧ portOf i = p ∧ encode i = w

/-- O6. A port decodes exactly the words that match a row of its half of the opcode table under the masks of R105. -/
def Obligations.DecodeAcceptsExactlyTheMaskedRows : Prop :=
  ∀ (p : Port) (w : CommandWord),
    (∃ i, decode p w = .ok i) ↔ ∃ row ∈ opcodeTable, rowMatches row p w

/-- O7. R104: an opcode with OP[3] = 1 on the writer's port, or with OP[3] = 0 on the reader's, decodes to no
command. -/
def Obligations.AnotherUnitsOpcodeIsIllegal : Prop :=
  ∀ w : CommandWord,
    (w.getLsbD 47 = true → ∃ e, decode .writer w = .error e) ∧
    (w.getLsbD 47 = false → ∃ e, decode .reader w = .error e)

/-- O8. A few words of 95_test_vectors.md decode to the commands they stand for. -/
def Obligations.SampleWordsDecode : Prop :=
  decode .writer 0x000000000001#48 = .ok (.wBit 1#32) ∧
  decode .writer 0x3240000001F5#48 = .ok (.wBinary 0x1F5#32 9) ∧
  decode .writer 0x51000000002A#48 = .ok (.wRice 42#32 4) ∧
  decode .writer 0x700000000000#48 = .ok .wClose ∧
  decode .reader 0xA30000000000#48 = .ok (.rBinary 12) ∧
  decode .reader 0xB10000000000#48 = .ok (.rRice 4) ∧
  decode .reader 0xE00000000000#48 = .ok .rReset

/-- O9. R265: the words that decode to no command on a port are those with one of the causes of R265; such a word,
accepted on the port, sets the ILL bit, gives an ILLEGAL_COMMAND response, and changes nothing else of either unit. -/
def Obligations.IllegalCommandChangesOnlyFaultAndResponse : Prop :=
  (∀ (p : Port) (w : CommandWord), illegalWord p w ↔ ∀ i, decode p w ≠ .ok i) ∧
  ∀ (s : State) (p : Port) (w : CommandWord) (later : List Input),
    s.inputs = .command p w :: later → cmdReady p s = true → illegalWord p w →
    step s = .next
      (match p with
      | .writer =>
        { s with
          inputs := later
          clock := s.clock + 1
          writer :=
            { s.writer with
              fault := s.writer.fault ||| 0x04#8
              response := some ⟨.err .illegalCommand, 0#32⟩ } }
      | .reader =>
        { s with
          inputs := later
          clock := s.clock + 1
          reader :=
            { s.reader with
              fault := s.reader.fault ||| 0x04#8
              response := some ⟨.err .illegalCommand, 0#32⟩ } })

/-! ### The ports and the step -/

/-- O10. A word that a ready port accepts and that decodes to a command i is run as exec of i, the step consuming the
input and advancing the sample counter (R100, R268). -/
def Obligations.StepRunsTheDecodedCommand : Prop :=
  ∀ (s : State) (p : Port) (w : CommandWord) (later : List Input) (i : Instr),
    s.inputs = .command p w :: later → cmdReady p s = true → decode p w = .ok i →
    step s = exec i { s with inputs := later, clock := s.clock + 1 }

/-- O11. R100, R122: a word presented while a response is not taken or the unit is BUSY is not accepted. That nothing
else happens then is deduced (log 7). -/
def Obligations.NoCommandIsAcceptedBeforeTheResponseIsTaken : Prop :=
  ∀ (s : State) (p : Port) (w : CommandWord) (later : List Input),
    s.inputs = .command p w :: later →
    (match p with
      | .writer => s.writer.state = .busy ∨ s.writer.response ≠ none
      | .reader => s.reader.state = .busy ∨ s.reader.response ≠ none) →
    step s = .next { s with inputs := later, clock := s.clock + 1 }

/-- O12. R100, R122: the host takes the response offered, and a unit that is not BUSY is then ready for a command.
That the state has left BUSY while the response waits is deduced (log 8). -/
def Obligations.TakingTheResponseFreesThePort : Prop :=
  ∀ (s : State) (p : Port) (later : List Input) (rsp : Response),
    s.inputs = .take p :: later → offered p s = some rsp →
    ∃ t, step s = .next t ∧ offered p t = none ∧
      (match p with
      | .writer => t.writer = { s.writer with response := none, taken := s.writer.taken ++ [rsp] } ∧
          t.reader = s.reader ∧ (s.writer.state ≠ .busy → cmdReady .writer t = true)
      | .reader => t.reader = { s.reader with response := none, taken := s.reader.taken ++ [rsp] } ∧
          t.writer = s.writer ∧ (s.reader.state ≠ .busy → cmdReady .reader t = true))

/-- O13. R122: outside reset, each accepted command gives exactly one response: a unit's count of responses taken,
offered and still owed grows by one when its port accepts a word, and by no other input. The responses taken are a
record of the model (log 9). -/
def Obligations.EachAcceptedCommandIsAnsweredOnce : Prop :=
  ∀ (s t : State) (x : Input) (later : List Input) (p : Port),
    Inv s → s.inputs = x :: later → x ≠ .rst → step s = .next t →
    ((∃ w, x = .command p w) ∧ cmdReady p s = true → answered p t = answered p s + 1) ∧
    (¬ ((∃ w, x = .command p w) ∧ cmdReady p s = true) → answered p t = answered p s)

/-- O14. R120, R261: the response word's fields and code values. -/
def Obligations.ResponseWordCarriesCodeAndData : Prop :=
  ∀ (c : Code) (d : Word),
    (responseWord ⟨c, d⟩).extractLsb' 0 32 = d ∧
    (responseWord ⟨c, d⟩).extractLsb' 32 4 =
      (match c with
      | .ok => 0#4
      | .err .endOfStream => 1#4
      | .err .ioFailure => 2#4
      | .err .precondition => 3#4
      | .err .illegalCommand => 4#4
      | .err .stateError => 5#4
      | .err .codeRange => 6#4)

/-- O15. R37, R47: the fields of the two status outputs. -/
def Obligations.StatusOutputsShowStateCountAndFaults : Prop :=
  ∀ s : State,
    (wStatus s).extractLsb' 0 2 =
      (match s.writer.state with
      | .ready => 0#2
      | .busy => 1#2
      | .closed => 2#2
      | .broken => 3#2) ∧
    (s.writer.state = .ready ∨ s.writer.state = .closed →
      (wStatus s).extractLsb' 2 3 = s.writer.pendingBitCount) ∧
    (wStatus s).extractLsb' 5 3 = 0#3 ∧ (wStatus s).extractLsb' 8 8 = s.writer.fault ∧
    (rStatus s).extractLsb' 0 2 =
      (match s.reader.state with
      | .ready => 0#2
      | .busy => 1#2
      | .broken => 2#2
      | .dead => 3#2) ∧
    (s.reader.state = .ready → (rStatus s).extractLsb' 2 4 = s.reader.bitPosition) ∧
    (rStatus s).extractLsb' 6 2 = 0#2 ∧ (rStatus s).extractLsb' 8 8 = s.reader.fault

/-! ### The checks before the body -/

/-- O16. R266: a well-formed command at a unit whose state refuses it gets STATE_ERROR and changes only the STATE bit
and the response; a command at a unit whose state runs it never gets STATE_ERROR. -/
def Obligations.RefusingStatesAnswerStateError : Prop :=
  ∀ (s : State) (i : Instr), cmdReady (portOf i) s = true →
    (portOf i = .writer →
      (¬ writerRuns s.writer.state →
        exec i s = .next
          { s with writer :=
            { s.writer with
              fault := s.writer.fault ||| 0x08#8
              response := some ⟨.err .stateError, 0#32⟩ } }) ∧
      (writerRuns s.writer.state →
        ∀ t, exec i s = .next t → t.writer.response ≠ some ⟨.err .stateError, 0#32⟩)) ∧
    (portOf i = .reader →
      (¬ readerRuns s.reader.state i →
        exec i s = .next
          { s with reader :=
            { s.reader with
              fault := s.reader.fault ||| 0x08#8
              response := some ⟨.err .stateError, 0#32⟩ } }) ∧
      (readerRuns s.reader.state i →
        ∀ t, exec i s = .next t → t.reader.response ≠ some ⟨.err .stateError, 0#32⟩))

/-- O17. R264: a command with an operand outside its range, at a READY unit, gets PRECONDITION and changes only the
PRE bit and the response; a command with legal operands never gets PRECONDITION. -/
def Obligations.IllegalOperandsAnswerPrecondition : Prop :=
  ∀ (s : State) (i : Instr), cmdReady (portOf i) s = true →
    (portOf i = .writer → s.writer.state = .ready →
      (¬ legal i →
        exec i s = .next
          { s with writer :=
            { s.writer with
              fault := s.writer.fault ||| 0x02#8
              response := some ⟨.err .precondition, 0#32⟩ } }) ∧
      (legal i → ∀ t, exec i s = .next t → t.writer.response ≠ some ⟨.err .precondition, 0#32⟩)) ∧
    (portOf i = .reader → s.reader.state = .ready →
      (¬ legal i →
        exec i s = .next
          { s with reader :=
            { s.reader with
              fault := s.reader.fault ||| 0x02#8
              response := some ⟨.err .precondition, 0#32⟩ } }) ∧
      (legal i → ∀ t, exec i s = .next t → t.reader.response ≠ some ⟨.err .precondition, 0#32⟩))

/-! ### What a writer command does -/

/-- O18. R155, an inference the spec marks as its own ("[derived: from rule R141]"), for R141, R145 to R150: from (p,
c) in READY, a command that places bits, with every emit accepted, emits the whole bytes of
S (the pending bits, then the placed ones) and keeps the rest; for W_BINARY, S is the number
p + uint(V[n-1:0])·2^c, its emitted byte j is bits 8j+7:8j, and the pending byte is what stands above them. The
statement names W_BIT, W_ZEROES, W_UNARY, W_BINARY, W_BYTE and W_RICE. Nothing else changes. -/
def Obligations.BitRunPacksLeastSignificantBitFirst : Prop :=
  (∀ (s : State) (i : Instr) (later : List SinkAnswer),
    placesBits i = true → legal i → s.writer.state = .ready → s.writer.response = none → PendingClean s.writer →
    s.writer.sink =
      List.replicate ((pendingBits s.writer ++ placedBits i).length / 8) SinkAnswer.accepted ++ later →
    exec i s = .next
      { s with writer :=
        { s.writer with
          pendingByte :=
            streamByte (pendingBits s.writer ++ placedBits i)
              ((pendingBits s.writer ++ placedBits i).length / 8)
          pendingBitCount := BitVec.ofNat 3 ((pendingBits s.writer ++ placedBits i).length % 8)
          body := none
          response := some ⟨.ok, 0#32⟩
          sink := later
          history :=
            s.writer.history ++
              (streamBytes (pendingBits s.writer ++ placedBits i)
                ((pendingBits s.writer ++ placedBits i).length / 8)).map (WEvent.emit · .accepted) } }) ∧
  (∀ (s : State) (v : Word) (n : Nat) (later : List SinkAnswer),
    n ≤ 32 → s.writer.state = .ready → s.writer.response = none → PendingClean s.writer →
    s.writer.sink =
      List.replicate ((s.writer.pendingBitCount.toNat + n) / 8) SinkAnswer.accepted ++ later →
    exec (.wBinary v n) s = .next
      { s with writer :=
        { s.writer with
          pendingByte :=
            BitVec.ofNat 8
              ((s.writer.pendingByte.toNat + v.toNat % 2 ^ n * 2 ^ s.writer.pendingBitCount.toNat) >>>
                (8 * ((s.writer.pendingBitCount.toNat + n) / 8)))
          pendingBitCount := BitVec.ofNat 3 ((s.writer.pendingBitCount.toNat + n) % 8)
          body := none
          response := some ⟨.ok, 0#32⟩
          sink := later
          history :=
            s.writer.history ++
              (List.range ((s.writer.pendingBitCount.toNat + n) / 8)).map fun j =>
                WEvent.emit
                  (BitVec.ofNat 8
                    ((s.writer.pendingByte.toNat + v.toNat % 2 ^ n * 2 ^ s.writer.pendingBitCount.toNat) >>>
                      (8 * j)))
                  .accepted } })

/-- O19. R146: W_ZEROES emits (c + count) / 8 bytes, the old partial byte first and 0x00 after it, and leaves the old
partial byte when none was emitted (R146 marks the counts "[derived: from rule R141]"). -/
def Obligations.ZeroesEmitThePartialByteThenZeroBytes : Prop :=
  ∀ (s : State) (v : Word) (e : Nat) (later : List SinkAnswer),
    0 ≤ v.toInt → s.writer.state = .ready → s.writer.response = none → PendingClean s.writer →
    e = (s.writer.pendingBitCount.toNat + v.toNat) / 8 →
    s.writer.sink = List.replicate e SinkAnswer.accepted ++ later →
    exec (.wZeroes v) s = .next
      { s with writer :=
        { s.writer with
          pendingByte := if e = 0 then s.writer.pendingByte else 0x00#8
          pendingBitCount := BitVec.ofNat 3 ((s.writer.pendingBitCount.toNat + v.toNat) % 8)
          body := none
          response := some ⟨.ok, 0#32⟩
          sink := later
          history :=
            s.writer.history ++
              (if e = 0 then []
              else .emit s.writer.pendingByte .accepted :: List.replicate (e - 1) (.emit 0x00#8 .accepted)) } }

/-- O20. R149: W_BYTE emits `(pendingByte | (V << c)) & 0xFF` and leaves `(V >> (8 − c), c)`; with c = 0 that is V
and (0x00, 0) (R149 marks the split "[derived: from rule R141]"). -/
def Obligations.ByteSplitsAcrossTheTwoBytes : Prop :=
  ∀ (s : State) (v : Word) (later : List SinkAnswer),
    v.toNat ≤ 255 → s.writer.state = .ready → s.writer.response = none → PendingClean s.writer →
    s.writer.sink = SinkAnswer.accepted :: later →
    exec (.wByte v) s = .next
      { s with writer :=
        { s.writer with
          pendingByte := BitVec.ofNat 8 (v.toNat >>> (8 - s.writer.pendingBitCount.toNat))
          body := none
          response := some ⟨.ok, 0#32⟩
          sink := later
          history :=
            s.writer.history ++
              [.emit (s.writer.pendingByte ||| BitVec.ofNat 8 (v.toNat <<< s.writer.pendingBitCount.toNat))
                .accepted] } }

/-- O21. R156, an inference the spec marks as its own ("[derived: from rule R146, rule R145 and rule R147]"): for a
legal v, W_UNARY v and W_ZEROES v followed by W_BIT 1 give the same sink events, the same final
state and the same error, the responses taken apart. -/
def Obligations.UnaryIsZeroesThenOne : Prop :=
  ∀ (s t : State) (v : Word),
    0 ≤ v.toInt → s.writer.state = .ready → s.writer.response = none → exec (.wZeroes v) s = .next t →
    (t.writer.response = some ⟨.ok, 0#32⟩ →
      ∀ u, exec (.wBit 1#32) (takeResponse .writer t) = .next u → u.writer.state ≠ .busy →
        exec (.wUnary v) s = .next { u with writer := { u.writer with taken := s.writer.taken } }) ∧
    (t.writer.response = some ⟨.err .ioFailure, 0#32⟩ → exec (.wUnary v) s = .next t)

/-- O22. R157, an inference the spec marks as its own ("[derived: from rule R148 and rule R149]"): for v at most 255,
W_BYTE v gives what W_BINARY v, 8 gives. -/
def Obligations.ByteIsBinaryEight : Prop :=
  ∀ (s t : State) (v : Word),
    v.toNat ≤ 255 → exec (.wByte v) s = .next t → t.writer.state ≠ .busy → exec (.wBinary v 8) s = .next t

/-- O23. R158, an inference the spec marks as its own ("[derived: from rule R147, rule R148 and rule R150]"): for
legal operands, W_RICE v, k gives the sink events and the final state of W_UNARY (v >> k) followed by W_BINARY v, k,
the responses taken apart; where W_UNARY fails, it gives the same failure. -/
def Obligations.RiceIsUnaryThenBinary : Prop :=
  ∀ (s t : State) (v : Word) (k : Nat),
    k ≤ 31 → 0 ≤ v.toInt → s.writer.state = .ready → s.writer.response = none →
    exec (.wUnary (v >>> k)) s = .next t →
    (t.writer.response = some ⟨.ok, 0#32⟩ →
      ∀ u, exec (.wBinary v k) (takeResponse .writer t) = .next u → u.writer.state ≠ .busy →
        exec (.wRice v k) s = .next { u with writer := { u.writer with taken := s.writer.taken } }) ∧
    (t.writer.response = some ⟨.err .ioFailure, 0#32⟩ → exec (.wRice v k) s = .next t)

/-- O24. R151, R142: W_FLUSH with nothing pending changes nothing but the response; with bits pending and the emit
accepted it emits the byte as held and empties the accumulator. -/
def Obligations.FlushEmitsThePartialByte : Prop :=
  ∀ s : State, s.writer.state = .ready → s.writer.response = none →
    (s.writer.pendingBitCount = 0#3 →
      exec .wFlush s = .next { s with writer := { s.writer with body := none, response := some ⟨.ok, 0#32⟩ } }) ∧
    (s.writer.pendingBitCount ≠ 0#3 → ∀ later, s.writer.sink = .accepted :: later →
      exec .wFlush s = .next
        { s with writer :=
          { s.writer with
            pendingByte := 0x00#8
            pendingBitCount := 0#3
            body := none
            response := some ⟨.ok, 0#32⟩
            sink := later
            history := s.writer.history ++ [.emit s.writer.pendingByte .accepted] } })

/-- O25. R152: W_CLOSE flushes, makes the close handshake, and leaves the unit CLOSED, when the sink accepts both,
each on its own handshake (R77). -/
def Obligations.CloseFlushesAndClosesTheSink : Prop :=
  ∀ (s : State) (later : List SinkAnswer), s.writer.state = .ready → s.writer.response = none →
    (s.writer.pendingBitCount = 0#3 → s.writer.closes = .accepted :: later →
      exec .wClose s = .next
        { s with writer :=
          { s.writer with
            state := .closed
            body := none
            response := some ⟨.ok, 0#32⟩
            closes := later
            history := s.writer.history ++ [.close .accepted] } }) ∧
    (s.writer.pendingBitCount ≠ 0#3 → ∀ rest, s.writer.sink = .accepted :: rest →
      s.writer.closes = .accepted :: later →
      exec .wClose s = .next
        { s with writer :=
          { s.writer with
            pendingByte := 0x00#8
            pendingBitCount := 0#3
            state := .closed
            body := none
            response := some ⟨.ok, 0#32⟩
            sink := rest
            closes := later
            history := s.writer.history ++ [.emit s.writer.pendingByte .accepted, .close .accepted] } })

/-- O26. R143, R263, R270, R73: a command that places bits, whose emit number j fails, ends there: the bytes before it
stay emitted, nothing follows it, IO_FAILURE is answered, the IO bit is set and the unit is BROKEN. Nothing is said
of the accumulator (R35). -/
def Obligations.FailedEmitBreaksTheWriter : Prop :=
  ∀ (s : State) (i : Instr) (j : Nat) (later : List SinkAnswer),
    placesBits i = true → legal i → s.writer.state = .ready → s.writer.response = none → PendingClean s.writer →
    j < (pendingBits s.writer ++ placedBits i).length / 8 →
    s.writer.sink = List.replicate j SinkAnswer.accepted ++ .failed :: later →
    ∃ t, exec i s = .next t ∧ t.writer.state = .broken ∧ t.writer.body = none ∧
      t.writer.fault = s.writer.fault ||| 0x01#8 ∧ t.writer.response = some ⟨.err .ioFailure, 0#32⟩ ∧
      t.writer.sink = later ∧ t.writer.closes = s.writer.closes ∧ t.writer.taken = s.writer.taken ∧
      t.writer.history =
        s.writer.history ++
          ((streamBytes (pendingBits s.writer ++ placedBits i) j).map (WEvent.emit · .accepted) ++
            [.emit (streamByte (pendingBits s.writer ++ placedBits i) j) .failed]) ∧
      t.reader = s.reader ∧ t.inputs = s.inputs ∧ t.looped = s.looped ∧ t.clock = s.clock

/-- O27. R151, R152, R263: a failed flush gives IO_FAILURE and no close handshake; a failed close gives
IO_FAILURE. -/
def Obligations.FailedFlushOrCloseBreaksTheWriter : Prop :=
  ∀ (s : State) (later : List SinkAnswer), s.writer.state = .ready → s.writer.response = none →
    (∀ i, i = .wFlush ∨ i = .wClose → s.writer.pendingBitCount ≠ 0#3 → s.writer.sink = .failed :: later →
      ∃ t, exec i s = .next t ∧ t.writer.state = .broken ∧ t.writer.fault = s.writer.fault ||| 0x01#8 ∧
        t.writer.response = some ⟨.err .ioFailure, 0#32⟩ ∧ t.writer.sink = later ∧ t.writer.closes = s.writer.closes ∧
        t.writer.history = s.writer.history ++ [.emit s.writer.pendingByte .failed]) ∧
    (s.writer.pendingBitCount = 0#3 → s.writer.closes = .failed :: later →
      ∃ t, exec .wClose s = .next t ∧ t.writer.state = .broken ∧ t.writer.fault = s.writer.fault ||| 0x01#8 ∧
        t.writer.response = some ⟨.err .ioFailure, 0#32⟩ ∧ t.writer.sink = s.writer.sink ∧ t.writer.closes = later ∧
        t.writer.history = s.writer.history ++ [.close .failed]) ∧
    (s.writer.pendingBitCount ≠ 0#3 → ∀ rest, s.writer.sink = .accepted :: rest → s.writer.closes = .failed :: later →
      ∃ t, exec .wClose s = .next t ∧ t.writer.state = .broken ∧ t.writer.fault = s.writer.fault ||| 0x01#8 ∧
        t.writer.response = some ⟨.err .ioFailure, 0#32⟩ ∧ t.writer.sink = rest ∧ t.writer.closes = later ∧
        t.writer.history = s.writer.history ++ [.emit s.writer.pendingByte .accepted, .close .failed])

/-- O28. R72, R75, R77, R315: a writer command whose next transfer the sink has not answered leaves the unit BUSY with
no response, the byte or the close offered, and the transfers before it made. For a command that places bits the
transfer is emit number j; for W_FLUSH, and for W_CLOSE with bits pending, it is the pending byte; for W_CLOSE with
nothing pending, or after its flush, it is the close. -/
def Obligations.WriterWaitsForTheSink : Prop :=
  (∀ (s : State) (i : Instr) (j : Nat),
    placesBits i = true → legal i → s.writer.state = .ready → s.writer.response = none → PendingClean s.writer →
    j < (pendingBits s.writer ++ placedBits i).length / 8 →
    s.writer.sink = List.replicate j SinkAnswer.accepted →
    ∃ t, exec i s = .next t ∧ t.writer.state = .busy ∧ t.writer.response = none ∧ t.writer.sink = [] ∧
      sinkOffer t = some (streamByte (pendingBits s.writer ++ placedBits i) j) ∧ closeOffer t = false ∧
      t.writer.history =
        s.writer.history ++ (streamBytes (pendingBits s.writer ++ placedBits i) j).map (WEvent.emit · .accepted) ∧
      t.writer.closes = s.writer.closes ∧ t.writer.fault = s.writer.fault ∧ t.writer.taken = s.writer.taken ∧
      t.reader = s.reader) ∧
  (∀ (s : State) (i : Instr),
    i = .wFlush ∨ i = .wClose → s.writer.state = .ready → s.writer.response = none →
    s.writer.pendingBitCount ≠ 0#3 → s.writer.sink = [] →
    ∃ t, exec i s = .next t ∧ t.writer.state = .busy ∧ t.writer.response = none ∧ t.writer.sink = [] ∧
      sinkOffer t = some s.writer.pendingByte ∧ closeOffer t = false ∧ t.writer.history = s.writer.history ∧
      t.writer.closes = s.writer.closes ∧ t.writer.fault = s.writer.fault ∧ t.writer.taken = s.writer.taken ∧
      t.reader = s.reader) ∧
  (∀ (s : State) (flushed : List WEvent) (rest : List SinkAnswer),
    s.writer.state = .ready → s.writer.response = none → s.writer.closes = [] →
    (s.writer.pendingBitCount = 0#3 ∧ s.writer.sink = rest ∧ flushed = []) ∨
      (s.writer.pendingBitCount ≠ 0#3 ∧ s.writer.sink = .accepted :: rest ∧
        flushed = [.emit s.writer.pendingByte .accepted]) →
    ∃ t, exec .wClose s = .next t ∧ t.writer.state = .busy ∧ t.writer.response = none ∧ t.writer.sink = rest ∧
      t.writer.closes = [] ∧
      sinkOffer t = none ∧ closeOffer t = true ∧ t.writer.history = s.writer.history ++ flushed ∧
      t.writer.fault = s.writer.fault ∧ t.writer.taken = s.writer.taken ∧ t.reader = s.reader)

/-- O29. R72, R75, R77: an answer settled before the command and the same answer given after it give the same state; where
the writer waits, the answer given is the edge of the handshake with ready = 1 and that answer's err. -/
def Obligations.LateSinkAnswersGiveTheSameRun : Prop :=
  ∀ (s t : State) (i : Instr) (a : SinkAnswer),
    portOf i = .writer → cmdReady .writer s = true → exec i s = .next t →
    exec i { s with writer := { s.writer with sink := s.writer.sink ++ [a] } } = .next (postSink a t) ∧
    exec i { s with writer := { s.writer with closes := s.writer.closes ++ [a] } } = .next (postClose a t) ∧
    (sinkOffer t ≠ none → postSink a t = sinkEdge ⟨true, a = .failed⟩ t) ∧
    (closeOffer t = true → postClose a t = closeEdge ⟨true, a = .failed⟩ t)

/-- O30. R315: a BUSY writer whose sink keeps answering responds: after a bounded number of edges with ready = 1 on both
handshakes, whatever their err and whatever edges stand between, it has left BUSY and offers a response. The bound on
edges is the model's choice (log 6: the next byte is offered at once after a transfer), no rule of the spec: R320 leaves
the cycles between transfers open, with no bound. -/
def Obligations.BusyWriterEndsWhenTheSinkAnswers : Prop :=
  ∀ s : State, Inv s → ∃ n, ∀ edges : List (SinkPins × SinkPins),
    n ≤ (edges.filter fun x => x.1.ready && x.2.ready).length →
    (sinkEdges edges s).writer.state ≠ .busy ∧
      (s.writer.state = .busy → (sinkEdges edges s).writer.response ≠ none)

/-- O31. What a writer command leaves unchanged: the reader unit, the inputs, the transport's record, the responses
taken; transfers made stay made, the sink's answers are used in order, and no sticky bit is cleared. -/
def Obligations.WriterCommandFrame : Prop :=
  ∀ (s t : State) (i : Instr), portOf i = .writer → exec i s = .next t →
    t.reader = s.reader ∧ t.inputs = s.inputs ∧ t.looped = s.looped ∧ t.clock = s.clock ∧
    t.writer.taken = s.writer.taken ∧ s.writer.history <+: t.writer.history ∧ t.writer.sink <:+ s.writer.sink ∧
    t.writer.closes <:+ s.writer.closes ∧
    t.writer.history.length + t.writer.sink.length + t.writer.closes.length =
      s.writer.history.length + s.writer.sink.length + s.writer.closes.length ∧
    t.writer.fault &&& s.writer.fault = s.writer.fault

/-! ### What a reader command does -/

/-- O32. R205, R207, R209, R216: R_BIT, R_BINARY n and R_BYTE return the next 1, n or 8 bits of the input stream,
least significant first, fetch exactly the bytes that takes, and leave the position R216 gives (R216 is the spec's own
inference, "[derived: from rule R201]"). Nothing else changes. -/
def Obligations.FieldReadsReturnTheNextBits : Prop :=
  ∀ (s : State) (i : Instr) (m : Nat) (bytes : List Byte) (later : List SourcePins),
    (i = .rBit ∧ m = 1) ∨ (i = .rBinary m ∧ m ≤ 32) ∨ (i = .rByte ∧ m = 8) →
    s.reader.state = .ready → s.reader.response = none → s.reader.bitPosition.toNat ≤ 8 →
    bytes.length = fetchCount s.reader.bitPosition.toNat m →
    s.reader.source = bytes.map bytePins ++ later →
    exec i s = .next
      { s with reader :=
        { s.reader with
          currentByte := lastByte s.reader bytes
          bitPosition := BitVec.ofNat 4 (positionAfter s.reader.bitPosition.toNat m)
          body := none
          response := some ⟨.ok, BitVec.ofNat 32 (bitsValue ((upcomingBits s.reader bytes).take m))⟩
          source := later
          history := s.reader.history ++ bytes.map fun b => .fetch (.byte b) } }

/-- O33. R206, R203, R216 ("[derived: from rule R201]"): R_UNARY returns the number of zero bits before the next one
bit, which it consumes. -/
def Obligations.UnaryReadCountsTheZeros : Prop :=
  ∀ (s : State) (q : Nat) (bytes : List Byte) (later : List SourcePins),
    s.reader.state = .ready → s.reader.response = none → s.reader.bitPosition.toNat ≤ 8 →
    q ≤ 2147483647 → bytes.length = fetchCount s.reader.bitPosition.toNat (q + 1) →
    (upcomingBits s.reader bytes).take (q + 1) = unaryBits q →
    s.reader.source = bytes.map bytePins ++ later →
    exec .rUnary s = .next
      { s with reader :=
        { s.reader with
          currentByte := lastByte s.reader bytes
          bitPosition := BitVec.ofNat 4 (positionAfter s.reader.bitPosition.toNat (q + 1))
          body := none
          response := some ⟨.ok, BitVec.ofNat 32 q⟩
          source := later
          history := s.reader.history ++ bytes.map fun b => .fetch (.byte b) } }

/-- O34. R208, R216 ("[derived: from rule R201]"): R_RICE k reads a unary quotient and a k-bit remainder and returns
q·2^k + r when that is at most 2^31 − 1. -/
def Obligations.RiceReadReturnsQuotientAndRemainder : Prop :=
  ∀ (s : State) (k q : Nat) (rest : List Bool) (bytes : List Byte) (later : List SourcePins),
    s.reader.state = .ready → s.reader.response = none → s.reader.bitPosition.toNat ≤ 8 →
    k ≤ 31 → q * 2 ^ k + bitsValue rest ≤ 2147483647 → rest.length = k →
    bytes.length = fetchCount s.reader.bitPosition.toNat (q + 1 + k) →
    (upcomingBits s.reader bytes).take (q + 1 + k) = unaryBits q ++ rest →
    s.reader.source = bytes.map bytePins ++ later →
    exec (.rRice k) s = .next
      { s with reader :=
        { s.reader with
          currentByte := lastByte s.reader bytes
          bitPosition := BitVec.ofNat 4 (positionAfter s.reader.bitPosition.toNat (q + 1 + k))
          body := none
          response := some ⟨.ok, BitVec.ofNat 32 (q * 2 ^ k + bitsValue rest)⟩
          source := later
          history := s.reader.history ++ bytes.map fun b => .fetch (.byte b) } }

/-- O35. R208, R267: R_RICE k whose value is above 2^31 − 1 raises CodeRange after the remainder bits are read: every
byte they need is fetched, CODE_RANGE is answered, the RANGE bit is set and the unit is BROKEN. -/
def Obligations.RiceAboveTheRangeRaisesCodeRange : Prop :=
  ∀ (s : State) (k q : Nat) (rest : List Bool) (bytes : List Byte) (later : List SourcePins),
    s.reader.state = .ready → s.reader.response = none → s.reader.bitPosition.toNat ≤ 8 →
    k ≤ 31 → q ≤ 2147483647 → 2147483647 < q * 2 ^ k + bitsValue rest → rest.length = k →
    bytes.length = fetchCount s.reader.bitPosition.toNat (q + 1 + k) →
    (upcomingBits s.reader bytes).take (q + 1 + k) = unaryBits q ++ rest →
    s.reader.source = bytes.map bytePins ++ later →
    ∃ t, exec (.rRice k) s = .next t ∧ t.reader.state = .broken ∧ t.reader.body = none ∧
      t.reader.fault = s.reader.fault ||| 0x20#8 ∧ t.reader.response = some ⟨.err .codeRange, 0#32⟩ ∧
      t.reader.source = later ∧ t.reader.taken = s.reader.taken ∧
      t.reader.history = s.reader.history ++ (bytes.map fun b => REvent.fetch (.byte b)) ∧ t.writer = s.writer

/-- O36. R203, R206, R267: 2^31 zero bits raise CodeRange in R_UNARY and in R_RICE, right after the last is read and
before any further fetch. -/
def Obligations.TooManyZeroBitsRaiseCodeRange : Prop :=
  ∀ (s : State) (i : Instr) (bytes : List Byte) (later : List SourcePins),
    i = .rUnary ∨ (∃ k, k ≤ 31 ∧ i = .rRice k) →
    s.reader.state = .ready → s.reader.response = none → s.reader.bitPosition.toNat ≤ 8 →
    bytes.length = fetchCount s.reader.bitPosition.toNat 2147483648 →
    (upcomingBits s.reader bytes).take 2147483648 = List.replicate 2147483648 false →
    s.reader.source = bytes.map bytePins ++ later →
    ∃ t, exec i s = .next t ∧ t.reader.state = .broken ∧ t.reader.body = none ∧
      t.reader.fault = s.reader.fault ||| 0x20#8 ∧ t.reader.response = some ⟨.err .codeRange, 0#32⟩ ∧
      t.reader.source = later ∧
      t.reader.history = s.reader.history ++ (bytes.map fun b => REvent.fetch (.byte b)) ∧ t.writer = s.writer

/-- O37. R218, an inference the spec marks as its own ("[derived: from rule R201 and rule R203]"): a reader command
answers END_OF_STREAM exactly when, all bits in hand and all bytes fetched consumed, it needs one more bit and the
fetch answers EOD. -/
def Obligations.EndOfStreamExactlyWhenBitsAreMissing : Prop :=
  ∀ (s : State) (i : Instr),
    portOf i = .reader → s.reader.state = .ready → s.reader.response = none → s.reader.bitPosition.toNat ≤ 8 →
    ((∃ t, exec i s = .next t ∧ t.reader.response = some ⟨.err .endOfStream, 0#32⟩) ↔
      ∃ bytes pins later,
        s.reader.source = bytes.map bytePins ++ pins :: later ∧ sourceAnswer pins = .eod ∧
        needsMore i (upcomingBits s.reader bytes))

/-- O38. R262, R263, R270, R202: what a reader command that needs one more bit leaves when the fetch answers EOD or
ERR: the bytes fetched stay fetched, the unit is BROKEN or DEAD. Nothing is said of the accumulator (R45). -/
def Obligations.FailedFetchEndsTheReaderCommand : Prop :=
  ∀ (s : State) (i : Instr) (bytes : List Byte) (pins : SourcePins) (later : List SourcePins),
    s.reader.state = .ready → s.reader.response = none → s.reader.bitPosition.toNat ≤ 8 →
    needsMore i (upcomingBits s.reader bytes) → s.reader.source = bytes.map bytePins ++ pins :: later →
    (pins.err = true →
      ∃ t, exec i s = .next t ∧ t.reader.state = .dead ∧ t.reader.fault = s.reader.fault ||| 0x01#8 ∧
        t.reader.response = some ⟨.err .ioFailure, 0#32⟩ ∧ t.reader.source = later ∧ t.reader.body = none ∧
        t.reader.history =
          s.reader.history ++ ((bytes.map fun b => REvent.fetch (.byte b)) ++ [.fetch .err]) ∧
        t.writer = s.writer) ∧
    (pins.err = false → pins.eod = true →
      ∃ t, exec i s = .next t ∧ t.reader.state = .broken ∧ t.reader.fault = s.reader.fault ||| 0x10#8 ∧
        t.reader.response = some ⟨.err .endOfStream, 0#32⟩ ∧ t.reader.source = later ∧ t.reader.body = none ∧
        t.reader.history =
          s.reader.history ++ ((bytes.map fun b => REvent.fetch (.byte b)) ++ [.fetch .eod]) ∧
        t.writer = s.writer)

/-- O39. R79, R81, R315: a reader command that needs one more bit, with no answer from the source, leaves the unit
BUSY with the fetch requested and no response; it has fetched exactly the bytes it has consumed. An edge with
`r_src_ack` = 0 changes nothing then; one with `r_src_ack` = 1 is the fetch, its event the answer of the inputs sampled
on it. Without a request no edge of the source port changes anything. Until the fetch the request stays, whatever else
the outside does but reset and a loopback delivery. -/
def Obligations.ReaderWaitsForTheSource : Prop :=
  (∀ (s : State) (i : Instr) (bytes : List Byte),
    s.reader.state = .ready → s.reader.response = none → s.reader.bitPosition.toNat ≤ 8 →
    needsMore i (upcomingBits s.reader bytes) → s.reader.source = bytes.map bytePins →
    ∃ t, exec i s = .next t ∧ t.reader.state = .busy ∧ t.reader.response = none ∧ t.reader.source = [] ∧
      sourceRequest t = true ∧ t.reader.bitPosition = 8#4 ∧ t.reader.fault = s.reader.fault ∧
      t.reader.history = s.reader.history ++ (bytes.map fun b => REvent.fetch (.byte b)) ∧ t.writer = s.writer) ∧
  (∀ (s : State) (later : List Input) (pins : SourcePins), Inv s → sourceRequest s = true →
    (s.inputs = .source false pins :: later → step s = .next { s with inputs := later, clock := s.clock + 1 }) ∧
    (s.inputs = .source true pins :: later →
      ∃ t, step s = .next t ∧
        t.reader.history =
          s.reader.history ++
            [.fetch (if pins.err then .err else if pins.eod then .eod else .byte pins.data)] ∧
        t.reader.source = [] ∧ t.writer = s.writer) ∧
    (∀ x t, s.inputs = x :: later → x ≠ .rst → x ≠ .loop → (∀ pins', x ≠ .source true pins') → step s = .next t →
      sourceRequest t = true ∧ t.reader.history = s.reader.history)) ∧
  (∀ (s : State) (later : List Input) (ack : Bool) (pins : SourcePins),
    sourceRequest s = false → s.inputs = .source ack pins :: later →
    step s = .next { s with inputs := later, clock := s.clock + 1 })

/-- O40. R79, R80: an answer settled before the command and the same answer given after it give the same outcome; where the
reader waits, the answer given is the edge of the source port with ack = 1 and those inputs. -/
def Obligations.LateSourceAnswersGiveTheSameRun : Prop :=
  ∀ (s t : State) (i : Instr) (pins : SourcePins),
    portOf i = .reader → cmdReady .reader s = true → exec i s = .next t →
    exec i { s with reader := { s.reader with source := s.reader.source ++ [pins] } } = postSource pins t ∧
    (sourceRequest t = true → postSource pins t = sourceEdge true pins t)

/-- O41. R315: a BUSY reader whose source keeps answering responds: after a bounded number of edges with ack = 1, whatever
their other inputs and whatever edges stand between, it has left BUSY and offers a response. The bound on edges is the
model's choice (log 6: the next fetch is requested at once after a fetch), no rule of the spec: R320 leaves the cycles
between transfers open, with no bound. -/
def Obligations.BusyReaderEndsWhenTheSourceAnswers : Prop :=
  ∀ s : State, Inv s → ∃ n, ∀ edges : List (Bool × SourcePins), n ≤ (edges.filter fun x => x.1).length →
    ∃ t, sourceEdges edges s = .next t ∧ t.reader.state ≠ .busy ∧
      (s.reader.state = .busy → t.reader.response ≠ none)

/-- O42. R217, an inference the spec marks as its own ("[derived: from rule R207 and rule R209]"): R_BYTE gives the
fetches, the final state, the error and the value of R_BINARY 8. -/
def Obligations.ReadByteIsReadBinaryEight : Prop :=
  ∀ (s t : State), exec .rByte s = .next t → t.reader.state ≠ .busy → exec (.rBinary 8) s = .next t

/-- O43. R210, R211, R81: R_REALIGN in READY, and R_RESET in READY and in BROKEN, set bitPosition to 8, fetch nothing,
leave R.fault alone, and leave the unit READY. Nothing else changes; that currentByte stays is deduced (log 19). -/
def Obligations.RealignAndResetDiscardTheCachedBits : Prop :=
  ∀ (s : State) (i : Instr), s.reader.response = none →
    (i = .rRealign ∧ s.reader.state = .ready) ∨
      (i = .rReset ∧ (s.reader.state = .ready ∨ s.reader.state = .broken)) →
    exec i s = .next
      { s with reader :=
        { s.reader with
          bitPosition := 8#4
          state := .ready
          body := none
          response := some ⟨.ok, 0#32⟩ } }

/-- O44. What a reader command leaves unchanged: the writer unit, the inputs, the transport's record, the responses
taken; bytes fetched stay fetched, the source's answers are used in order, and no sticky bit is cleared. -/
def Obligations.ReaderCommandFrame : Prop :=
  ∀ (s t : State) (i : Instr), portOf i = .reader → exec i s = .next t →
    t.writer = s.writer ∧ t.inputs = s.inputs ∧ t.looped = s.looped ∧ t.clock = s.clock ∧
    t.reader.taken = s.reader.taken ∧ s.reader.history <+: t.reader.history ∧ t.reader.source <:+ s.reader.source ∧
    t.reader.fault &&& s.reader.fault = s.reader.fault

/-- O45. Fetching is lazy and exact (R81): a reader command's new fetch events are as many as the answers it used; when
the bits in hand and those of the first bytes suffice, no answer after those bytes is used; in particular a command
whose bits in hand suffice, R_BINARY 0, R_REALIGN and R_RESET fetch nothing. -/
def Obligations.FetchesAreLazy : Prop :=
  ∀ (s t : State) (i : Instr), portOf i = .reader → exec i s = .next t →
    t.reader.history.length + t.reader.source.length = s.reader.history.length + s.reader.source.length ∧
    (∀ (bytes : List Byte) (later : List SourcePins), s.reader.source = bytes.map bytePins ++ later →
      ¬ needsMore i (upcomingBits s.reader bytes) → later <:+ t.reader.source) ∧
    (¬ needsMore i (unreadBits s.reader) ∨ (i = .rBit ∧ s.reader.bitPosition ≠ 8#4) ∨ i = .rBinary 0 ∨
        i = .rRealign ∨ i = .rReset →
      t.reader.history = s.reader.history ∧ t.reader.source = s.reader.source)

/-! ### The whole machine -/

/-- O46. R215, an inference the spec marks as its own ("[derived: from 40_write_path.md rules R141 to R152 and rules
R201 to R211]"): write commands with legal operands, ended by W_FLUSH or W_CLOSE, with every sink write accepted, all
answer OK; the matching read commands, fed the output stream, return the values written; after each matched pair the
reader's count of consumed bits equals the writer's pending count modulo 8. -/
def Obligations.ReadingBackReturnsWhatWasWritten : Prop :=
  ∀ (cs ds : List Instr) (last : Instr) (n : Nat) (later : List SourcePins),
    (∀ c ∈ cs ++ ds, roundTrips c) → last = .wFlush ∨ last = .wClose → enoughAnswers (cs ++ ds) ≤ n →
    ∃ t u,
      runCommands (cs ++ ds ++ [last]) (writerFrom n) =
        some (t, List.replicate (cs.length + ds.length + 1) ⟨.ok, 0#32⟩) ∧
      runCommands cs (writerFrom n) = some (u, List.replicate cs.length ⟨.ok, 0#32⟩) ∧
      ∃ r, runCommands (cs.filterMap matching) (readerFrom (outputStream t.writer.history) later) =
          some (r, cs.map fun c => ⟨.ok, writtenValue c⟩) ∧
        r.reader.bitPosition.toNat % 8 = u.writer.pendingBitCount.toNat

/-- O47. The invariant holds at reset. -/
def Obligations.InvariantHoldsAtReset : Prop := Inv State.reset

/-- O48. R34, R41, R36, R46, R121, R152: every step keeps the invariant: in READY the bits above the count are zero and
bitPosition is 1 to 8, CLOSED means an empty accumulator, a BUSY unit waits inside its own command with its partial
result in range, reserved fault bits stay 0, an error response carries no data. The layout of a BUSY unit is the
model's (log 10), and so is the bound on a position after an error (log 12). -/
def Obligations.EveryStepKeepsTheInvariant : Prop :=
  ∀ s t : State, Inv s → step s = .next t → Inv t

/-- O49. From every state of the invariant a step answers a next state: no command and no input stops the machine. -/
def Obligations.NoStepStopsTheMachine : Prop :=
  ∀ s : State, Inv s → ∃ t, step s = .next t

/-- O50. R36, R46: only hardware reset clears a sticky fault bit. -/
def Obligations.OnlyResetClearsFaultBits : Prop :=
  ∀ (s t : State) (x : Input) (later : List Input), s.inputs = x :: later → step s = .next t → x ≠ .rst →
    t.writer.fault &&& s.writer.fault = s.writer.fault ∧ t.reader.fault &&& s.reader.fault = s.reader.fault

/-- O51. R33, R43, R272, R301, R73: only hardware reset leaves CLOSED, BROKEN (writer) and DEAD, and in them the unit
makes no transfer. -/
def Obligations.OnlyResetLeavesTheTerminalStates : Prop :=
  ∀ (s t : State) (x : Input) (later : List Input), s.inputs = x :: later → step s = .next t → x ≠ .rst →
    (s.writer.state = .closed ∨ s.writer.state = .broken →
      t.writer.state = s.writer.state ∧ t.writer.history = s.writer.history) ∧
    (s.reader.state = .dead → t.reader.state = .dead ∧ t.reader.history = s.reader.history)

/-- O52. R43, R312: a BROKEN reader leaves that state only by R_RESET or hardware reset. -/
def Obligations.BrokenReaderLeavesOnlyByResetCommand : Prop :=
  ∀ (s t : State), s.reader.state = .broken → step s = .next t → t.reader.state ≠ .broken →
    ∃ later, s.inputs = .rst :: later ∨
      ∃ w, s.inputs = .command .reader w :: later ∧ decode .reader w = .ok .rReset

/-- O53. R50: the two units share no state: what a step makes of a unit depends on that unit and the input alone (a
loopback transport, which is the host's, feeds the reader from the output stream). -/
def Obligations.UnitsDoNotInfluenceEachOther : Prop :=
  ∀ (s s' t t' : State) (x : Input) (later later' : List Input),
    s.inputs = x :: later → s'.inputs = x :: later' → step s = .next t → step s' = .next t' →
    (s.writer = s'.writer → t.writer = t'.writer) ∧
    (s.reader = s'.reader → x ≠ .loop → t.reader = t'.reader)

/-- O54. R74, R89, R90: a step only adds to the event histories: transfers made stay made. -/
def Obligations.TransfersAreNeverUndone : Prop :=
  ∀ s t : State, step s = .next t →
    s.writer.history <+: t.writer.history ∧ s.reader.history <+: t.reader.history

/-- O55. R92: with the output stream looped to the input stream, a delivery makes the oldest accepted byte not yet
delivered the next answer of the source, and otherwise changes nothing: a reader that is not BUSY keeps it for its
next fetch, a BUSY one fetches it and goes on with its command as it does with any answer of the source. With no byte
left a delivery changes nothing. The transport as an input is the model's choice (log 13). -/
def Obligations.LoopbackDeliversTheOutputStreamInOrder : Prop :=
  ∀ (s : State) (later : List Input), s.inputs = .loop :: later →
    (∀ b, (outputStream s.writer.history)[s.looped]? = some b →
      (s.reader.state ≠ .busy →
        step s = .next
          { s with
            inputs := later
            clock := s.clock + 1
            looped := s.looped + 1
            reader := { s.reader with source := s.reader.source ++ [⟨false, false, b⟩] } }) ∧
      (s.reader.state = .busy → Inv s →
        ∃ t u, step s = .next t ∧
          t.reader.history = s.reader.history ++ [.fetch (.byte b)] ∧ t.reader.source = [] ∧
          t.writer = s.writer ∧ t.inputs = later ∧ t.looped = s.looped + 1 ∧
          postSource ⟨false, false, b⟩ s = .next u ∧ t.reader = u.reader)) ∧
    ((outputStream s.writer.history)[s.looped]? = none →
      step s = .next { s with inputs := later, clock := s.clock + 1 })

/-- O56. R110, R111: the line R110 writes for a well-formed command, its operands decimal or hexadecimal numbers or, for
v, a negative decimal, with or without a comment after it, assembles to that command; a line with an operand outside
the encodable range does not assemble; W_ONE, W_ZERO and R_SKIP n assemble to W_BIT 1, W_BIT 0 and R_BINARY n. What
R110 leaves open of the text is the model's choice (log 18), and so is that an empty line and one that is only a
comment hold no command. -/
def Obligations.WrittenCommandsAssemble : Prop :=
  (∀ (i : Instr) (v n comment : List Char), wellFormed i = true → WritesOperands i v n → CommentOrNothing comment →
    assembleLine (writtenLine i v n ++ comment) = .ok (some i)) ∧
  (∀ (i : Instr) (v n comment : List Char), WritesUnencodable i v n → CommentOrNothing comment →
    assembleLine (writtenLine i v n ++ comment) = .error .notEncodable) ∧
  (∀ comment : List Char, CommentOrNothing comment →
    assembleLine comment = .ok none ∧
    assembleLine (['W', '_', 'O', 'N', 'E'] ++ comment) = .ok (some (.wBit 1#32)) ∧
    assembleLine (['W', '_', 'Z', 'E', 'R', 'O'] ++ comment) = .ok (some (.wBit 0#32)) ∧
    ∀ (text : List Char) (n : Nat), WrittenNat text n →
      assembleLine (['R', '_', 'S', 'K', 'I', 'P', ' '] ++ text ++ comment) =
        if n ≤ 63 then .ok (some (.rBinary n)) else .error .notEncodable)

/-- O57. R110, R107: a program of lines that assemble gives the words of their commands in order, and each word decodes
to its line's command on its own port. What R110 leaves open of the text is the model's choice (log 18), and so are
that lines without a command are left out (log 18) and that a list of both units' lines assembles like any other
(log 23). -/
def Obligations.AssembledProgramIsItsEncodedCommands : Prop :=
  (∀ (lines : List (List Char)) (commands : List (Option Instr)),
    lines.map assembleLine = commands.map .ok → assemble lines = .ok ((commands.filterMap id).map encode)) ∧
  (∀ (line : List Char) (i : Instr), assembleLine line = .ok (some i) →
    wellFormed i = true ∧ decode (portOf i) (encode i) = .ok i)

/-- O58. R278, R311: repositioning the source withdraws what was settled and is not yet fetched and changes nothing else.
A reader with unread bits of the old byte then still answers R_BIT with the next of them, without a fetch; after
R_RESET, in READY or in BROKEN, it reads the new bytes alone. Repositioning as an input is the model's choice
(log 13). -/
def Obligations.RepositioningNeedsAReset : Prop :=
  ∀ (s : State) (later : List Input), s.inputs = .reposition :: later →
    ∃ t, step s = .next t ∧
      t = { s with inputs := later, clock := s.clock + 1, reader := { s.reader with source := [] } } ∧
      (s.reader.response = none → s.reader.state = .ready → s.reader.bitPosition.toNat < 8 →
        ∃ u, exec .rBit t = .next u ∧ u.reader.history = s.reader.history ∧
          u.reader.response =
            some ⟨.ok, if s.reader.currentByte.getLsbD s.reader.bitPosition.toNat then 1#32 else 0#32⟩) ∧
      (s.reader.response = none → s.reader.state = .ready ∨ s.reader.state = .broken →
        ∃ u, exec .rReset t = .next u ∧ u.reader.state = .ready ∧ u.reader.source = [] ∧
          u.reader.history = s.reader.history ∧ ∀ bytes, upcomingBits u.reader bytes = bytes.flatMap byteBits)

/-- O59. R75, R72: while the writer offers a byte, an edge with `w_sink_ready` = 0 changes nothing; an edge with
`w_sink_ready` = 1 is the transfer, whose event has the answer of `w_sink_err` (0 ACCEPTED, 1 FAILED; after FAILED the
writer is BROKEN); at most a close already settled follows it. Until that edge the byte stays offered, whatever else
the outside does but reset. While no byte is offered no edge of the sink port changes anything. -/
def Obligations.SinkPortTransfersWhenReady : Prop :=
  (∀ (s : State) (later : List Input) (pins : SinkPins), sinkOffer s = none → s.inputs = .sink pins :: later →
    step s = .next { s with inputs := later, clock := s.clock + 1 }) ∧
  ∀ (s : State) (b : Byte) (later : List Input), Inv s → sinkOffer s = some b →
    (∀ err, s.inputs = .sink ⟨false, err⟩ :: later →
      step s = .next { s with inputs := later, clock := s.clock + 1 }) ∧
    (s.inputs = .sink ⟨true, false⟩ :: later →
      ∃ t closing, step s = .next t ∧ t.writer.history = s.writer.history ++ .emit b .accepted :: closing ∧
        (closing = [] ∨ ∃ a rest, s.writer.closes = a :: rest ∧ closing = [.close a]) ∧
        t.writer.sink = [] ∧ t.reader = s.reader) ∧
    (s.inputs = .sink ⟨true, true⟩ :: later →
      ∃ t, step s = .next t ∧ t.writer.history = s.writer.history ++ [.emit b .failed] ∧ t.writer.state = .broken ∧
        t.writer.fault = s.writer.fault ||| 0x01#8 ∧ t.writer.response = some ⟨.err .ioFailure, 0#32⟩ ∧
        t.writer.sink = [] ∧ t.writer.closes = s.writer.closes ∧ t.reader = s.reader) ∧
    (∀ x t, s.inputs = x :: later → x ≠ .rst → (∀ err, x ≠ .sink ⟨true, err⟩) → step s = .next t →
      sinkOffer t = some b ∧ t.writer.history = s.writer.history)

/-- O60. R77, R152: while the writer asks for the close, an edge with `w_close_ready` = 0 changes nothing; an edge with
`w_close_ready` = 1 is the close: with `w_close_err` = 0 the writer is CLOSED and answers OK, with 1 it is BROKEN and
answers IO_FAILURE. Until that edge the request stays, whatever else the outside does but reset; no edge of the sink
port answers it. While no close is requested no edge of the close port changes anything. -/
def Obligations.CloseHandshakeIsItsOwn : Prop :=
  (∀ (s : State) (later : List Input) (pins : SinkPins), closeOffer s = false → s.inputs = .close pins :: later →
    step s = .next { s with inputs := later, clock := s.clock + 1 }) ∧
  ∀ (s : State) (later : List Input), Inv s → closeOffer s = true →
    (∀ err, s.inputs = .close ⟨false, err⟩ :: later →
      step s = .next { s with inputs := later, clock := s.clock + 1 }) ∧
    (s.inputs = .close ⟨true, false⟩ :: later →
      step s = .next
        { s with
          inputs := later
          clock := s.clock + 1
          writer :=
            { s.writer with
              state := .closed
              body := none
              response := some ⟨.ok, 0#32⟩
              history := s.writer.history ++ [.close .accepted] } }) ∧
    (s.inputs = .close ⟨true, true⟩ :: later →
      ∃ t, step s = .next t ∧ t.writer.history = s.writer.history ++ [.close .failed] ∧ t.writer.state = .broken ∧
        t.writer.fault = s.writer.fault ||| 0x01#8 ∧ t.writer.response = some ⟨.err .ioFailure, 0#32⟩ ∧
        t.writer.sink = s.writer.sink ∧ t.writer.closes = [] ∧ t.reader = s.reader) ∧
    (∀ x t, s.inputs = x :: later → x ≠ .rst → (∀ err, x ≠ .close ⟨true, err⟩) → step s = .next t →
      closeOffer t = true ∧ sinkOffer t = none ∧ t.writer.history = s.writer.history)
end

