-- ==== Sys2Proof/Laws/Assembler.lean ====
section
/-! SUPPORT. What the assembler's reading of text does: a written number reads as its value, a text without blanks is
its own trimmed form, and a comma splits two such texts. -/

namespace Sys2Proof.Machine

open Sys2Proof.Safety

/-- No blank, no comma, no comment and no minus sign: the characters of a number without a sign. -/
abbrev Plain (c : Char) : Prop := isBlank c = false ∧ c ≠ ',' ∧ c ≠ ';' ∧ c ≠ '-'

theorem digitValue_written {base : Nat} {d : Char × Nat} (h : d ∈ digitTable) (hb : d.2 < base) :
    digitValue base d.1 = some d.2 := by
  simp only [digitTable, List.cons_append, List.nil_append, List.mem_cons, List.not_mem_nil, or_false] at h
  rcases h with rfl | rfl | rfl | rfl | rfl | rfl | rfl | rfl | rfl | rfl | rfl | rfl | rfl | rfl | rfl | rfl |
    rfl | rfl | rfl | rfl | rfl | rfl <;> simp [digitValue] at hb ⊢ <;> omega

theorem digit_plain {d : Char × Nat} (h : d ∈ digitTable) : Plain d.1 ∧ d.1 ≠ 'x' := by
  revert d; decide

/-- Reading written digits on from `acc`. -/
theorem readDigits_written {base : Nat} {digits : List (Char × Nat)} (acc : Nat)
    (h : ∀ d ∈ digits, d ∈ digitTable ∧ d.2 < base) :
    readDigits base acc (digits.map (·.1)) = some (digits.foldl (fun a d => a * base + d.2) acc) := by
  induction digits generalizing acc with
  | nil => rfl
  | cons d rest ih =>
    have hd := h d (by simp)
    simp [readDigits, digitValue_written hd.1 hd.2, ih _ fun e he => h e (by simp [he])]

/-- Digits of a base read as their number, are not empty, and are plain characters. -/
theorem writtenDigits_reads {base n : Nat} {text : List Char} (h : WrittenDigits base text n) :
    readDigits base 0 text = some n ∧ text ≠ [] ∧ ∀ c ∈ text, Plain c ∧ c ≠ 'x' := by
  obtain ⟨digits, hne, hd, rfl, rfl⟩ := h
  refine ⟨readDigits_written 0 hd, by simpa using hne, fun c hc => ?_⟩
  obtain ⟨d, hm, rfl⟩ := List.mem_map.1 hc
  exact digit_plain (hd d hm).1

/-- A number of R110 reads as its value, is not empty, and holds plain characters alone. -/
theorem writtenNat_reads {n : Nat} {text : List Char} (h : WrittenNat text n) :
    readUnsigned text = some n ∧ text ≠ [] ∧ ∀ c ∈ text, Plain c := by
  rcases h with h | ⟨digits, rfl, h⟩ <;> obtain ⟨hr, hne, hp⟩ := writtenDigits_reads h
  · refine ⟨?_, hne, fun c hc => (hp c hc).1⟩
    match text, hne with
    | c :: rest, _ =>
      unfold readUnsigned
      split
      · contradiction
      · rename_i heq
        simp only [List.cons.injEq] at heq
        exact absurd rfl (hp 'x' (by simp [heq.2])).2
      · rename_i heq
        exact heq ▸ hr
  · refine ⟨?_, by simp, ?_⟩
    · match digits, hne with
      | c :: rest, _ => simpa [readUnsigned] using hr
    · simp only [List.mem_cons, forall_eq_or_imp]
      exact ⟨by decide, by decide, fun c hc => (hp c hc).1⟩

theorem readNumber_unsigned {text : List Char} (h : ∀ c ∈ text, c ≠ '-') :
    readNumber text = (readUnsigned text).map Int.ofNat := by
  unfold readNumber
  split
  · exact absurd rfl (h '-' (by simp))
  · rfl

/-- A written operand reads as its value, is not empty, and holds no blank, comma or comment. -/
theorem writtenInt_reads {x : Int} {text : List Char} (h : WrittenInt text x) :
    readNumber text = some x ∧ text ≠ [] ∧ ∀ c ∈ text, isBlank c = false ∧ c ≠ ',' ∧ c ≠ ';' := by
  rcases h with ⟨n, h, rfl⟩ | ⟨digits, n, rfl, h, -, rfl⟩
  · obtain ⟨hr, hne, hp⟩ := writtenNat_reads h
    exact ⟨by simp [readNumber_unsigned fun c hc => (hp c hc).2.2.2, hr], hne,
      fun c hc => ⟨(hp c hc).1, (hp c hc).2.1, (hp c hc).2.2.1⟩⟩
  · obtain ⟨hr, hne, hp⟩ := writtenDigits_reads h
    refine ⟨?_, by simp, ?_⟩
    · match digits, hne with
      | c :: rest, _ => simp [readNumber, hr]
    · simp only [List.mem_cons, forall_eq_or_imp]
      exact ⟨by decide, fun c hc => ⟨(hp c hc).1.1, (hp c hc).1.2.1, (hp c hc).1.2.2.1⟩⟩

theorem writtenNat_int {n : Nat} {text : List Char} (h : WrittenNat text n) : WrittenInt text n := .inl ⟨n, h, rfl⟩

theorem trimmed_blank_cons (text : List Char) : trimmed (' ' :: text) = trimmed text := by simp [trimmed, isBlank]

theorem dropWhile_blank {text : List Char} (h : ∀ c ∈ text, isBlank c = false) : text.dropWhile isBlank = text := by
  cases text with
  | nil => rfl
  | cons c rest => simp [h c (by simp)]

theorem trimmed_plain {text : List Char} (h : ∀ c ∈ text, isBlank c = false) : trimmed text = text := by
  rw [trimmed, dropWhile_blank h, dropWhile_blank fun c hc => h c (by simpa using hc), List.reverse_reverse]

/-- A text whose ends are not blank is its own trimmed form. -/
theorem trimmed_ends {text : List Char} {a b : Char} {rest before : List Char} (ha : text = a :: rest)
    (hb : text = before ++ [b]) (hna : isBlank a = false) (hnb : isBlank b = false) : trimmed text = text := by
  have h1 : text.dropWhile isBlank = text := by rw [ha]; simp [hna]
  have h2 : text.reverse.dropWhile isBlank = text.reverse := by rw [hb]; simp [hnb]
  rw [trimmed, h1, h2, List.reverse_reverse]

theorem splitCommas_plain {text : List Char} (h : ∀ c ∈ text, c ≠ ',') : splitCommas text = [text] := by
  induction text with
  | nil => rfl
  | cons c rest ih => simp [splitCommas, h c (by simp), ih fun d hd => h d (by simp [hd])]

theorem splitCommas_comma {text : List Char} (h : ∀ c ∈ text, c ≠ ',') (rest : List Char) :
    splitCommas (text ++ ',' :: rest) = text :: splitCommas rest := by
  induction text with
  | nil => simp [splitCommas]
  | cons c text ih => simp [splitCommas, h c (by simp), ih fun d hd => h d (by simp [hd])]

/-- What stands before a comment is the line's text. -/
theorem uncommented_append {text comment : List Char} (h : ∀ c ∈ text, c ≠ ';') (hc : CommentOrNothing comment) :
    uncommented (text ++ comment) = text := by
  have ht : text.takeWhile (· != ';') = text := List.takeWhile_eq_self_iff.2 fun c hc => by simpa using h c hc
  rcases hc with rfl | ⟨comment, rfl⟩
  · simpa [uncommented] using ht
  · rw [uncommented, List.takeWhile_append_of_pos fun c hc => by simpa using h c hc]
    simp

/-- One operand after the blank that follows the mnemonic. -/
theorem readOperands_one {text : List Char} {x : Int} (h : WrittenInt text x) :
    readOperands (' ' :: text) = some [x] := by
  obtain ⟨hr, hne, hp⟩ := writtenInt_reads h
  have hb : ∀ c ∈ text, isBlank c = false := fun c hc => (hp c hc).1
  have hs : splitCommas (' ' :: text) = [' ' :: text] := splitCommas_plain fun c hc => by
    rcases List.mem_cons.1 hc with rfl | hc
    · decide
    · exact (hp c hc).2.1
  simp [readOperands, trimmed_blank_cons, trimmed_plain hb, hne, hs, hr]

/-- Two operands with a comma between, as R110 writes them. -/
theorem readOperands_two {v n : List Char} {x y : Int} (hv : WrittenInt v x) (hn : WrittenInt n y) :
    readOperands (' ' :: v ++ [',', ' '] ++ n) = some [x, y] := by
  obtain ⟨hrv, hnev, hpv⟩ := writtenInt_reads hv
  obtain ⟨hrn, hnen, hpn⟩ := writtenInt_reads hn
  have hs : splitCommas (' ' :: v ++ [',', ' '] ++ n) = [' ' :: v, ' ' :: n] := by
    have e : ' ' :: v ++ [',', ' '] ++ n = (' ' :: v) ++ ',' :: (' ' :: n) := by simp
    rw [e, splitCommas_comma, splitCommas_plain]
    · intro c hc
      rcases List.mem_cons.1 hc with rfl | hc
      · decide
      · exact (hpn c hc).2.1
    · intro c hc
      rcases List.mem_cons.1 hc with rfl | hc
      · decide
      · exact (hpv c hc).2.1
  have ht : trimmed (' ' :: v ++ [',', ' '] ++ n) ≠ [] := by
    obtain ⟨a, rest, rfl⟩ := List.exists_cons_of_ne_nil hnev
    obtain ⟨before, b, rfl⟩ := n.eq_nil_or_concat.resolve_left hnen
    simp only [List.cons_append, trimmed_blank_cons]
    rw [trimmed_ends (a := a) (b := b) (before := a :: (rest ++ [',', ' '] ++ before)) rfl (by simp)
      (hpv a (by simp)).1 (hpn b (by simp)).1]
    simp
  simp only [readOperands, if_neg ht, hs]
  simp [trimmed_blank_cons, trimmed_plain fun c hc => (hpv c hc).1, trimmed_plain fun c hc => (hpn c hc).1, hrv, hrn]

/-- The texts that may follow a mnemonic: nothing, or a blank and a text that ends in no blank and holds no comment. -/
def FollowsName (text : List Char) : Prop :=
  (text = [] ∨ ∃ before b, text = ' ' :: before ++ [b] ∧ isBlank b = false) ∧ ∀ c ∈ text, c ≠ ';'

theorem followsName_nil : FollowsName [] := ⟨.inl rfl, by simp⟩

theorem followsName_one {text : List Char} {x : Int} (h : WrittenInt text x) : FollowsName (' ' :: text) := by
  obtain ⟨-, hne, hp⟩ := writtenInt_reads h
  obtain ⟨before, b, rfl⟩ := text.eq_nil_or_concat.resolve_left hne
  refine ⟨.inr ⟨before, b, by simp, (hp b (by simp)).1⟩, fun c hc => ?_⟩
  rcases List.mem_cons.1 hc with rfl | hc
  · decide
  · exact (hp c hc).2.2

theorem followsName_two {v n : List Char} {x y : Int} (hv : WrittenInt v x) (hn : WrittenInt n y) :
    FollowsName (' ' :: v ++ [',', ' '] ++ n) := by
  obtain ⟨-, -, hpv⟩ := writtenInt_reads hv
  obtain ⟨-, hne, hp⟩ := writtenInt_reads hn
  obtain ⟨before, b, rfl⟩ := n.eq_nil_or_concat.resolve_left hne
  refine ⟨.inr ⟨v ++ [',', ' '] ++ before, b, by simp, (hp b (by simp)).1⟩, fun c hc => ?_⟩
  simp only [List.cons_append, List.append_assoc, List.mem_cons, List.mem_append, List.not_mem_nil] at hc
  rcases hc with rfl | hc | rfl | rfl | hc
  · decide
  · exact (hpv c hc).2.2
  · decide
  · decide
  · exact (hp c (by simpa using hc)).2.2

/-- A line of a mnemonic, operands that read, and nothing or a comment assembles as its shape says. -/
theorem assembleLine_named {name operands comment : List Char} {shape : Shape} {xs : List Int}
    (hname : name.all (fun c => !isBlank c && c != ';') = true) (hne : name ≠ []) (ho : FollowsName operands)
    (hs : shapeOf name = some shape) (hr : readOperands operands = some xs) (hc : CommentOrNothing comment) :
    assembleLine (name ++ operands ++ comment) = (applyShape shape xs).map some := by
  have hn : ∀ c ∈ name, isBlank c = false ∧ c ≠ ';' := by simpa using hname
  have hu : uncommented (name ++ operands ++ comment) = name ++ operands := uncommented_append (fun c h => by
    rcases List.mem_append.1 h with h | h
    · exact (hn c h).2
    · exact ho.2 c h) hc
  have ht : trimmed (name ++ operands) = name ++ operands := by
    obtain ⟨a, rest, rfl⟩ := List.exists_cons_of_ne_nil hne
    rcases ho.1 with rfl | ⟨before, b, rfl, hb⟩
    · rw [List.append_nil]; exact trimmed_plain fun c h => (hn c h).1
    · exact trimmed_ends (a := a) (b := b) (before := a :: rest ++ ' ' :: before) rfl (by simp) (hn a (by simp)).1 hb
  have hw : (name ++ operands).takeWhile (fun c => !isBlank c) = name := by
    rw [List.takeWhile_append_of_pos fun c h => by simp [(hn c h).1]]
    rcases ho.1 with rfl | ⟨before, b, rfl, -⟩
    · simp
    · simp [isBlank]
  have hnn : ¬ (name ++ operands = []) := by simp [hne]
  unfold assembleLine
  simp only [hu, ht, hw, List.drop_left, hs, hr, if_neg hnn]

end Sys2Proof.Machine
end

