-- ==== Sys2Proof/Laws/Decode.lean ====
section
/-! SUPPORT. The fields of an encoded word and the opcode's own table facts, cited instead of unfolding the encoder. -/

namespace Sys2Proof

/-- One bit of `{op, n, rsv, v}` (R101). -/
theorem getLsbD_fields (op : BitVec 4) (n rsv : BitVec 6) (v : Word) (j : Nat) :
    BitVec.getLsbD (w := 48) (op ++ n ++ rsv ++ v) j =
      if j < 32 then v.getLsbD j
      else if j < 38 then rsv.getLsbD (j - 32)
      else if j < 44 then n.getLsbD (j - 38)
      else op.getLsbD (j - 44) := by
  rw [show BitVec.getLsbD (w := 48) (op ++ n ++ rsv ++ v) j = BitVec.getLsbD (op ++ n ++ rsv ++ v) j from rfl]
  rw [BitVec.getLsbD_append, BitVec.getLsbD_append, BitVec.getLsbD_append]
  by_cases h1 : j < 32
  · simp [h1]
  · by_cases h2 : j < 38
    · simp [h1, h2, show j - 32 < 6 by omega]
    · by_cases h3 : j < 44
      · simp [h1, h2, h3, show ¬ j - 32 < 6 by omega, show j - 32 - 6 = j - 38 by omega,
          show j - 38 < 6 by omega]
      · simp [h1, h2, h3, show ¬ j - 32 < 6 by omega, show ¬ j - 32 - 6 < 6 by omega,
          show j - 32 - 6 - 6 = j - 44 by omega]

/-- Bits 47:44 of `{op, n, rsv, v}` (R101). -/
theorem opField_append (op : BitVec 4) (n rsv : BitVec 6) (v : Word) : opField (op ++ n ++ rsv ++ v) = op := by
  apply BitVec.eq_of_getLsbD_eq
  intro j hj
  rw [opField, BitVec.getLsbD_extractLsb', getLsbD_fields]
  simp [hj, show ¬ 44 + j < 32 by omega, show ¬ 44 + j < 38 by omega, show ¬ 44 + j < 44 by omega]

/-- Bits 43:38 of `{op, n, rsv, v}` (R101). -/
theorem nField_append (op : BitVec 4) (n rsv : BitVec 6) (v : Word) : nField (op ++ n ++ rsv ++ v) = n := by
  apply BitVec.eq_of_getLsbD_eq
  intro j hj
  rw [nField, BitVec.getLsbD_extractLsb', getLsbD_fields]
  simp [hj, show ¬ 38 + j < 32 by omega, show ¬ 38 + j < 38 by omega, show 38 + j < 44 by omega]

/-- Bits 37:32 of `{op, n, rsv, v}` (R101). -/
theorem rsvField_append (op : BitVec 4) (n rsv : BitVec 6) (v : Word) : rsvField (op ++ n ++ rsv ++ v) = rsv := by
  apply BitVec.eq_of_getLsbD_eq
  intro j hj
  rw [rsvField, BitVec.getLsbD_extractLsb', getLsbD_fields]
  simp [hj, show ¬ 32 + j < 32 by omega, show 32 + j < 38 by omega]

/-- Bits 31:0 of `{op, n, rsv, v}` (R101). -/
theorem vField_append (op : BitVec 4) (n rsv : BitVec 6) (v : Word) : vField (op ++ n ++ rsv ++ v) = v := by
  apply BitVec.eq_of_getLsbD_eq
  intro j hj
  rw [vField, BitVec.getLsbD_extractLsb', getLsbD_fields]
  simp [hj]

@[simp] theorem opField_encode (i : Instr) : opField (encode i) = opcode i := opField_append _ _ _ _

@[simp] theorem nField_encode (i : Instr) : nField (encode i) = BitVec.ofNat 6 (operandN i) := nField_append _ _ _ _

@[simp] theorem rsvField_encode (i : Instr) : rsvField (encode i) = 0#6 := rsvField_append _ _ _ _

@[simp] theorem vField_encode (i : Instr) : vField (encode i) = operandV i := vField_append _ _ _ _

/-- A word is its four fields (R101). -/
theorem word_eq_fields (w : CommandWord) : opField w ++ nField w ++ rsvField w ++ vField w = w := by
  apply BitVec.eq_of_getLsbD_eq
  intro j hj
  rw [getLsbD_fields]
  simp only [opField, nField, rsvField, vField, BitVec.getLsbD_extractLsb']
  by_cases h1 : j < 32
  · simp [h1]
  · by_cases h2 : j < 38
    · simp [h1, h2, show j - 32 < 6 by omega, show 32 + (j - 32) = j by omega]
    · by_cases h3 : j < 44
      · simp [h1, h2, h3, show j - 38 < 6 by omega, show 38 + (j - 38) = j by omega]
      · simp [h1, h2, h3, show j - 44 < 4 by omega, show 44 + (j - 44) = j by omega]

/-- No command has the reserved opcode (R106). -/
theorem opcode_ne_reserved (i : Instr) : opcode i ≠ 0xF#4 := by
  cases i <;> simp [opcode]

/-- A command that has no N operand carries 0 there (R103). -/
theorem operandN_of_unused {i : Instr} (h : usesN (opcode i) = false) : operandN i = 0 := by
  cases i <;> first | rfl | exact absurd h (by simp [usesN, opcode])

/-- A command that has no V operand carries 0 there (R103). -/
theorem operandV_of_unused {i : Instr} (h : usesV (opcode i) = false) : operandV i = 0#32 := by
  cases i <;> first | rfl | exact absurd h (by simp [usesV, opcode])

end Sys2Proof
end

