-- ==== Sys2Proof/Laws/PerInstr.lean ====
section
/-! SUPPORT. The family EncodedFields: each command's word carries its opcode, a zero RSV and its operands in the
fields of 30_encoding.md R101, one lemma per constructor. -/

namespace Sys2Proof.Laws.EncodedFields

/-- The fields of the encoded word. -/
def Statement (i : Instr) : Prop :=
  opField (encode i) = opcode i ∧ rsvField (encode i) = 0#6 ∧ vField (encode i) = operandV i ∧
    (wellFormed i = true → (nField (encode i)).toNat = operandN i)

/-- The statement needs only that a well-formed N fits its field. -/
theorem of_fits (i : Instr) (h : wellFormed i = true → operandN i < 64) : Statement i :=
  ⟨opField_encode i, rsvField_encode i, vField_encode i, fun hw => by
    rw [nField_encode, BitVec.toNat_ofNat]; exact Nat.mod_eq_of_lt (h hw)⟩

theorem wBit (v : Word) : Statement (.wBit v) := of_fits _ fun _ => by simp [operandN]
theorem wZeroes (v : Word) : Statement (.wZeroes v) := of_fits _ fun _ => by simp [operandN]
theorem wUnary (v : Word) : Statement (.wUnary v) := of_fits _ fun _ => by simp [operandN]
theorem wBinary (v : Word) (n : Nat) : Statement (.wBinary v n) := of_fits _ fun h => by
  simpa [wellFormed, fitsN, operandN] using h
theorem wByte (v : Word) : Statement (.wByte v) := of_fits _ fun _ => by simp [operandN]
theorem wRice (v : Word) (k : Nat) : Statement (.wRice v k) := of_fits _ fun h => by
  simpa [wellFormed, fitsN, operandN] using h
theorem wFlush : Statement .wFlush := of_fits _ fun _ => by simp [operandN]
theorem wClose : Statement .wClose := of_fits _ fun _ => by simp [operandN]
theorem rBit : Statement .rBit := of_fits _ fun _ => by simp [operandN]
theorem rUnary : Statement .rUnary := of_fits _ fun _ => by simp [operandN]
theorem rBinary (n : Nat) : Statement (.rBinary n) := of_fits _ fun h => by
  simpa [wellFormed, fitsN, operandN] using h
theorem rRice (k : Nat) : Statement (.rRice k) := of_fits _ fun h => by
  simpa [wellFormed, fitsN, operandN] using h
theorem rByte : Statement .rByte := of_fits _ fun _ => by simp [operandN]
theorem rRealign : Statement .rRealign := of_fits _ fun _ => by simp [operandN]
theorem rReset : Statement .rReset := of_fits _ fun _ => by simp [operandN]

end Sys2Proof.Laws.EncodedFields
end

