-- ==== Sys2Proof/Laws/State.lean ====
section
/-! SUPPORT. What each named update of the state does to each field, by definition, so that no proof about a later
state unfolds the update. -/

namespace Sys2Proof.Machine

/-! ### fail (R268) -/

@[simp] theorem failWriter_pendingByte (e : Err) (w : Writer) : (failWriter e w).pendingByte = w.pendingByte := rfl

@[simp] theorem failWriter_pendingBitCount (e : Err) (w : Writer) : (failWriter e w).pendingBitCount = w.pendingBitCount := rfl

@[simp] theorem failWriter_state (e : Err) (w : Writer) : (failWriter e w).state = w.state := rfl

@[simp] theorem failWriter_fault (e : Err) (w : Writer) : (failWriter e w).fault = recordFault e w.fault := rfl

@[simp] theorem failWriter_body (e : Err) (w : Writer) : (failWriter e w).body = w.body := rfl

@[simp] theorem failWriter_response (e : Err) (w : Writer) : (failWriter e w).response = some (errorResponse e) := rfl

@[simp] theorem failWriter_sink (e : Err) (w : Writer) : (failWriter e w).sink = w.sink := rfl

@[simp] theorem failWriter_closes (e : Err) (w : Writer) : (failWriter e w).closes = w.closes := rfl

@[simp] theorem failWriter_history (e : Err) (w : Writer) : (failWriter e w).history = w.history := rfl

@[simp] theorem failWriter_taken (e : Err) (w : Writer) : (failWriter e w).taken = w.taken := rfl

@[simp] theorem failWriter_draws (e : Err) (w : Writer) : (failWriter e w).draws = w.draws := rfl

@[simp] theorem failReader_currentByte (e : Err) (r : Reader) : (failReader e r).currentByte = r.currentByte := rfl

@[simp] theorem failReader_bitPosition (e : Err) (r : Reader) : (failReader e r).bitPosition = r.bitPosition := rfl

@[simp] theorem failReader_state (e : Err) (r : Reader) : (failReader e r).state = r.state := rfl

@[simp] theorem failReader_fault (e : Err) (r : Reader) : (failReader e r).fault = recordFault e r.fault := rfl

@[simp] theorem failReader_body (e : Err) (r : Reader) : (failReader e r).body = r.body := rfl

@[simp] theorem failReader_response (e : Err) (r : Reader) : (failReader e r).response = some (errorResponse e) := rfl

@[simp] theorem failReader_source (e : Err) (r : Reader) : (failReader e r).source = r.source := rfl

@[simp] theorem failReader_history (e : Err) (r : Reader) : (failReader e r).history = r.history := rfl

@[simp] theorem failReader_taken (e : Err) (r : Reader) : (failReader e r).taken = r.taken := rfl

@[simp] theorem failReader_draws (e : Err) (r : Reader) : (failReader e r).draws = r.draws := rfl

/-! ### enter (R269, R270) -/

@[simp] theorem enterWriter_pendingByte (w : Writer) : (enterWriter w).pendingByte = Config.freePendingByte w.draws := rfl

@[simp] theorem enterWriter_pendingBitCount (w : Writer) : (enterWriter w).pendingBitCount = Config.freePendingBitCount w.draws := rfl

@[simp] theorem enterWriter_state (w : Writer) : (enterWriter w).state = .broken := rfl

@[simp] theorem enterWriter_fault (w : Writer) : (enterWriter w).fault = recordFault .ioFailure w.fault := rfl

@[simp] theorem enterWriter_body (w : Writer) : (enterWriter w).body = none := rfl

@[simp] theorem enterWriter_response (w : Writer) : (enterWriter w).response = some (errorResponse .ioFailure) := rfl

@[simp] theorem enterWriter_sink (w : Writer) : (enterWriter w).sink = w.sink := rfl

@[simp] theorem enterWriter_closes (w : Writer) : (enterWriter w).closes = w.closes := rfl

@[simp] theorem enterWriter_history (w : Writer) : (enterWriter w).history = w.history := rfl

@[simp] theorem enterWriter_taken (w : Writer) : (enterWriter w).taken = w.taken := rfl

@[simp] theorem enterWriter_draws (w : Writer) : (enterWriter w).draws = w.draws + 1 := rfl

@[simp] theorem enterReader_currentByte (e : Err) (r : Reader) : (enterReader e r).currentByte = Config.freeCurrentByte r.draws := rfl

@[simp] theorem enterReader_bitPosition (e : Err) (r : Reader) : (enterReader e r).bitPosition = BitVec.ofNat 4 (Config.freeBitPosition r.draws).val := rfl

@[simp] theorem enterReader_state (e : Err) (r : Reader) : (enterReader e r).state = stateAfterError e := rfl

@[simp] theorem enterReader_fault (e : Err) (r : Reader) : (enterReader e r).fault = recordFault e r.fault := rfl

@[simp] theorem enterReader_body (e : Err) (r : Reader) : (enterReader e r).body = none := rfl

@[simp] theorem enterReader_response (e : Err) (r : Reader) : (enterReader e r).response = some (errorResponse e) := rfl

@[simp] theorem enterReader_source (e : Err) (r : Reader) : (enterReader e r).source = r.source := rfl

@[simp] theorem enterReader_history (e : Err) (r : Reader) : (enterReader e r).history = r.history := rfl

@[simp] theorem enterReader_taken (e : Err) (r : Reader) : (enterReader e r).taken = r.taken := rfl

@[simp] theorem enterReader_draws (e : Err) (r : Reader) : (enterReader e r).draws = r.draws + 1 := rfl

/-! ### Hardware reset (R300, R301) -/

@[simp] theorem resetWriter_pendingByte (w : Writer) : (resetWriter w).pendingByte = Writer.reset.pendingByte := rfl

@[simp] theorem resetWriter_pendingBitCount (w : Writer) : (resetWriter w).pendingBitCount = Writer.reset.pendingBitCount := rfl

@[simp] theorem resetWriter_state (w : Writer) : (resetWriter w).state = Writer.reset.state := rfl

@[simp] theorem resetWriter_fault (w : Writer) : (resetWriter w).fault = Writer.reset.fault := rfl

@[simp] theorem resetWriter_body (w : Writer) : (resetWriter w).body = Writer.reset.body := rfl

@[simp] theorem resetWriter_response (w : Writer) : (resetWriter w).response = Writer.reset.response := rfl

@[simp] theorem resetWriter_sink (w : Writer) : (resetWriter w).sink = w.sink := rfl

@[simp] theorem resetWriter_closes (w : Writer) : (resetWriter w).closes = w.closes := rfl

@[simp] theorem resetWriter_history (w : Writer) : (resetWriter w).history = w.history := rfl

@[simp] theorem resetWriter_taken (w : Writer) : (resetWriter w).taken = w.taken := rfl

@[simp] theorem resetWriter_draws (w : Writer) : (resetWriter w).draws = w.draws := rfl

@[simp] theorem resetReader_currentByte (r : Reader) : (resetReader r).currentByte = Reader.reset.currentByte := rfl

@[simp] theorem resetReader_bitPosition (r : Reader) : (resetReader r).bitPosition = Reader.reset.bitPosition := rfl

@[simp] theorem resetReader_state (r : Reader) : (resetReader r).state = Reader.reset.state := rfl

@[simp] theorem resetReader_fault (r : Reader) : (resetReader r).fault = Reader.reset.fault := rfl

@[simp] theorem resetReader_body (r : Reader) : (resetReader r).body = Reader.reset.body := rfl

@[simp] theorem resetReader_response (r : Reader) : (resetReader r).response = Reader.reset.response := rfl

@[simp] theorem resetReader_source (r : Reader) : (resetReader r).source = r.source := rfl

@[simp] theorem resetReader_history (r : Reader) : (resetReader r).history = r.history := rfl

@[simp] theorem resetReader_taken (r : Reader) : (resetReader r).taken = r.taken := rfl

@[simp] theorem resetReader_draws (r : Reader) : (resetReader r).draws = r.draws := rfl

@[simp] theorem hardwareReset_writer (s : State) : (hardwareReset s).writer = resetWriter s.writer := rfl

@[simp] theorem hardwareReset_reader (s : State) : (hardwareReset s).reader = resetReader s.reader := rfl

@[simp] theorem hardwareReset_inputs (s : State) : (hardwareReset s).inputs = s.inputs := rfl

@[simp] theorem hardwareReset_looped (s : State) : (hardwareReset s).looped = s.looped := rfl

@[simp] theorem hardwareReset_clock (s : State) : (hardwareReset s).clock = s.clock := rfl

/-! ### Consuming an input, the source repositioned, the sink answering -/

@[simp] theorem consumeInput_writer (s : State) : (consumeInput s).writer = s.writer := rfl

@[simp] theorem consumeInput_reader (s : State) : (consumeInput s).reader = s.reader := rfl

@[simp] theorem consumeInput_inputs (s : State) : (consumeInput s).inputs = s.inputs.tail := rfl

@[simp] theorem consumeInput_looped (s : State) : (consumeInput s).looped = s.looped := rfl

@[simp] theorem consumeInput_clock (s : State) : (consumeInput s).clock = s.clock + 1 := rfl

@[simp] theorem reposition_writer (s : State) : (reposition s).writer = s.writer := rfl

@[simp] theorem reposition_reader (s : State) : (reposition s).reader = { s.reader with source := [] } := rfl

@[simp] theorem reposition_inputs (s : State) : (reposition s).inputs = s.inputs := rfl

@[simp] theorem reposition_looped (s : State) : (reposition s).looped = s.looped := rfl

@[simp] theorem reposition_clock (s : State) : (reposition s).clock = s.clock := rfl

@[simp] theorem postSink_writer (a : SinkAnswer) (s : State) : (postSink a s).writer = resumeWriter { s.writer with sink := s.writer.sink ++ [a] } := rfl

@[simp] theorem postSink_reader (a : SinkAnswer) (s : State) : (postSink a s).reader = s.reader := rfl

@[simp] theorem postSink_inputs (a : SinkAnswer) (s : State) : (postSink a s).inputs = s.inputs := rfl

@[simp] theorem postSink_looped (a : SinkAnswer) (s : State) : (postSink a s).looped = s.looped := rfl

@[simp] theorem postSink_clock (a : SinkAnswer) (s : State) : (postSink a s).clock = s.clock := rfl

@[simp] theorem postClose_writer (a : SinkAnswer) (s : State) : (postClose a s).writer = resumeWriter { s.writer with closes := s.writer.closes ++ [a] } := rfl

@[simp] theorem postClose_reader (a : SinkAnswer) (s : State) : (postClose a s).reader = s.reader := rfl

@[simp] theorem postClose_inputs (a : SinkAnswer) (s : State) : (postClose a s).inputs = s.inputs := rfl

@[simp] theorem postClose_looped (a : SinkAnswer) (s : State) : (postClose a s).looped = s.looped := rfl

@[simp] theorem postClose_clock (a : SinkAnswer) (s : State) : (postClose a s).clock = s.clock := rfl

/-- An edge of the sink port: the answer of `w_sink_err` when a byte is offered and the sink is ready, else nothing
(R75). -/
theorem sinkEdge_eq (pins : SinkPins) (s : State) :
    sinkEdge pins s =
      if (sinkOffer s).isSome ∧ pins.ready then postSink (if pins.err then .failed else .accepted) s else s := by
  unfold sinkEdge sinkAnswer
  cases sinkOffer s <;> cases pins.ready <;> simp

/-- An edge of the close port: the answer of `w_close_err` when the close is requested and the sink is ready, else
nothing (R77). -/
theorem closeEdge_eq (pins : SinkPins) (s : State) :
    closeEdge pins s =
      if closeOffer s ∧ pins.ready then postClose (if pins.err then .failed else .accepted) s else s := by
  unfold closeEdge sinkAnswer
  cases closeOffer s <;> cases pins.ready <;> simp

/-- An edge of the source port without a request changes nothing (R79). -/
theorem sourceEdge_idle {s : State} (h : sourceRequest s = false) (ack : Bool) (pins : SourcePins) :
    sourceEdge ack pins s = .next s := by simp [sourceEdge, h]

/-- An edge of the source port with a request and an ack is the fetch (R79). -/
theorem sourceEdge_fetch {s : State} (h : sourceRequest s = true) (pins : SourcePins) :
    sourceEdge true pins s = postSource pins s := by simp [sourceEdge, h]

/-! ### The response handshake and an illegal command, port by port -/

@[simp] theorem takeResponse_writer_writer (s : State) : (takeResponse .writer s).writer = { s.writer with response := none, taken := s.writer.taken ++ s.writer.response.toList } := rfl

@[simp] theorem takeResponse_writer_reader (s : State) : (takeResponse .writer s).reader = s.reader := rfl

@[simp] theorem takeResponse_writer_inputs (s : State) : (takeResponse .writer s).inputs = s.inputs := rfl

@[simp] theorem takeResponse_writer_looped (s : State) : (takeResponse .writer s).looped = s.looped := rfl

@[simp] theorem takeResponse_writer_clock (s : State) : (takeResponse .writer s).clock = s.clock := rfl

@[simp] theorem takeResponse_reader_writer (s : State) : (takeResponse .reader s).writer = s.writer := rfl

@[simp] theorem takeResponse_reader_reader (s : State) : (takeResponse .reader s).reader = { s.reader with response := none, taken := s.reader.taken ++ s.reader.response.toList } := rfl

@[simp] theorem takeResponse_reader_inputs (s : State) : (takeResponse .reader s).inputs = s.inputs := rfl

@[simp] theorem takeResponse_reader_looped (s : State) : (takeResponse .reader s).looped = s.looped := rfl

@[simp] theorem takeResponse_reader_clock (s : State) : (takeResponse .reader s).clock = s.clock := rfl

@[simp] theorem illegalCommand_writer_writer (s : State) : (illegalCommand .writer s).writer = failWriter .illegalCommand s.writer := rfl

@[simp] theorem illegalCommand_writer_reader (s : State) : (illegalCommand .writer s).reader = s.reader := rfl

@[simp] theorem illegalCommand_writer_inputs (s : State) : (illegalCommand .writer s).inputs = s.inputs := rfl

@[simp] theorem illegalCommand_writer_looped (s : State) : (illegalCommand .writer s).looped = s.looped := rfl

@[simp] theorem illegalCommand_writer_clock (s : State) : (illegalCommand .writer s).clock = s.clock := rfl

@[simp] theorem illegalCommand_reader_writer (s : State) : (illegalCommand .reader s).writer = s.writer := rfl

@[simp] theorem illegalCommand_reader_reader (s : State) : (illegalCommand .reader s).reader = failReader .illegalCommand s.reader := rfl

@[simp] theorem illegalCommand_reader_inputs (s : State) : (illegalCommand .reader s).inputs = s.inputs := rfl

@[simp] theorem illegalCommand_reader_looped (s : State) : (illegalCommand .reader s).looped = s.looped := rfl

@[simp] theorem illegalCommand_reader_clock (s : State) : (illegalCommand .reader s).clock = s.clock := rfl

end Sys2Proof.Machine
end

