-- ==== Sys2Proof/Laws/Writer.lean ====
section
/-! SUPPORT. What the writer's shared operations can do: one lemma per operation about what a run leaves alone, one
about the accumulator, and the shape of a wait. -/

namespace Sys2Proof.Machine

open Sys2Proof.Safety

/-- The writer at the point a run has reached. -/
def reached : WriteRun → Writer
  | .done w => w
  | .wait w _ => w
  | .raise w => w

/-- What running a part of a writer body leaves alone: everything but the accumulator, the state, the sink's answers
to writes and closes (used from the front) and the history (extended at its end), each answer used giving one event (R89, R91, R140). -/
structure WriterRan (w w' : Writer) : Prop where
  fault : w'.fault = w.fault
  body : w'.body = w.body
  response : w'.response = w.response
  taken : w'.taken = w.taken
  draws : w'.draws = w.draws
  history : w.history <+: w'.history
  sink : w'.sink <:+ w.sink
  closes : w'.closes <:+ w.closes
  moved : w'.history.length + w'.sink.length + w'.closes.length =
    w.history.length + w.sink.length + w.closes.length
  state : w'.state = w.state ∨ w'.state = .closed

theorem WriterRan.refl (w : Writer) : WriterRan w w where
  fault := rfl
  body := rfl
  response := rfl
  taken := rfl
  draws := rfl
  history := List.prefix_refl _
  sink := List.suffix_refl _
  closes := List.suffix_refl _
  moved := rfl
  state := .inl rfl

theorem WriterRan.trans {a b c : Writer} (h : WriterRan a b) (k : WriterRan b c) : WriterRan a c where
  fault := k.fault.trans h.fault
  body := k.body.trans h.body
  response := k.response.trans h.response
  taken := k.taken.trans h.taken
  draws := k.draws.trans h.draws
  history := h.history.trans k.history
  sink := k.sink.trans h.sink
  closes := k.closes.trans h.closes
  moved := k.moved.trans h.moved
  state := by
    rcases k.state with hk | hk
    · exact hk ▸ h.state
    · exact .inr hk

/-- A change of the accumulator alone. -/
theorem writerRan_accumulator (w : Writer) (b : Byte) (c : BitVec 3) :
    WriterRan w { w with pendingByte := b, pendingBitCount := c } where
  fault := rfl
  body := rfl
  response := rfl
  taken := rfl
  draws := rfl
  history := List.prefix_refl _
  sink := List.suffix_refl _
  closes := List.suffix_refl _
  moved := rfl
  state := .inl rfl

/-- SinkWrite (R72): no answer, or the next answer with its event. -/
theorem sinkWrite_cases (b : Byte) (w : Writer) :
    (w.sink = [] ∧ sinkWrite b w = none) ∨
      ∃ a later, w.sink = a :: later ∧
        sinkWrite b w = some (a, { w with sink := later, history := w.history ++ [.emit b a] }) := by
  unfold sinkWrite
  cases hs : w.sink with
  | nil => exact .inl ⟨rfl, rfl⟩
  | cons a later => exact .inr ⟨a, later, rfl, rfl⟩

/-- The emit of R141 and R142: it waits without an answer, raises on FAILED, and empties the accumulator on
ACCEPTED. -/
theorem emitPending_cases (w : Writer) :
    (w.sink = [] ∧ emitPending w = .wait w [.emit]) ∨
      (∃ later, w.sink = .failed :: later ∧
        emitPending w =
          .raise { w with sink := later, history := w.history ++ [.emit w.pendingByte .failed] }) ∨
      ∃ later, w.sink = .accepted :: later ∧
        emitPending w =
          .done
            { w with
              sink := later
              history := w.history ++ [.emit w.pendingByte .accepted]
              pendingByte := 0x00#8
              pendingBitCount := 0#3 } := by
  rcases sinkWrite_cases w.pendingByte w with ⟨hs, h⟩ | ⟨a, later, hs, h⟩
  · exact .inl ⟨hs, by simp [emitPending, h]⟩
  · cases a with
    | accepted => exact .inr (.inr ⟨later, hs, by simp [emitPending, h]⟩)
    | failed => exact .inr (.inl ⟨later, hs, by simp [emitPending, h]⟩)

theorem emitPending_ran (w : Writer) : WriterRan w (reached (emitPending w)) := by
  rcases emitPending_cases w with ⟨hs, h⟩ | ⟨later, hs, h⟩ | ⟨later, hs, h⟩ <;> rw [h]
  · exact WriterRan.refl w
  all_goals
    refine ⟨rfl, rfl, rfl, rfl, rfl, List.prefix_append _ _, ?_, List.suffix_refl _, ?_, .inl rfl⟩
    · simp [reached, hs]
    · simp [reached, hs]; omega

/-- The close of R152: it waits without an answer, raises on FAILED, and is CLOSED on ACCEPTED. -/
theorem closeSink_cases (w : Writer) :
    (w.closes = [] ∧ closeSink w = .wait w [.close]) ∨
      (∃ later, w.closes = .failed :: later ∧
        closeSink w = .raise { w with closes := later, history := w.history ++ [.close .failed] }) ∨
      ∃ later, w.closes = .accepted :: later ∧
        closeSink w =
          .done { w with closes := later, history := w.history ++ [.close .accepted], state := .closed } := by
  cases hs : w.closes with
  | nil => exact .inl ⟨rfl, by simp [closeSink, sinkClose, hs]⟩
  | cons a later =>
    cases a with
    | accepted => exact .inr (.inr ⟨later, rfl, by simp [closeSink, sinkClose, hs]⟩)
    | failed => exact .inr (.inl ⟨later, rfl, by simp [closeSink, sinkClose, hs]⟩)

theorem closeSink_ran (w : Writer) : WriterRan w (reached (closeSink w)) := by
  rcases closeSink_cases w with ⟨hs, h⟩ | ⟨later, hs, h⟩ | ⟨later, hs, h⟩ <;> rw [h]
  · exact WriterRan.refl w
  · refine ⟨rfl, rfl, rfl, rfl, rfl, List.prefix_append _ _, List.suffix_refl _, ?_, ?_, .inl rfl⟩
    · simp [reached, hs]
    · simp [reached, hs]; omega
  · refine ⟨rfl, rfl, rfl, rfl, rfl, List.prefix_append _ _, List.suffix_refl _, ?_, ?_, .inr rfl⟩
    · simp [reached, hs]
    · simp [reached, hs]; omega

/-- PutBit (R141) on a byte with room: the bit is placed and the count grows. -/
theorem putBit_room {w : Writer} (b : Bool) (h : w.pendingBitCount ≠ 7#3) :
    putBit b w =
      .done { w with pendingByte := placeBit b w, pendingBitCount := w.pendingBitCount + 1#3 } := by
  have hc : ∀ c : BitVec 3, c ≠ 7#3 → c.setWidth 4 + 1#4 ≠ 8#4 ∧ (c.setWidth 4 + 1#4).setWidth 3 = c + 1#3 := by
    decide
  simp [putBit, hc w.pendingBitCount h]

/-- PutBit (R141) of a byte's eighth bit: the emit. -/
theorem putBit_full {w : Writer} (b : Bool) (h : w.pendingBitCount = 7#3) :
    putBit b w = emitPending { w with pendingByte := placeBit b w } := by
  simp [putBit, h]

theorem putBit_ran (b : Bool) (w : Writer) : WriterRan w (reached (putBit b w)) := by
  by_cases h : w.pendingBitCount = 7#3
  · rw [putBit_full b h]
    exact (writerRan_accumulator w _ _).trans (emitPending_ran _)
  · rw [putBit_room b h]
    exact writerRan_accumulator w _ _

theorem flushPending_ran (w : Writer) : WriterRan w (reached (flushPending w)) := by
  unfold flushPending
  split
  · exact emitPending_ran w
  · exact WriterRan.refl w

/-- A run followed by the rest of the body. -/
theorem andThenW_ran {w : Writer} {x : WriteRun} {k : Writer → WriteRun} (later : List WOp)
    (hx : WriterRan w (reached x)) (hk : ∀ u, x = .done u → WriterRan u (reached (k u))) :
    WriterRan w (reached (andThenW x k later)) := by
  cases x with
  | done u => exact hx.trans (hk u rfl)
  | wait u rest => exact hx
  | raise u => exact hx

theorem putZeros_ran (n : Nat) (w : Writer) : WriterRan w (reached (putZeros n w)) := by
  induction n generalizing w with
  | zero => exact WriterRan.refl w
  | succ n ih => exact andThenW_ran _ (putBit_ran false w) fun u _ => ih u

theorem putBits_ran (v : Word) (n i : Nat) (w : Writer) : WriterRan w (reached (putBits v n i w)) := by
  induction n generalizing i w with
  | zero => exact WriterRan.refl w
  | succ n ih => exact andThenW_ran _ (putBit_ran _ w) fun u _ => ih (i + 1) u

theorem runWOp_ran (op : WOp) (w : Writer) : WriterRan w (reached (runWOp op w)) := by
  cases op with
  | zeros n => exact putZeros_ran n w
  | bits v i n => exact putBits_ran v n i w
  | flush => exact flushPending_ran w
  | emit => exact emitPending_ran w
  | close => exact closeSink_ran w

/-- What running a writer body leaves alone. -/
theorem runWOps_ran (ops : List WOp) (w : Writer) : WriterRan w (reached (runWOps ops w)) := by
  induction ops generalizing w with
  | nil => exact WriterRan.refl w
  | cons op later ih => exact andThenW_ran _ (runWOp_ran op w) fun u _ => ih u

/-! ### The accumulator (R34) -/

theorem placeBit_clean {w : Writer} (b : Bool) (h : PendingClean w) :
    (placeBit b w).toNat < 2 ^ (w.pendingBitCount.toNat + 1) := by
  have hc : w.pendingBitCount.toNat < 8 := w.pendingBitCount.isLt
  have hp : w.pendingByte.toNat < 2 ^ (w.pendingBitCount.toNat + 1) := lt_trans h (by rw [pow_succ]; omega)
  cases b with
  | false => simpa [placeBit] using hp
  | true =>
    simp only [placeBit, if_true, BitVec.toNat_or]
    refine Nat.or_lt_two_pow hp ?_
    rw [BitVec.toNat_twoPow, Nat.mod_eq_of_lt (Nat.pow_lt_pow_right (by omega) hc)]
    exact Nat.pow_lt_pow_right (by omega) (by omega)

theorem clean_of_empty {w : Writer} (h : w.pendingByte = 0#8) : PendingClean w := by
  simp [PendingClean, h]

/-- A finished PutBit keeps the bits above the count zero (R34). -/
theorem putBit_clean {w u : Writer} {b : Bool} (hw : PendingClean w) (h : putBit b w = .done u) : PendingClean u := by
  by_cases hc : w.pendingBitCount = 7#3
  · rw [putBit_full b hc] at h
    rcases emitPending_cases { w with pendingByte := placeBit b w } with ⟨_, e⟩ | ⟨_, _, e⟩ | ⟨_, _, e⟩ <;>
      rw [e] at h <;> cases h
    exact clean_of_empty rfl
  · rw [putBit_room b hc] at h
    cases h
    have hn : ∀ c : BitVec 3, c ≠ 7#3 → (c + 1#3).toNat = c.toNat + 1 := by decide
    simpa [PendingClean, hn w.pendingBitCount hc] using placeBit_clean b hw

/-- A finished emit leaves the accumulator empty. -/
theorem emitPending_empty {w u : Writer} (h : emitPending w = .done u) :
    u.pendingByte = 0#8 ∧ u.pendingBitCount = 0#3 := by
  rcases emitPending_cases w with ⟨_, e⟩ | ⟨_, _, e⟩ | ⟨_, _, e⟩ <;> rw [e] at h <;> cases h
  exact ⟨rfl, rfl⟩

theorem flushPending_empty {w u : Writer} (hw : PendingClean w) (h : flushPending w = .done u) :
    u.pendingByte = 0#8 ∧ u.pendingBitCount = 0#3 := by
  unfold flushPending at h
  split at h
  · exact emitPending_empty h
  · next hc =>
    have hc : w.pendingBitCount = 0#3 := by simpa using hc
    cases h
    refine ⟨BitVec.eq_of_toNat_eq ?_, hc⟩
    have : w.pendingByte.toNat < 2 ^ w.pendingBitCount.toNat := hw
    simp only [hc] at this
    simpa using this

theorem andThenW_done {x : WriteRun} {k : Writer → WriteRun} {later : List WOp} {u : Writer}
    (h : andThenW x k later = .done u) : ∃ v, x = .done v ∧ k v = .done u := by
  cases x with
  | done v => exact ⟨v, rfl, h⟩
  | wait v rest => cases h
  | raise v => cases h

theorem putZeros_clean {n : Nat} {w u : Writer} (hw : PendingClean w) (h : putZeros n w = .done u) :
    PendingClean u := by
  induction n generalizing w with
  | zero => cases h; exact hw
  | succ n ih =>
    obtain ⟨v, hv, hk⟩ := andThenW_done h
    exact ih (putBit_clean hw hv) hk

theorem putBits_clean {v : Word} {n i : Nat} {w u : Writer} (hw : PendingClean w) (h : putBits v n i w = .done u) :
    PendingClean u := by
  induction n generalizing i w with
  | zero => cases h; exact hw
  | succ n ih =>
    obtain ⟨x, hx, hk⟩ := andThenW_done h
    exact ih (putBit_clean hw hx) hk

theorem runWOp_clean {op : WOp} {w u : Writer} (hw : PendingClean w) (h : runWOp op w = .done u) :
    PendingClean u := by
  cases op with
  | zeros n => exact putZeros_clean hw h
  | bits v i n => exact putBits_clean hw h
  | flush => exact clean_of_empty (flushPending_empty hw h).1
  | emit => exact clean_of_empty (emitPending_empty h).1
  | close =>
    change closeSink w = .done u at h
    rcases closeSink_cases w with ⟨_, e⟩ | ⟨_, _, e⟩ | ⟨_, _, e⟩ <;> rw [e] at h <;> cases h
    exact hw

/-- A finished body keeps the bits above the count zero (R34). -/
theorem runWOps_clean {ops : List WOp} {w u : Writer} (hw : PendingClean w) (h : runWOps ops w = .done u) :
    PendingClean u := by
  induction ops generalizing w with
  | nil => cases h; exact hw
  | cons op later ih =>
    obtain ⟨v, hv, hk⟩ := andThenW_done h
    exact ih (runWOp_clean hw hv) hk

/-! ### A wait (R315): every answer the transfer could have is used, and the transfer comes first -/

theorem emitPending_wait {w u : Writer} {rest : List WOp} (h : emitPending w = .wait u rest) :
    u = w ∧ w.sink = [] ∧ rest = [.emit] := by
  rcases emitPending_cases w with ⟨hs, e⟩ | ⟨_, _, e⟩ | ⟨_, _, e⟩ <;> rw [e] at h <;> cases h
  exact ⟨rfl, hs, rfl⟩

theorem putBit_wait {w u : Writer} {b : Bool} {rest : List WOp} (h : putBit b w = .wait u rest) :
    u.sink = [] ∧ rest = [.emit] := by
  by_cases hc : w.pendingBitCount = 7#3
  · rw [putBit_full b hc] at h
    obtain ⟨rfl, hs, hr⟩ := emitPending_wait h
    exact ⟨hs, hr⟩
  · rw [putBit_room b hc] at h
    cases h

theorem andThenW_wait {x : WriteRun} {k : Writer → WriteRun} {later : List WOp} {u : Writer} {rest : List WOp}
    (h : andThenW x k later = .wait u rest) :
    (∃ v, x = .done v ∧ k v = .wait u rest) ∨ ∃ front, x = .wait u front ∧ rest = front ++ later := by
  cases x with
  | done v => exact .inl ⟨v, rfl, h⟩
  | wait v front =>
    cases h
    exact .inr ⟨front, rfl, rfl⟩
  | raise v => cases h

theorem putZeros_wait {n : Nat} {w u : Writer} {rest : List WOp} (h : putZeros n w = .wait u rest) :
    u.sink = [] ∧ ∃ m, rest = [.emit, .zeros m] := by
  induction n generalizing w with
  | zero => cases h
  | succ n ih =>
    rcases andThenW_wait h with ⟨v, _, hk⟩ | ⟨front, hx, rfl⟩
    · exact ih hk
    · obtain ⟨hs, rfl⟩ := putBit_wait hx
      exact ⟨hs, n, rfl⟩

theorem putBits_wait {v : Word} {n i : Nat} {w u : Writer} {rest : List WOp}
    (h : putBits v n i w = .wait u rest) : u.sink = [] ∧ ∃ j m, rest = [.emit, .bits v j m] := by
  induction n generalizing i w with
  | zero => cases h
  | succ n ih =>
    rcases andThenW_wait h with ⟨x, _, hk⟩ | ⟨front, hx, rfl⟩
    · exact ih hk
    · obtain ⟨hs, rfl⟩ := putBit_wait hx
      exact ⟨hs, i + 1, n, rfl⟩

/-- A statement that waits leaves the transfer it waits for first; only a close waits for the close, with the
accumulator as it found it. -/
theorem runWOp_wait {op : WOp} {w u : Writer} {rest : List WOp} (h : runWOp op w = .wait u rest) :
    (op ≠ .close ∧ u.sink = [] ∧ ∃ later, rest = .emit :: later ∧ WOp.close ∉ later) ∨
      (op = .close ∧ u.closes = [] ∧ rest = [.close] ∧ u = w) := by
  cases op with
  | zeros n =>
    obtain ⟨hs, m, rfl⟩ := putZeros_wait h
    exact .inl ⟨by simp, hs, _, rfl, by simp⟩
  | bits v i n =>
    obtain ⟨hs, j, m, rfl⟩ := putBits_wait h
    exact .inl ⟨by simp, hs, _, rfl, by simp⟩
  | flush =>
    change flushPending w = .wait u rest at h
    unfold flushPending at h
    split at h
    · obtain ⟨rfl, hs, rfl⟩ := emitPending_wait h
      exact .inl ⟨by simp, hs, [], rfl, by simp⟩
    · cases h
  | emit =>
    obtain ⟨rfl, hs, rfl⟩ := emitPending_wait h
    exact .inl ⟨by simp, hs, [], rfl, by simp⟩
  | close =>
    change closeSink w = .wait u rest at h
    rcases closeSink_cases w with ⟨hs, e⟩ | ⟨_, _, e⟩ | ⟨_, _, e⟩ <;> rw [e] at h <;> cases h
    exact .inr ⟨rfl, hs, rfl, rfl⟩

/-- A body without a close waits at an emit, with no close after it. -/
theorem runWOps_wait {ops : List WOp} {w u : Writer} {rest : List WOp} (hops : WOp.close ∉ ops)
    (h : runWOps ops w = .wait u rest) : u.sink = [] ∧ ∃ later, rest = .emit :: later ∧ WOp.close ∉ later := by
  induction ops generalizing w with
  | nil => cases h
  | cons op later ih =>
    rw [List.mem_cons, not_or] at hops
    rcases andThenW_wait h with ⟨v, _, hk⟩ | ⟨front, hx, rfl⟩
    · exact ih hops.2 hk
    · rcases runWOp_wait hx with ⟨_, hs, tl, rfl, htl⟩ | ⟨hc, _⟩
      · exact ⟨hs, tl ++ later, rfl, by simp [htl, hops.2]⟩
      · exact absurd hc.symm hops.1

/-! ### Only a close changes the state (R140, R152) -/

theorem emitPending_state (w : Writer) : (reached (emitPending w)).state = w.state := by
  rcases emitPending_cases w with ⟨_, e⟩ | ⟨_, _, e⟩ | ⟨_, _, e⟩ <;> rw [e] <;> rfl

theorem putBit_state (b : Bool) (w : Writer) : (reached (putBit b w)).state = w.state := by
  by_cases h : w.pendingBitCount = 7#3
  · rw [putBit_full b h]; exact emitPending_state _
  · rw [putBit_room b h]; rfl

theorem andThenW_state {w : Writer} {x : WriteRun} {k : Writer → WriteRun} (later : List WOp)
    (hx : (reached x).state = w.state) (hk : ∀ u, x = .done u → (reached (k u)).state = u.state) :
    (reached (andThenW x k later)).state = w.state := by
  cases x with
  | done u => exact (hk u rfl).trans hx
  | wait u rest => exact hx
  | raise u => exact hx

theorem putZeros_state (n : Nat) (w : Writer) : (reached (putZeros n w)).state = w.state := by
  induction n generalizing w with
  | zero => rfl
  | succ n ih => exact andThenW_state _ (putBit_state false w) fun u _ => ih u

theorem putBits_state (v : Word) (n i : Nat) (w : Writer) : (reached (putBits v n i w)).state = w.state := by
  induction n generalizing i w with
  | zero => rfl
  | succ n ih => exact andThenW_state _ (putBit_state _ w) fun u _ => ih (i + 1) u

theorem runWOp_state {op : WOp} (h : op ≠ .close) (w : Writer) : (reached (runWOp op w)).state = w.state := by
  cases op with
  | zeros n => exact putZeros_state n w
  | bits v i n => exact putBits_state v n i w
  | flush =>
    change (reached (flushPending w)).state = w.state
    unfold flushPending
    split
    · exact emitPending_state w
    · rfl
  | emit => exact emitPending_state w
  | close => exact absurd rfl h

/-- A body without a close leaves the unit's state alone. -/
theorem runWOps_state {ops : List WOp} (h : WOp.close ∉ ops) (w : Writer) :
    (reached (runWOps ops w)).state = w.state := by
  induction ops generalizing w with
  | nil => rfl
  | cons op later ih =>
    rw [List.mem_cons, not_or] at h
    exact andThenW_state _ (runWOp_state (fun e => h.1 e.symm) w) fun u _ => ih h.2 u

/-! ### Commands as bodies -/

/-- The body of a writer command (R145 to R152). -/
def writerBody : Instr → List WOp
  | .wBit v => [.bits v 0 1]
  | .wZeroes v => [.zeros v.toNat]
  | .wUnary v => [.zeros v.toNat, .bits 1#32 0 1]
  | .wBinary v n => [.bits v 0 n]
  | .wByte v => [.bits v 0 8]
  | .wRice v k => [.zeros (riceQuotient v k), .bits 1#32 0 1, .bits (riceRemainder v k) 0 k]
  | .wFlush => [.flush]
  | .wClose => [.flush, .close]
  | _ => []

/-- The precondition of a command as the machine computes it (R264). -/
def precondition : Instr → Bool
  | .wBit v => legalBit v
  | .wZeroes v => nonNegative v
  | .wUnary v => nonNegative v
  | .wBinary _ n => legalWidth n
  | .wByte v => legalByte v
  | .wRice v k => legalParameter k && nonNegative v
  | .rBinary n => legalWidth n
  | .rRice k => legalParameter k
  | _ => true

/-- Every writer command is its precondition and body in the command cycle. -/
theorem exec_writer {i : Instr} (h : portOf i = .writer) (s : State) :
    exec i s = writerCommand i (precondition i) (writerBody i) s := by
  cases i <;> first | rfl | exact absurd h (by simp [portOf, opPort, opcode])

theorem nonNegative_iff (v : Word) : nonNegative v = true ↔ 0 ≤ v.toInt := by
  have hm : v.getLsbD 31 = v.msb := by simp [BitVec.msb_eq_getLsbD_last]
  simp only [nonNegative, hm, beq_iff_eq]
  cases hv : v.msb with
  | false => simp [BitVec.toInt_eq_msb_cond, hv]
  | true =>
    have hl := v.isLt
    simp only [BitVec.toInt_eq_msb_cond, hv, if_true]
    constructor
    · intro h; exact absurd h (by simp)
    · intro h; omega

/-- The machine's precondition is the operand range of R264. -/
theorem precondition_iff_legal (i : Instr) : precondition i = true ↔ legal i := by
  cases i <;>
    simp [precondition, legal, legalBit, legalByte, legalWidth, legalParameter, nonNegative_iff, Config.nbitsMax,
      Config.kMax]

end Sys2Proof.Machine
end

