-- ==== Sys2Proof/Laws/Reader.lean ====
section
/-! SUPPORT. What the reader's shared operations can do: what a run leaves alone, the positions it passes through,
where it waits and what it raises. -/

namespace Sys2Proof.Machine

open Sys2Proof.Safety

/-- What a reader run leaves alone: everything but currentByte, bitPosition, the source's answers (used from the
front) and the history (extended at its end), each answer used giving one event (R89, R91, R200). -/
structure ReaderRan (r r' : Reader) : Prop where
  fault : r'.fault = r.fault
  body : r'.body = r.body
  response : r'.response = r.response
  taken : r'.taken = r.taken
  draws : r'.draws = r.draws
  state : r'.state = r.state
  history : r.history <+: r'.history
  source : r'.source <:+ r.source
  moved : r'.history.length + r'.source.length = r.history.length + r.source.length

theorem ReaderRan.refl (r : Reader) : ReaderRan r r where
  fault := rfl
  body := rfl
  response := rfl
  taken := rfl
  draws := rfl
  state := rfl
  history := List.prefix_refl _
  source := List.suffix_refl _
  moved := rfl

theorem ReaderRan.trans {a b c : Reader} (h : ReaderRan a b) (k : ReaderRan b c) : ReaderRan a c where
  fault := k.fault.trans h.fault
  body := k.body.trans h.body
  response := k.response.trans h.response
  taken := k.taken.trans h.taken
  draws := k.draws.trans h.draws
  state := k.state.trans h.state
  history := h.history.trans k.history
  source := k.source.trans h.source
  moved := k.moved.trans h.moved

/-- A change of currentByte and bitPosition alone. -/
theorem readerRan_accumulator (r : Reader) (b : Byte) (p : BitVec 4) :
    ReaderRan r { r with currentByte := b, bitPosition := p } where
  fault := rfl
  body := rfl
  response := rfl
  taken := rfl
  draws := rfl
  state := rfl
  history := List.prefix_refl _
  source := List.suffix_refl _
  moved := rfl

/-- One answer used, its event recorded. -/
theorem readerRan_fetch {r : Reader} {pins : SourcePins} {later : List SourcePins} (e : REvent)
    (h : r.source = pins :: later) : ReaderRan r { r with source := later, history := r.history ++ [e] } where
  fault := rfl
  body := rfl
  response := rfl
  taken := rfl
  draws := rfl
  state := rfl
  history := List.prefix_append _ _
  source := by simp [h]
  moved := by simp [h]; omega

/-- Where a run of part of a reader body is, if it has not left the legal positions. -/
def readerAt {α β : Type} : ReadRun α β → Option Reader
  | .done _ r => some r
  | .wait _ r => some r
  | .raise _ r => some r
  | .stuck => none

/-- GetBit (R201), case by case: a bit in hand, no answer yet, ERR, EOD, or a fetched byte whose bit 0 is returned. -/
theorem getBit_cases (r : Reader) (hp : r.bitPosition.toNat ≤ 8) :
    (r.bitPosition.toNat < 8 ∧
        getBit r =
          .done (r.currentByte.getLsbD r.bitPosition.toNat) { r with bitPosition := r.bitPosition + 1#4 }) ∨
      (r.bitPosition = 8#4 ∧ r.source = [] ∧ getBit r = .wait () r) ∨
      (r.bitPosition = 8#4 ∧ ∃ pins later, r.source = pins :: later ∧ sourceAnswer pins = .err ∧
        getBit r = .raise .ioFailure { r with source := later, history := r.history ++ [.fetch .err] }) ∨
      (r.bitPosition = 8#4 ∧ ∃ pins later, r.source = pins :: later ∧ sourceAnswer pins = .eod ∧
        getBit r = .raise .endOfStream { r with source := later, history := r.history ++ [.fetch .eod] }) ∨
      (r.bitPosition = 8#4 ∧ ∃ pins later b, r.source = pins :: later ∧ sourceAnswer pins = .byte b ∧
        getBit r =
          .done (b.getLsbD 0)
            { r with
              source := later
              history := r.history ++ [.fetch (.byte b)]
              currentByte := b
              bitPosition := 1#4 }) := by
  by_cases h8 : r.bitPosition = 8#4
  · refine .inr ?_
    cases hs : r.source with
    | nil => exact .inl ⟨h8, rfl, by simp [getBit, h8, sourceRead, hs]⟩
    | cons pins later =>
      refine .inr ?_
      cases ha : sourceAnswer pins with
      | err => exact .inl ⟨h8, pins, later, rfl, ha, by simp [getBit, h8, sourceRead, hs, ha]⟩
      | eod => exact .inr (.inl ⟨h8, pins, later, rfl, ha, by simp [getBit, h8, sourceRead, hs, ha]⟩)
      | byte b =>
        exact .inr (.inr ⟨h8, pins, later, b, rfl, ha, by simp [getBit, h8, sourceRead, hs, ha, nextBit]⟩)
  · have hlt : r.bitPosition.toNat < 8 := by
      have : r.bitPosition.toNat ≠ 8 := fun h => h8 (BitVec.eq_of_toNat_eq h)
      omega
    exact .inl ⟨hlt, by simp [getBit, h8, nextBit, hlt]⟩

/-- GetBit leaves the other fields alone. -/
theorem getBit_ran {r r' : Reader} (h : readerAt (getBit r) = some r') : ReaderRan r r' := by
  by_cases hp : r.bitPosition.toNat ≤ 8
  · rcases getBit_cases r hp with ⟨_, e⟩ | ⟨_, _, e⟩ | ⟨_, pins, later, hs, _, e⟩ | ⟨_, pins, later, hs, _, e⟩ |
        ⟨_, pins, later, b, hs, _, e⟩ <;> rw [e] at h <;> cases h
    · exact readerRan_accumulator r _ _
    · exact ReaderRan.refl r
    · exact readerRan_fetch _ hs
    · exact readerRan_fetch _ hs
    · exact (readerRan_fetch _ hs).trans (readerRan_accumulator _ b 1#4)
  · have h8 : r.bitPosition ≠ 8#4 := fun e => hp (by simp [e])
    simp [getBit, h8, nextBit, show ¬ r.bitPosition.toNat < 8 by omega, readerAt] at h

/-- A bit read leaves a position of 1 to 8 (R41). -/
theorem getBit_position {r r' : Reader} {b : Bool} (h : getBit r = .done b r') :
    1 ≤ r'.bitPosition.toNat ∧ r'.bitPosition.toNat ≤ 8 := by
  by_cases hp : r.bitPosition.toNat ≤ 8
  · rcases getBit_cases r hp with ⟨hlt, e⟩ | ⟨_, _, e⟩ | ⟨_, _, _, _, _, e⟩ | ⟨_, _, _, _, _, e⟩ |
        ⟨_, _, _, _, _, _, e⟩ <;> rw [e] at h <;> cases h
    · have : (r.bitPosition + 1#4).toNat = r.bitPosition.toNat + 1 := by
        rw [BitVec.toNat_add]; simp; omega
      simp only [this]; omega
    · simp
  · have h8 : r.bitPosition ≠ 8#4 := fun e => hp (by simp [e])
    simp [getBit, h8, nextBit, show ¬ r.bitPosition.toNat < 8 by omega] at h

/-- From a legal position GetBit does not leave the legal positions. -/
theorem getBit_not_stuck {r : Reader} (hp : r.bitPosition.toNat ≤ 8) : getBit r ≠ .stuck := by
  rcases getBit_cases r hp with ⟨_, e⟩ | ⟨_, _, e⟩ | ⟨_, _, _, _, _, e⟩ | ⟨_, _, _, _, _, e⟩ |
      ⟨_, _, _, _, _, _, e⟩ <;> rw [e] <;> simp

/-- GetBit waits only at position 8 with every answer used, and changes nothing (R81, R315). -/
theorem getBit_wait {r r' : Reader} {p : Unit} (h : getBit r = .wait p r') :
    r' = r ∧ r.bitPosition = 8#4 ∧ r.source = [] := by
  by_cases hp : r.bitPosition.toNat ≤ 8
  · rcases getBit_cases r hp with ⟨_, e⟩ | ⟨h8, hs, e⟩ | ⟨_, _, _, _, _, e⟩ | ⟨_, _, _, _, _, e⟩ |
        ⟨_, _, _, _, _, _, e⟩ <;> rw [e] at h <;> cases h
    exact ⟨rfl, h8, hs⟩
  · have h8 : r.bitPosition ≠ 8#4 := fun e => hp (by simp [e])
    simp [getBit, h8, nextBit, show ¬ r.bitPosition.toNat < 8 by omega] at h

section Chaining

variable {α β γ δ : Type} {x : ReadRun α β} {k : α → Reader → ReadRun γ δ} {f : β → δ}

theorem andThenR_ran {r r' : Reader} (hx : ∀ u, readerAt x = some u → ReaderRan r u)
    (hk : ∀ a u, x = .done a u → ∀ v, readerAt (k a u) = some v → ReaderRan u v)
    (h : readerAt (andThenR x k f) = some r') : ReaderRan r r' := by
  cases x with
  | done a u => exact (hx u rfl).trans (hk a u rfl r' h)
  | wait p u => exact hx r' h
  | raise e u => exact hx r' h
  | stuck => cases h

theorem andThenR_done {c : γ} {r' : Reader} (h : andThenR x k f = .done c r') :
    ∃ a u, x = .done a u ∧ k a u = .done c r' := by
  cases x with
  | done a u => exact ⟨a, u, rfl, h⟩
  | wait p u => cases h
  | raise e u => cases h
  | stuck => cases h

theorem andThenR_wait {d : δ} {r' : Reader} (h : andThenR x k f = .wait d r') :
    (∃ a u, x = .done a u ∧ k a u = .wait d r') ∨ ∃ p, x = .wait p r' ∧ d = f p := by
  cases x with
  | done a u => exact .inl ⟨a, u, rfl, h⟩
  | wait p u =>
    cases h
    exact .inr ⟨p, rfl, rfl⟩
  | raise e u => cases h
  | stuck => cases h

theorem andThenR_not_stuck (hx : x ≠ .stuck) (hk : ∀ a u, x = .done a u → k a u ≠ .stuck) :
    andThenR x k f ≠ .stuck := by
  cases x with
  | done a u => exact hk a u rfl
  | wait p u => simp [andThenR]
  | raise e u => simp [andThenR]
  | stuck => exact absurd rfl hx

end Chaining

theorem readBits_ran {n i : Nat} {v : Word} {r r' : Reader} (h : readerAt (readBits n i v r) = some r') :
    ReaderRan r r' := by
  induction n generalizing i v r r' with
  | zero => cases h; exact ReaderRan.refl _
  | succ n ih => exact andThenR_ran (fun _ => getBit_ran) (fun _ _ _ _ hv => ih hv) h

/-- A field read of at least one bit ends at a position of 1 to 8; one of no bits leaves the reader as it was. -/
theorem readBits_position {n i : Nat} {v a : Word} {r r' : Reader} (h : readBits n i v r = .done a r')
    (hp : 1 ≤ r.bitPosition.toNat ∧ r.bitPosition.toNat ≤ 8) :
    1 ≤ r'.bitPosition.toNat ∧ r'.bitPosition.toNat ≤ 8 := by
  induction n generalizing i v r with
  | zero => cases h; exact hp
  | succ n ih =>
    obtain ⟨b, u, hu, hk⟩ := andThenR_done h
    exact ih hk (getBit_position hu)

theorem readBits_not_stuck {n i : Nat} {v : Word} {r : Reader} (hp : r.bitPosition.toNat ≤ 8) :
    readBits n i v r ≠ .stuck := by
  induction n generalizing i v r with
  | zero => simp [readBits]
  | succ n ih => exact andThenR_not_stuck (getBit_not_stuck hp) fun _ _ hu => ih (getBit_position hu).2

theorem withBit_lt {v : Word} {i : Nat} (b : Bool) (h : v.toNat < 2 ^ i) (hi : i < 32) :
    (withBit v i b).toNat < 2 ^ (i + 1) := by
  have hv : v.toNat < 2 ^ (i + 1) := lt_trans h (Nat.pow_lt_pow_right (by omega) (by omega))
  cases b with
  | false => simpa [withBit] using hv
  | true =>
    simp only [withBit, if_true, BitVec.toNat_or]
    refine Nat.or_lt_two_pow hv ?_
    rw [BitVec.toNat_twoPow, Nat.mod_eq_of_lt (Nat.pow_lt_pow_right (by omega) hi)]
    exact Nat.pow_lt_pow_right (by omega) (by omega)

/-- A field read waits at position 8 with every answer used, at an index still inside the field, its partial result
below the next bit's weight (R48). -/
theorem readBits_wait {n i : Nat} {v : Word} {r r' : Reader} {p : Nat × Word} (h : readBits n i v r = .wait p r')
    (hv : v.toNat < 2 ^ i) (hn : i + n ≤ 32) :
    r'.bitPosition = 8#4 ∧ r'.source = [] ∧ i ≤ p.1 ∧ p.1 < i + n ∧ p.2.toNat < 2 ^ p.1 := by
  induction n generalizing i v r with
  | zero => cases h
  | succ n ih =>
    rcases andThenR_wait h with ⟨b, u, _, hk⟩ | ⟨q, hq, rfl⟩
    · obtain ⟨h8, hs, hlo, hhi, hp⟩ := ih hk (withBit_lt b hv (by omega)) (by omega)
      exact ⟨h8, hs, by omega, by omega, hp⟩
    · obtain ⟨rfl, h8, hs⟩ := getBit_wait hq
      exact ⟨h8, hs, le_refl _, by simp, hv⟩

theorem scanUnary_ran {fuel c : Nat} {r r' : Reader} (h : readerAt (scanUnary fuel c r) = some r') :
    ReaderRan r r' := by
  induction fuel generalizing c r r' with
  | zero => cases h; exact ReaderRan.refl _
  | succ fuel ih =>
    refine andThenR_ran (fun _ => getBit_ran) (fun b u _ v hv => ?_) h
    cases b with
    | true => cases hv; exact ReaderRan.refl u
    | false => exact ih hv

/-- A finished scan has counted less than its bound and ends at a position of 1 to 8 (R203). -/
theorem scanUnary_done {fuel c q : Nat} {r r' : Reader} (h : scanUnary fuel c r = .done q r') :
    c ≤ q ∧ q < c + fuel ∧ 1 ≤ r'.bitPosition.toNat ∧ r'.bitPosition.toNat ≤ 8 := by
  induction fuel generalizing c r with
  | zero => cases h
  | succ fuel ih =>
    obtain ⟨b, u, hu, hk⟩ := andThenR_done h
    cases b with
    | true =>
      cases hk
      exact ⟨le_refl _, by omega, getBit_position hu⟩
    | false =>
      obtain ⟨h1, h2, h3⟩ := ih hk
      exact ⟨by omega, by omega, h3⟩

theorem scanUnary_not_stuck {fuel c : Nat} {r : Reader} (hp : r.bitPosition.toNat ≤ 8) :
    scanUnary fuel c r ≠ .stuck := by
  induction fuel generalizing c r with
  | zero => simp [scanUnary]
  | succ fuel ih =>
    refine andThenR_not_stuck (getBit_not_stuck hp) fun b u hu => ?_
    cases b with
    | true => simp
    | false => exact ih (getBit_position hu).2

/-- A scan waits at position 8 with every answer used, its count below the bound. -/
theorem scanUnary_wait {fuel c d : Nat} {r r' : Reader} (h : scanUnary fuel c r = .wait d r') :
    r'.bitPosition = 8#4 ∧ r'.source = [] ∧ c ≤ d ∧ d < c + fuel := by
  induction fuel generalizing c r with
  | zero => cases h
  | succ fuel ih =>
    rcases andThenR_wait h with ⟨b, u, _, hk⟩ | ⟨p, hp, rfl⟩
    · cases b with
      | true => cases hk
      | false =>
        obtain ⟨h8, hs, hlo, hhi⟩ := ih hk
        exact ⟨h8, hs, by omega, by omega⟩
    · obtain ⟨rfl, h8, hs⟩ := getBit_wait hp
      exact ⟨h8, hs, le_refl _, by omega⟩

theorem riceValue_ran {k q : Nat} {v : Word} {r r' : Reader} (h : readerAt (riceValue k q v r) = some r') :
    r' = r := by
  unfold riceValue at h
  split at h <;> cases h <;> rfl

theorem readRemainder_ran {k q i : Nat} {v : Word} {r r' : Reader}
    (h : readerAt (readRemainder k q i v r) = some r') : ReaderRan r r' :=
  andThenR_ran (fun _ => readBits_ran) (fun _ u _ _ hv => riceValue_ran hv ▸ ReaderRan.refl u) h

/-- What running a reader body leaves alone. -/
theorem runRest_ran {rest : RRest} {r r' : Reader} (h : readerAt (runRest rest r) = some r') : ReaderRan r r' := by
  cases rest with
  | field n i v => exact andThenR_ran (fun _ => readBits_ran) (fun _ u _ _ hv => by cases hv; exact ReaderRan.refl u) h
  | unary c => exact andThenR_ran (fun _ => scanUnary_ran) (fun _ u _ _ hv => by cases hv; exact ReaderRan.refl u) h
  | riceQuotient k c => exact andThenR_ran (fun _ => scanUnary_ran) (fun _ _ _ _ hv => readRemainder_ran hv) h
  | riceRemainder k q i v => exact readRemainder_ran h
  | align => cases h; exact readerRan_accumulator r _ _

theorem readRemainder_not_stuck {k q i : Nat} {v : Word} {r : Reader} (hp : r.bitPosition.toNat ≤ 8) :
    readRemainder k q i v r ≠ .stuck := by
  refine andThenR_not_stuck (readBits_not_stuck hp) fun _ _ _ => ?_
  unfold riceValue
  split <;> simp

/-- From a legal position no reader body leaves the legal positions: the fault of log 11 is out of reach. -/
theorem runRest_not_stuck {rest : RRest} {r : Reader} (hp : r.bitPosition.toNat ≤ 8) : runRest rest r ≠ .stuck := by
  cases rest with
  | field n i v => exact andThenR_not_stuck (readBits_not_stuck hp) fun _ _ _ => by simp
  | unary c => exact andThenR_not_stuck (scanUnary_not_stuck hp) fun _ _ _ => by simp
  | riceQuotient k c =>
    exact andThenR_not_stuck (scanUnary_not_stuck hp) fun _ _ hu => readRemainder_not_stuck (scanUnary_done hu).2.2.2
  | riceRemainder k q i v => exact readRemainder_not_stuck hp
  | align => simp [runRest]

/-! ### Commands as bodies -/

/-- The body of a reader command (R205 to R211). -/
def readerBody : Instr → RRest
  | .rBit => .field 1 0 0#32
  | .rUnary => .unary 0
  | .rBinary n => .field n 0 0#32
  | .rRice k => .riceQuotient k 0
  | .rByte => .field 8 0 0#32
  | _ => .align

/-- Every reader command is its precondition and body in the command cycle. -/
theorem exec_reader {i : Instr} (h : portOf i = .reader) (s : State) :
    exec i s = readerCommand i (precondition i) (readerBody i) s := by
  cases i <;> first | rfl | exact absurd h (by simp [portOf, opPort, opcode])

/-- A command belongs to one of the two ports. -/
theorem portOf_cases (i : Instr) : portOf i = .writer ∨ portOf i = .reader := by
  cases portOf i <;> simp

/-- The command cycle of the writer (R268): the port not ready, the two refusals, or the body's run. -/
theorem writerCommand_cases (cmd : Instr) (pre : Bool) (body : List WOp) (s : State) :
    (writerCmdReady s.writer = false ∧ writerCommand cmd pre body s = .next s) ∨
      (writerCmdReady s.writer = true ∧ s.writer.state ≠ .ready ∧
        writerCommand cmd pre body s = .next { s with writer := failWriter .stateError s.writer }) ∨
      (writerCmdReady s.writer = true ∧ s.writer.state = .ready ∧ pre = false ∧
        writerCommand cmd pre body s = .next { s with writer := failWriter .precondition s.writer }) ∨
      (writerCmdReady s.writer = true ∧ s.writer.state = .ready ∧ pre = true ∧
        writerCommand cmd pre body s =
          .next { s with writer := settleWriter cmd (runWOps body { s.writer with state := .busy }) }) := by
  cases hr : writerCmdReady s.writer with
  | false => exact .inl ⟨rfl, by simp [writerCommand, cmdReady, hr]⟩
  | true =>
    by_cases hs : s.writer.state = .ready
    · cases pre with
      | false => exact .inr (.inr (.inl ⟨rfl, hs, rfl, by simp [writerCommand, cmdReady, hr, cycleWriter, hs]⟩))
      | true => exact .inr (.inr (.inr ⟨rfl, hs, rfl, by simp [writerCommand, cmdReady, hr, cycleWriter, hs]⟩))
    · exact .inr (.inl ⟨rfl, hs, by simp [writerCommand, cmdReady, hr, cycleWriter, hs]⟩)

/-- The command cycle of the reader (R268). -/
theorem readerCommand_cases (cmd : Instr) (pre : Bool) (body : RRest) (s : State) :
    (readerCmdReady s.reader = false ∧ readerCommand cmd pre body s = .next s) ∨
      (readerCmdReady s.reader = true ∧ runsReader cmd s.reader.state = false ∧
        readerCommand cmd pre body s = .next { s with reader := failReader .stateError s.reader }) ∨
      (readerCmdReady s.reader = true ∧ runsReader cmd s.reader.state = true ∧ pre = false ∧
        readerCommand cmd pre body s = .next { s with reader := failReader .precondition s.reader }) ∨
      (readerCmdReady s.reader = true ∧ runsReader cmd s.reader.state = true ∧ pre = true ∧
        readerCommand cmd pre body s =
          withReader s (settleReader cmd (runRest body { s.reader with state := .busy }))) := by
  cases hr : readerCmdReady s.reader with
  | false => exact .inl ⟨rfl, by simp [readerCommand, cmdReady, hr]⟩
  | true =>
    cases hs : runsReader cmd s.reader.state with
    | false =>
      exact .inr (.inl ⟨rfl, rfl, by simp [readerCommand, cmdReady, hr, cycleReader, hs, withReader]⟩)
    | true =>
      cases pre with
      | false =>
        exact .inr (.inr (.inl ⟨rfl, rfl, rfl, by simp [readerCommand, cmdReady, hr, cycleReader, hs, withReader]⟩))
      | true =>
        exact .inr (.inr (.inr ⟨rfl, rfl, rfl, by simp [readerCommand, cmdReady, hr, cycleReader, hs]⟩))

end Sys2Proof.Machine
end

