-- ==== Sys2Proof/Tests/Slice0.lean ====
section
/-! SUPPORT. The model's own tests: ill-formed terms, words written out from 30_encoding.md R101 and R103, vectors of
95_test_vectors.md (each cited), and a witness for the hypotheses of each statement. -/

namespace Sys2Proof.Tests

open Sys2Proof.Machine Sys2Proof.Safety

/-! ### Well-formedness -/

theorem test_wellFormed_refuses_wide_wBinary : wellFormed (.wBinary 5#32 64) = false := by decide
theorem test_wellFormed_refuses_wide_wRice : wellFormed (.wRice 5#32 64) = false := by decide
theorem test_wellFormed_refuses_wide_rBinary : wellFormed (.rBinary 64) = false := by decide
theorem test_wellFormed_refuses_wide_rRice : wellFormed (.rRice 64) = false := by decide
theorem test_wellFormed_admits_every_field_value : wellFormed (.wBinary 5#32 63) = true := by decide

/-! ### Decoding: OP[47:44] N[43:38] RSV[37:32] V[31:0] written out -/

/-- OP 0000, V = 1. -/
theorem test_decode_wBit :
    (decode .writer 0b000000000000000000000000000000000000000000000001#48).toOption = some (.wBit 1#32) := by decide
/-- OP 0001, V = 10 (2.2 row 2). -/
theorem test_decode_wZeroes :
    (decode .writer 0b000100000000000000000000000000000000000000001010#48).toOption = some (.wZeroes 10#32) := by
  decide
/-- OP 0010, V = 2 (2.3 row 3). -/
theorem test_decode_wUnary :
    (decode .writer 0b001000000000000000000000000000000000000000000010#48).toOption = some (.wUnary 2#32) := by decide
/-- OP 0011, N = 001001, V = 0x1F5 (2.4 row 2). -/
theorem test_decode_wBinary :
    (decode .writer 0b001100100100000000000000000000000000000111110101#48).toOption =
      some (.wBinary 0x1F5#32 9) := by decide
/-- OP 0100, V = 0xA5 (2.5 row 1). -/
theorem test_decode_wByte :
    (decode .writer 0b010000000000000000000000000000000000000010100101#48).toOption = some (.wByte 0xA5#32) := by
  decide
/-- OP 0101, N = 000100, V = 42 (2.6 row 1). -/
theorem test_decode_wRice :
    (decode .writer 0b010100010000000000000000000000000000000000101010#48).toOption = some (.wRice 42#32 4) := by
  decide
/-- OP 0110. -/
theorem test_decode_wFlush : (decode .writer 0x600000000000#48).toOption = some .wFlush := by decide
/-- OP 0111. -/
theorem test_decode_wClose : (decode .writer 0x700000000000#48).toOption = some .wClose := by decide
/-- OP 1000. -/
theorem test_decode_rBit : (decode .reader 0x800000000000#48).toOption = some .rBit := by decide
/-- OP 1001. -/
theorem test_decode_rUnary : (decode .reader 0x900000000000#48).toOption = some .rUnary := by decide
/-- OP 1010, N = 001100 (2.10 row 1). -/
theorem test_decode_rBinary :
    (decode .reader 0b101000110000000000000000000000000000000000000000#48).toOption = some (.rBinary 12) := by decide
/-- OP 1011, N = 011111 (2.10 row 12). -/
theorem test_decode_rRice :
    (decode .reader 0b101101111100000000000000000000000000000000000000#48).toOption = some (.rRice 31) := by decide
/-- OP 1100. -/
theorem test_decode_rByte : (decode .reader 0xC00000000000#48).toOption = some .rByte := by decide
/-- OP 1101. -/
theorem test_decode_rRealign : (decode .reader 0xD00000000000#48).toOption = some .rRealign := by decide
/-- OP 1110. -/
theorem test_decode_rReset : (decode .reader 0xE00000000000#48).toOption = some .rReset := by decide

/-- The causes of R265 by name: 2.8 rows 1 to 3, 2.1 row 7, 2.7 row 6. -/
theorem test_decode_rejects_by_name :
    decode .writer 0xF00000000000#48 = .error .reservedOp ∧
    decode .writer 0x800000000000#48 = .error .otherUnit ∧
    decode .reader 0x000000000000#48 = .error .otherUnit ∧
    decode .writer 0x000100000000#48 = .error .rsvNotZero ∧
    decode .writer 0x004000000001#48 = .error .nNotZero ∧
    decode .writer 0x600000000001#48 = .error .vNotZero := by
  refine ⟨?_, ?_, ?_, ?_, ?_, ?_⟩ <;> rfl

/-- The host's question about a table row: W_BINARY's match word is W_BINARY 0, 0. -/
theorem test_decodeTableWord : decodeTableWord 48 0x300000000000 = some (.wBinary 0#32 0) := by decide

/-! ### One step on a small state -/

/-- A READY writer holding (p, c), its sink about to give these answers. -/
def testWriter (p : Byte) (c : BitVec 3) (sink : List SinkAnswer) : State :=
  { State.reset with
    writer := { Writer.reset with pendingByte := p, pendingBitCount := c, sink := sink } }

/-- The same with answers to closes. -/
def testCloser (p : Byte) (c : BitVec 3) (sink closes : List SinkAnswer) : State :=
  { State.reset with
    writer := { Writer.reset with pendingByte := p, pendingBitCount := c, sink := sink, closes := closes } }

/-- A READY reader holding (b, p), its source about to give these answers. -/
def testReader (b : Byte) (p : BitVec 4) (source : List SourcePins) : State :=
  { State.reset with
    reader := { Reader.reset with currentByte := b, bitPosition := p, source := source } }

/-- What a step leaves, seen through `view`; `none` where the machine stops. -/
def after {α : Type} (view : State → α) (x : Host.Outcome State Fault Refusal) : Option α :=
  match x with
  | .next t => some (view t)
  | .fault _ => none
  | .refused _ => none

/-- The step that a word on its own port makes. -/
def run (w : Nat) (s : State) : Host.Outcome State Fault Refusal := step (s.withFetchWord 48 w)

/-- The accumulator, the bytes emitted, the unit's state. -/
def writerView (t : State) : Byte × BitVec 3 × List Byte × WState :=
  (t.writer.pendingByte, t.writer.pendingBitCount, outputStream t.writer.history, t.writer.state)

/-- The response, position, number of fetches and unit state. -/
def readerView (t : State) : Option Response × BitVec 4 × Nat × RState :=
  (t.reader.response, t.reader.bitPosition, t.reader.history.length, t.reader.state)

/-- 2.1 row 3. -/
theorem test_wBit_emits :
    after writerView (run 0x000000000001 (testWriter 0x43#8 7#3 [.accepted])) =
      some (0x00#8, 0#3, [0xC3#8], .ready) := by decide
/-- 2.1 row 6. -/
theorem test_wBit_refuses_two :
    after (fun t => (t.writer.response, t.writer.fault)) (run 0x000000000002 (testWriter 0x00#8 0#3 [])) =
      some (some ⟨.err .precondition, 0#32⟩, 0x02#8) := by decide
/-- 2.2 row 3. -/
theorem test_wZeroes_spans_bytes :
    after writerView (run 0x100000000011 (testWriter 0x7F#8 7#3 [.accepted, .accepted, .accepted])) =
      some (0x00#8, 0#3, [0x7F#8, 0x00#8, 0x00#8], .ready) := by decide
/-- 2.2 row 6. -/
theorem test_wZeroes_refuses_negative :
    after writerView (run 0x100080000000 (testWriter 0x01#8 1#3 [])) = some (0x01#8, 1#3, [], .ready) := by decide
/-- 2.3 row 3. -/
theorem test_wUnary_stays_in_byte :
    after writerView (run 0x200000000002 (testWriter 0x0F#8 4#3 [])) = some (0x4F#8, 7#3, [], .ready) := by decide
/-- 2.3 row 6. -/
theorem test_wUnary_completes_byte :
    after writerView (run 0x200000000001 (testWriter 0x3F#8 6#3 [.accepted])) =
      some (0x00#8, 0#3, [0xBF#8], .ready) := by decide
/-- 2.4 row 3. -/
theorem test_wBinary_full_width :
    after writerView
        (run 0x3800DEADBEEF (testWriter 0x01#8 1#3 [.accepted, .accepted, .accepted, .accepted])) =
      some (0x01#8, 1#3, [0xDF#8, 0x7D#8, 0x5B#8, 0xBD#8], .ready) := by decide
/-- 2.8 row 4: the second emit fails. -/
theorem test_wBinary_sink_failure :
    after (fun t => (t.writer.response, t.writer.state, t.writer.history, t.writer.fault))
        (run 0x340000001234 (testWriter 0x00#8 0#3 [.accepted, .failed])) =
      some (some ⟨.err .ioFailure, 0#32⟩, .broken, [.emit 0x34#8 .accepted, .emit 0x12#8 .failed], 0x01#8) := by
  decide
/-- 2.5 row 2. -/
theorem test_wByte_splits :
    after writerView (run 0x4000000000A5 (testWriter 0x1F#8 5#3 [.accepted])) =
      some (0x14#8, 5#3, [0xBF#8], .ready) := by decide
/-- 2.6 row 14. -/
theorem test_wRice_long_quotient :
    after writerView (run 0x508000000064 (testWriter 0x01#8 1#3 [.accepted, .accepted, .accepted])) =
      some (0x04#8, 5#3, [0x01#8, 0x00#8, 0x00#8], .ready) := by decide
/-- 2.6 row 13. -/
theorem test_wRice_largest_parameter :
    after writerView
        (run 0x57C000000005 (testWriter 0x00#8 0#3 [.accepted, .accepted, .accepted, .accepted])) =
      some (0x00#8, 0#3, [0x0B#8, 0x00#8, 0x00#8, 0x00#8], .ready) := by decide
/-- 2.7 row 1. -/
theorem test_wFlush_emits :
    after writerView (run 0x600000000000 (testWriter 0x54#8 7#3 [.accepted])) =
      some (0x00#8, 0#3, [0x54#8], .ready) := by decide
/-- 2.7 row 2. -/
theorem test_wFlush_aligned :
    after writerView (run 0x600000000000 (testWriter 0x00#8 0#3 [])) = some (0x00#8, 0#3, [], .ready) := by decide
/-- 2.7 row 3. -/
theorem test_wClose_flushes :
    after (fun t => (t.writer.history, t.writer.state))
        (run 0x700000000000 (testCloser 0x05#8 3#3 [.accepted] [.accepted])) =
      some ([.emit 0x05#8 .accepted, .close .accepted], .closed) := by decide
/-- 2.8 row 7: the close fails. -/
theorem test_wClose_failure :
    after (fun t => (t.writer.history, t.writer.state, t.writer.response))
        (run 0x700000000000 (testCloser 0x01#8 1#3 [.accepted] [.failed])) =
      some ([.emit 0x01#8 .accepted, .close .failed], .broken, some ⟨.err .ioFailure, 0#32⟩) := by decide
/-- 2.9 row 1. -/
theorem test_rBit_fetches :
    after readerView (run 0x800000000000 (testReader 0x00#8 8#4 [bytePins 0xA5#8])) =
      some (some ⟨.ok, 1#32⟩, 1#4, 1, .ready) := by decide
/-- 2.9 row 4: ERR, with EOD asserted too (R80). -/
theorem test_rBit_source_error :
    after (fun t => (t.reader.response, t.reader.state, t.reader.fault))
        (run 0x800000000000 (testReader 0x00#8 8#4 [⟨true, true, 0x00#8⟩])) =
      some (some ⟨.err .ioFailure, 0#32⟩, .dead, 0x01#8) := by decide
/-- 2.9 row 8. -/
theorem test_rUnary_spans_bytes :
    after readerView
        (run 0x900000000000 (testReader 0x00#8 8#4 [bytePins 0x00#8, bytePins 0x00#8, bytePins 0x10#8])) =
      some (some ⟨.ok, 20#32⟩, 5#4, 3, .ready) := by decide
/-- 2.9 row 9. -/
theorem test_rUnary_end_of_stream :
    after (fun t => (t.reader.response, t.reader.state, t.reader.history.length))
        (run 0x900000000000 (testReader 0x00#8 8#4 [bytePins 0x00#8, ⟨false, true, 0x00#8⟩])) =
      some (some ⟨.err .endOfStream, 0#32⟩, .broken, 2) := by decide
/-- 2.10 row 3. -/
theorem test_rBinary_full_width :
    after readerView
        (run 0xA80000000000
          (testReader 0x00#8 8#4 [bytePins 0xEF#8, bytePins 0xBE#8, bytePins 0xAD#8, bytePins 0xDE#8])) =
      some (some ⟨.ok, 0xDEADBEEF#32⟩, 8#4, 4, .ready) := by decide
/-- 2.10 row 8. -/
theorem test_rBinary_refuses_33 :
    after readerView (run 0xA84000000000 (testReader 0x00#8 8#4 [bytePins 0x01#8])) =
      some (some ⟨.err .precondition, 0#32⟩, 8#4, 0, .ready) := by decide
/-- 2.10 row 11. -/
theorem test_rRice_reads :
    after readerView (run 0xB0C000000000 (testReader 0x00#8 8#4 [bytePins 0x02#8])) =
      some (some ⟨.ok, 8#32⟩, 5#4, 1, .ready) := by decide
/-- 2.10 row 13. -/
theorem test_rRice_code_range :
    after (fun t => (t.reader.response, t.reader.state, t.reader.history.length))
        (run 0xB7C000000000
          (testReader 0x00#8 8#4
            [bytePins 0x02#8, bytePins 0x00#8, bytePins 0x00#8, bytePins 0x00#8, bytePins 0x00#8])) =
      some (some ⟨.err .codeRange, 0#32⟩, .broken, 5) := by decide
/-- 2.9 row 11. -/
theorem test_rByte_straddles :
    after readerView (run 0xC00000000000 (testReader 0xBF#8 5#4 [bytePins 0x14#8])) =
      some (some ⟨.ok, 0xA5#32⟩, 5#4, 1, .ready) := by decide
/-- 2.11 row 1. -/
theorem test_rRealign_discards :
    after readerView (run 0xD00000000000 (testReader 0xBF#8 3#4 [])) =
      some (some ⟨.ok, 0#32⟩, 8#4, 0, .ready) := by decide
/-- 2.11 row 4: from BROKEN. -/
theorem test_rReset_recovers :
    after readerView
        (run 0xE00000000000
          { testReader 0x00#8 0#4 [bytePins 0x01#8] with
            reader := { (testReader 0x00#8 0#4 [bytePins 0x01#8]).reader with state := .broken } }) =
      some (some ⟨.ok, 0#32⟩, 8#4, 0, .ready) := by decide
/-- 2.11 row 6: from DEAD. -/
theorem test_rReset_refused_when_dead :
    after readerView
        (run 0xE00000000000
          { testReader 0x00#8 0#4 [] with reader := { (testReader 0x00#8 0#4 []).reader with state := .dead } }) =
      some (some ⟨.err .stateError, 0#32⟩, 0#4, 0, .dead) := by decide

/-- P1, end state: W_STATUS = 0x0002 in CLOSED. -/
theorem test_wStatus_closed :
    wStatus { testWriter 0x00#8 0#3 [] with writer := { (testWriter 0x00#8 0#3 []).writer with state := .closed } } =
      0x0002#16 := by decide
/-- P4, end state: R_STATUS = 0x1820. -/
theorem test_rStatus_ready :
    rStatus { testReader 0x00#8 8#4 [] with reader := { (testReader 0x00#8 8#4 []).reader with fault := 0x18#8 } } =
      0x1820#16 := by decide
/-- The response word of R261 and R120: CODE 4, DATA 0. -/
theorem test_responseWord : responseWord (errorResponse .illegalCommand) = 0x400000000#36 := by decide
/-- R110 and 2.4 row 5: `W_BINARY -1, 4` with a comment. -/
theorem test_assemble_negative :
    (assemble [['W', '_', 'B', 'I', 'N', 'A', 'R', 'Y', ' ', '-', '1', ',', ' ', '4', ' ', ';', 'x'], []]).toOption =
      some [0x3100FFFFFFFF#48] := by decide
/-- R110 and 2.3 row 7, 2.6 row 15: `W_UNARY -1` and `W_RICE -1, 2` assemble, outside the legal range. -/
theorem test_assemble_illegal :
    (assemble
      [ ['W', '_', 'U', 'N', 'A', 'R', 'Y', ' ', '-', '1'],
        ['W', '_', 'R', 'I', 'C', 'E', ' ', '-', '1', ',', ' ', '2'] ]).toOption =
      some [0x2000FFFFFFFF#48, 0x5080FFFFFFFF#48] := by decide
/-- R110: v above 2^32−1 and n above 63 are assembly errors. -/
theorem test_assemble_refuses :
    (assembleLine ['W', '_', 'B', 'Y', 'T', 'E', ' ', '4', '2', '9', '4', '9', '6', '7', '2', '9', '6']).toOption =
      none ∧
    (assembleLine ['R', '_', 'R', 'I', 'C', 'E', ' ', '6', '4']).toOption = none := by decide

/-! ### Witnesses: states and operands that meet the hypotheses of each statement, one for each of its clauses -/

/-- The reset state about to see these inputs. -/
def testInputs (xs : List Input) : State := { State.reset with inputs := xs }

/-- A writer in this state, with nothing pending. -/
def testWriterIn (st : WState) : State :=
  { State.reset with writer := { Writer.reset with state := st } }

/-- A reader in this state. -/
def testReaderIn (st : RState) : State :=
  { State.reset with reader := { Reader.reset with state := st } }

/-- A writer that waits for its sink: W_BYTE 0xFF on an empty accumulator, no answer settled. -/
def testBusyWriter : State :=
  { State.reset with
    writer :=
      { Writer.reset with
        pendingByte := 0xFF#8
        pendingBitCount := 7#3
        state := .busy
        body := some ⟨.wByte 0xFF#32, [.emit, .bits 0xFF#32 8 0]⟩ } }

/-- A reader that waits for its source: R_BYTE with no bit in hand. -/
def testBusyReader : State :=
  { State.reset with
    reader := { Reader.reset with state := .busy, body := some ⟨.rByte, .field 8 0 0#32⟩ } }

theorem witness_HardwareResetRestoresBothUnits :
    ({ testBusyWriter with inputs := [.rst] } : State).inputs = .rst :: [] := rfl

/-- A BUSY unit of each kind reset, and each terminal state left by a reset. -/
theorem witness_ResetAbandonsTheCommandAndKeepsTheTransfers :
    (({ testBusyWriter with inputs := [.rst, .loop] } : State).inputs = .rst :: [.loop] ∧
      testBusyWriter.writer.state = .busy) ∧
    (({ testBusyReader with inputs := [.rst, .loop] } : State).inputs = .rst :: [.loop] ∧
      testBusyReader.reader.state = .busy) ∧
    (∀ st ∈ [WState.closed, .broken],
      ∃ t, step { testWriterIn st with inputs := [.rst] } = .next t ∧ t.writer.state ≠ st) ∧
    ∃ t, step { testReaderIn .dead with inputs := [.rst] } = .next t ∧ t.reader.state ≠ .dead := by
  refine ⟨⟨rfl, by decide⟩, ⟨rfl, by decide⟩, fun st hst => ?_, ⟨_, rfl, by decide⟩⟩
  fin_cases hst <;> exact ⟨_, rfl, by decide⟩

theorem witness_DecodeReadsBackEveryEncodedCommand : wellFormed (.wRice 0xFFFFFFFF#32 63) = true := by decide

theorem witness_EncodeRebuildsEveryDecodedWord : decode .reader 0xBFC000000000#48 = .ok (.rRice 63) := rfl

theorem witness_AnotherUnitsOpcodeIsIllegal :
    (0x800000000000#48).getLsbD 47 = true ∧ (0x7FFFFFFFFFFF#48).getLsbD 47 = false := by decide

/-- Each cause of R265, on each port. -/
theorem witness_IllegalCommandChangesOnlyFaultAndResponse :
    (∀ w ∈ [0xF00000000000#48, 0x800000000000#48, 0x002000000000#48, 0x004000000000#48, 0x600000000001#48],
      illegalWord .writer w ∧
      (testInputs [.command .writer w]).inputs = .command .writer w :: [] ∧
      cmdReady .writer (testInputs [.command .writer w]) = true) ∧
    (∀ w ∈ [0xF00000000000#48, 0x000000000000#48, 0x800100000000#48, 0xC04000000000#48, 0xA00000000001#48],
      illegalWord .reader w ∧
      (testInputs [.command .reader w]).inputs = .command .reader w :: [] ∧
      cmdReady .reader (testInputs [.command .reader w]) = true) := by
  simp [illegalWord, testInputs, cmdReady, writerCmdReady, readerCmdReady, State.reset, Writer.reset, Reader.reset]

theorem witness_StepRunsTheDecodedCommand :
    (testInputs [.command .writer 0x600000000000#48]).inputs = .command .writer 0x600000000000#48 :: [] ∧
    cmdReady .writer (testInputs [.command .writer 0x600000000000#48]) = true ∧
    decode .writer 0x600000000000#48 = .ok .wFlush := ⟨rfl, by decide, rfl⟩

/-- BUSY on either port, and a response not taken on either port. -/
theorem witness_NoCommandIsAcceptedBeforeTheResponseIsTaken :
    (testBusyWriter.writer.state = .busy ∧ testBusyReader.reader.state = .busy) ∧
    ∃ s : State, s.inputs = .command .writer 0#48 :: [] ∧ s.writer.response ≠ none ∧ s.reader.response ≠ none :=
  ⟨by decide,
    { testInputs [.command .writer 0#48] with
      writer := { Writer.reset with response := some ⟨.ok, 0#32⟩ }
      reader := { Reader.reset with response := some ⟨.ok, 0#32⟩ } },
    rfl, by simp, by simp⟩

theorem witness_TakingTheResponseFreesThePort :
    ∃ s : State, s.inputs = .take .writer :: [.take .reader] ∧ offered .writer s = some ⟨.ok, 0#32⟩ ∧
      offered .reader s = some ⟨.ok, 7#32⟩ ∧ s.writer.state ≠ .busy ∧ s.reader.state ≠ .busy :=
  ⟨{ testInputs [.take .writer, .take .reader] with
      writer := { Writer.reset with response := some ⟨.ok, 0#32⟩ }
      reader := { Reader.reset with response := some ⟨.ok, 7#32⟩ } },
    rfl, rfl, rfl, by decide, by decide⟩

/-- A word accepted, and an input that is no command. -/
theorem witness_EachAcceptedCommandIsAnsweredOnce :
    (∃ t, Inv (testInputs [.command .reader 0xC00000000000#48]) ∧
      cmdReady .reader (testInputs [.command .reader 0xC00000000000#48]) = true ∧
      step (testInputs [.command .reader 0xC00000000000#48]) = .next t) ∧
    ∃ t, Inv { testBusyWriter with inputs := [.sink ⟨true, false⟩] } ∧
      step { testBusyWriter with inputs := [.sink ⟨true, false⟩] } = .next t :=
  ⟨⟨_, by decide, by decide, rfl⟩, ⟨_, by decide, rfl⟩⟩

/-- Refusing states of both units, and states that run the command. -/
theorem witness_RefusingStatesAnswerStateError :
    (∀ st ∈ [WState.closed, .broken], ¬ writerRuns st ∧ cmdReady (portOf .wFlush) (testWriterIn st) = true) ∧
    (writerRuns .ready ∧ cmdReady (portOf .wFlush) State.reset = true) ∧
    (¬ readerRuns .broken .rRealign ∧ cmdReady (portOf .rRealign) (testReaderIn .broken) = true) ∧
    (¬ readerRuns .dead .rReset ∧ cmdReady (portOf .rReset) (testReaderIn .dead) = true) ∧
    (readerRuns .broken .rReset ∧ cmdReady (portOf .rReset) (testReaderIn .broken) = true) := by
  simp [writerRuns, readerRuns, cmdReady, portOf, opPort, opcode, testWriterIn, testReaderIn, writerCmdReady,
    readerCmdReady, State.reset, Writer.reset, Reader.reset]

/-- Each cause of R264 just outside its range, and the operands just inside. -/
theorem witness_IllegalOperandsAnswerPrecondition :
    (∀ i ∈ [Instr.wBit 2#32, .wZeroes 0x80000000#32, .wUnary 0x80000000#32, .wBinary 0#32 33, .wByte 256#32,
        .wRice 0x80000000#32 0, .wRice 0#32 32], ¬ legal i ∧ portOf i = .writer) ∧
    (∀ i ∈ [Instr.wBit 1#32, .wZeroes 0x7FFFFFFF#32, .wUnary 0x7FFFFFFF#32, .wBinary 0#32 32, .wByte 255#32,
        .wRice 0x7FFFFFFF#32 31], legal i ∧ portOf i = .writer) ∧
    (∀ i ∈ [Instr.rBinary 33, .rRice 32], ¬ legal i ∧ portOf i = .reader) ∧
    (∀ i ∈ [Instr.rBinary 32, .rRice 31], legal i ∧ portOf i = .reader) ∧
    cmdReady .writer State.reset = true ∧ State.reset.writer.state = .ready ∧
    cmdReady .reader State.reset = true ∧ State.reset.reader.state = .ready := by
  refine ⟨?_, ?_, ?_, ?_, by decide, rfl, by decide, rfl⟩ <;> simp [legal, portOf, opPort, opcode, BitVec.toInt]

/-- Both parts, with bytes emitted: W_RICE 100, 2 from (0x01, 1) and W_BINARY of 32 bits. -/
theorem witness_BitRunPacksLeastSignificantBitFirst :
    (placesBits (.wRice 100#32 2) = true ∧ legal (.wRice 100#32 2) ∧
      (testWriter 0x01#8 1#3 [.accepted, .accepted, .accepted, .failed]).writer.state = .ready ∧
      (testWriter 0x01#8 1#3 [.accepted, .accepted, .accepted, .failed]).writer.response = none ∧
      PendingClean (testWriter 0x01#8 1#3 [.accepted, .accepted, .accepted, .failed]).writer ∧
      (testWriter 0x01#8 1#3 [.accepted, .accepted, .accepted, .failed]).writer.sink =
        List.replicate
          ((pendingBits (testWriter 0x01#8 1#3 [.accepted, .accepted, .accepted, .failed]).writer ++
              placedBits (.wRice 100#32 2)).length / 8)
          SinkAnswer.accepted ++ [.failed]) ∧
    (32 ≤ 32 ∧ PendingClean (testWriter 0x01#8 1#3 [.accepted, .accepted, .accepted, .accepted]).writer ∧
      (testWriter 0x01#8 1#3 [.accepted, .accepted, .accepted, .accepted]).writer.sink =
        List.replicate ((1 + 32) / 8) SinkAnswer.accepted ++ []) := by
  refine ⟨⟨rfl, by simp [legal, BitVec.toInt], rfl, rfl, by decide, by decide⟩, by decide⟩

/-- A run that emits, and the run of no bits. -/
theorem witness_ZeroesEmitThePartialByteThenZeroBytes :
    (0 ≤ (10#32).toInt ∧ PendingClean (testWriter 0x03#8 2#3 [.accepted]).writer ∧ 1 = (2 + (10#32).toNat) / 8 ∧
      (testWriter 0x03#8 2#3 [.accepted]).writer.sink = List.replicate 1 SinkAnswer.accepted ++ []) ∧
    (0 ≤ (0#32).toInt ∧ PendingClean (testWriter 0x03#8 2#3 []).writer ∧ 0 = (2 + (0#32).toNat) / 8 ∧
      (testWriter 0x03#8 2#3 []).writer.sink = List.replicate 0 SinkAnswer.accepted ++ []) := by decide

theorem witness_ByteSplitsAcrossTheTwoBytes :
    (255#32).toNat ≤ 255 ∧ (testWriter 0x7F#8 7#3 [.accepted]).writer.state = .ready ∧
    (testWriter 0x7F#8 7#3 [.accepted]).writer.response = none ∧
    PendingClean (testWriter 0x7F#8 7#3 [.accepted]).writer ∧
    (testWriter 0x7F#8 7#3 [.accepted]).writer.sink = SinkAnswer.accepted :: [] := by decide

/-- The two commands that end, and the first that fails. -/
theorem witness_UnaryIsZeroesThenOne :
    (∃ t u, 0 ≤ (2#32).toInt ∧ exec (.wZeroes 2#32) (testWriter 0x0F#8 4#3 []) = .next t ∧
      t.writer.response = some ⟨.ok, 0#32⟩ ∧ exec (.wBit 1#32) (takeResponse .writer t) = .next u ∧
      u.writer.state ≠ .busy) ∧
    ∃ t, exec (.wZeroes 8#32) (testWriter 0x0F#8 4#3 [.failed]) = .next t ∧
      t.writer.response = some ⟨.err .ioFailure, 0#32⟩ :=
  ⟨⟨_, _, by decide, rfl, by decide, rfl, by decide⟩, ⟨_, rfl, by decide⟩⟩

theorem witness_ByteIsBinaryEight :
    ∃ t, (255#32).toNat ≤ 255 ∧ exec (.wByte 255#32) (testWriter 0x1F#8 5#3 [.accepted]) = .next t ∧
      t.writer.state ≠ .busy := ⟨_, by decide, rfl, by decide⟩

/-- Both endings: the quotient emitted without an error, and a failed emit in it. -/
theorem witness_RiceIsUnaryThenBinary :
    (∃ t u, 4 ≤ 31 ∧ 0 ≤ (42#32).toInt ∧ exec (.wUnary (42#32 >>> 4)) (testWriter 0x00#8 0#3 []) = .next t ∧
      t.writer.response = some ⟨.ok, 0#32⟩ ∧ exec (.wBinary 42#32 4) (takeResponse .writer t) = .next u ∧
      u.writer.state ≠ .busy) ∧
    ∃ t, exec (.wUnary (42#32 >>> 4)) (testWriter 0x00#8 7#3 [.failed]) = .next t ∧
      t.writer.response = some ⟨.err .ioFailure, 0#32⟩ :=
  ⟨⟨_, _, by decide, by decide, rfl, by decide, rfl, by decide⟩, _, rfl, rfl⟩

theorem witness_FlushEmitsThePartialByte :
    (testWriter 0x00#8 0#3 []).writer.pendingBitCount = 0#3 ∧
    (testWriter 0x54#8 7#3 [.accepted]).writer.pendingBitCount ≠ 0#3 ∧
    (testWriter 0x54#8 7#3 [.accepted]).writer.state = .ready ∧
    (testWriter 0x54#8 7#3 [.accepted]).writer.response = none ∧
    (testWriter 0x54#8 7#3 [.accepted]).writer.sink = .accepted :: [] := by decide

theorem witness_CloseFlushesAndClosesTheSink :
    (testCloser 0x00#8 0#3 [] [.accepted]).writer.pendingBitCount = 0#3 ∧
    (testCloser 0x00#8 0#3 [] [.accepted]).writer.closes = .accepted :: [] ∧
    (testCloser 0x05#8 3#3 [.accepted] [.accepted]).writer.pendingBitCount ≠ 0#3 ∧
    (testCloser 0x05#8 3#3 [.accepted] [.accepted]).writer.sink = .accepted :: [] ∧
    (testCloser 0x05#8 3#3 [.accepted] [.accepted]).writer.closes = .accepted :: [] := by decide

theorem witness_FailedEmitBreaksTheWriter :
    placesBits (.wBinary 0x1234#32 16) = true ∧ legal (.wBinary 0x1234#32 16) ∧
    PendingClean (testWriter 0x00#8 0#3 [.accepted, .failed]).writer ∧
    1 < (pendingBits (testWriter 0x00#8 0#3 [.accepted, .failed]).writer ++
      placedBits (.wBinary 0x1234#32 16)).length / 8 ∧
    (testWriter 0x00#8 0#3 [.accepted, .failed]).writer.sink =
      List.replicate 1 SinkAnswer.accepted ++ .failed :: [] :=
  ⟨rfl, by simp [legal], by decide, by decide, rfl⟩

theorem witness_FailedFlushOrCloseBreaksTheWriter :
    (testWriter 0x01#8 1#3 [.failed]).writer.pendingBitCount ≠ 0#3 ∧
    (testWriter 0x01#8 1#3 [.failed]).writer.sink = .failed :: [] ∧
    (testCloser 0x00#8 0#3 [] [.failed]).writer.pendingBitCount = 0#3 ∧
    (testCloser 0x00#8 0#3 [] [.failed]).writer.closes = .failed :: [] ∧
    (testCloser 0x01#8 1#3 [.accepted] [.failed]).writer.sink = .accepted :: [] ∧
    (testCloser 0x01#8 1#3 [.accepted] [.failed]).writer.closes = .failed :: [] := by decide

/-- One for each clause: a command that places bits, a flush and a close that wait at the pending byte, and a close
that waits at the close with nothing pending or after its flush. -/
theorem witness_WriterWaitsForTheSink :
    (placesBits (.wByte 0xFF#32) = true ∧ legal (.wByte 0xFF#32) ∧
      PendingClean (testWriter 0x00#8 0#3 []).writer ∧
      0 < (pendingBits (testWriter 0x00#8 0#3 []).writer ++ placedBits (.wByte 0xFF#32)).length / 8 ∧
      (testWriter 0x00#8 0#3 []).writer.sink = List.replicate 0 SinkAnswer.accepted) ∧
    ((testWriter 0x05#8 3#3 []).writer.state = .ready ∧ (testWriter 0x05#8 3#3 []).writer.response = none ∧
      (testWriter 0x05#8 3#3 []).writer.pendingBitCount ≠ 0#3 ∧ (testWriter 0x05#8 3#3 []).writer.sink = []) ∧
    ((testWriter 0x00#8 0#3 []).writer.pendingBitCount = 0#3 ∧ (testWriter 0x00#8 0#3 []).writer.sink = [] ∧
      (testWriter 0x00#8 0#3 []).writer.closes = []) ∧
    ((testWriter 0x05#8 3#3 [.accepted]).writer.pendingBitCount ≠ 0#3 ∧
      (testWriter 0x05#8 3#3 [.accepted]).writer.sink = .accepted :: [] ∧
      (testWriter 0x05#8 3#3 [.accepted]).writer.closes = []) :=
  ⟨⟨rfl, by simp [legal], by decide, by decide, rfl⟩, by decide, by decide, by decide⟩

/-- The run of the hypothesis really waits: it leaves the BUSY state of this file. -/
theorem witness_LateSinkAnswersGiveTheSameRun :
    portOf (.wByte 0xFF#32) = .writer ∧ cmdReady .writer State.reset = true ∧
    exec (.wByte 0xFF#32) State.reset = .next testBusyWriter := ⟨by decide, by decide, rfl⟩

/-- A writer that waits for the close: W_CLOSE on an empty accumulator, no answer settled. -/
def testClosingWriter : State :=
  { State.reset with writer := { Writer.reset with state := .busy, body := some ⟨.wClose, [.close]⟩ } }

/-- 20_memory.md R75, R77, R79: an edge of the sink port does not answer the close, and an edge of a port that asks for
nothing leaves nothing behind. -/
theorem test_close_has_its_own_handshake :
    exec .wClose State.reset = .next testClosingWriter ∧
    after (fun t => (t.writer, t.reader))
      (step { testClosingWriter with inputs := [.sink ⟨true, false⟩] }) =
      some (testClosingWriter.writer, testClosingWriter.reader) ∧
    after (fun t => (t.writer, t.reader))
      (step { State.reset with inputs := [.source true (bytePins 0xA5#8)] }) = some (Writer.reset, Reader.reset) ∧
    after (fun t => (t.writer.state, t.writer.history))
      (step { testClosingWriter with inputs := [.close ⟨true, false⟩] }) = some (.closed, [.close .accepted]) :=
  ⟨rfl, by decide, by decide, by decide⟩

/-- Both kinds of wait, and rounds of edges one of which has both ready. -/
theorem witness_BusyWriterEndsWhenTheSinkAnswers :
    Inv testBusyWriter ∧ testBusyWriter.writer.state = .busy ∧
    Inv testClosingWriter ∧ testClosingWriter.writer.state = .busy ∧
    1 ≤ ([((⟨false, true⟩, ⟨true, false⟩) : SinkPins × SinkPins), (⟨true, false⟩, ⟨true, true⟩)].filter
      fun x => x.1.ready && x.2.ready).length :=
  ⟨by decide, rfl, by decide, rfl, by decide⟩

theorem witness_WriterCommandFrame :
    ∃ t, portOf (.wByte 0xA5#32) = .writer ∧
      exec (.wByte 0xA5#32) (testWriter 0x1F#8 5#3 [.accepted]) = .next t := ⟨_, by decide, rfl⟩

/-- The three commands, the longest field with bits in hand. -/
theorem witness_FieldReadsReturnTheNextBits :
    ([bytePins 0x7D#8].length = fetchCount 8 1 ∧
      (testReader 0x00#8 8#4 [bytePins 0x7D#8]).reader.source = [0x7D#8].map bytePins ++ []) ∧
    (32 ≤ 32 ∧ [0x7D#8, 0x5B#8, 0xBD#8, 0x01#8].length = fetchCount 1 32 ∧
      (testReader 0xDF#8 1#4 ([0x7D#8, 0x5B#8, 0xBD#8, 0x01#8].map bytePins)).reader.source =
        [0x7D#8, 0x5B#8, 0xBD#8, 0x01#8].map bytePins ++ []) ∧
    ([0x14#8].length = fetchCount 5 8 ∧ (testReader 0xBF#8 5#4 []).reader.state = .ready ∧
      (testReader 0xBF#8 5#4 []).reader.response = none ∧ (testReader 0xBF#8 5#4 []).reader.bitPosition.toNat ≤ 8) :=
  by decide

theorem witness_UnaryReadCountsTheZeros :
    8 ≤ 2147483647 ∧ [0x80#8].length = fetchCount 7 (8 + 1) ∧
    (upcomingBits (testReader 0x00#8 7#4 [bytePins 0x80#8]).reader [0x80#8]).take (8 + 1) = unaryBits 8 ∧
    (testReader 0x00#8 7#4 [bytePins 0x80#8]).reader.source = [0x80#8].map bytePins ++ [] := by decide

/-- 2.10 row 9 and the largest value: q = 0, k = 31, every remainder bit 1. -/
theorem witness_RiceReadReturnsQuotientAndRemainder :
    (4 ≤ 31 ∧ 2 * 2 ^ 4 + bitsValue [false, true, false, true] ≤ 2147483647 ∧
      [0x54#8].length = fetchCount 8 (2 + 1 + 4) ∧
      (upcomingBits (testReader 0x00#8 8#4 [bytePins 0x54#8]).reader [0x54#8]).take (2 + 1 + 4) =
        unaryBits 2 ++ [false, true, false, true] ∧
      (testReader 0x00#8 8#4 [bytePins 0x54#8]).reader.source = [0x54#8].map bytePins ++ []) ∧
    (0 * 2 ^ 31 + bitsValue (List.replicate 31 true) ≤ 2147483647 ∧
      (upcomingBits Reader.reset [0xFF#8, 0xFF#8, 0xFF#8, 0xFF#8]).take (0 + 1 + 31) =
        unaryBits 0 ++ List.replicate 31 true) := by decide

/-- 2.10 row 13: the least value above the range. -/
theorem witness_RiceAboveTheRangeRaisesCodeRange :
    31 ≤ 31 ∧ 1 ≤ 2147483647 ∧ 2147483647 < 1 * 2 ^ 31 + bitsValue (List.replicate 31 false) ∧
    (List.replicate 31 false).length = 31 ∧
    [0x02#8, 0x00#8, 0x00#8, 0x00#8, 0x00#8].length = fetchCount 8 (1 + 1 + 31) ∧
    (upcomingBits Reader.reset [0x02#8, 0x00#8, 0x00#8, 0x00#8, 0x00#8]).take (1 + 1 + 31) =
      unaryBits 1 ++ List.replicate 31 false := by decide

/-- The bits of zero bytes are zero bits. -/
theorem zeroBytes_bits (n : Nat) : (List.replicate n 0#8).flatMap byteBits = List.replicate (8 * n) false := by
  induction n with
  | zero => rfl
  | succ n ih =>
    rw [List.replicate_succ, List.flatMap_cons, ih,
      show byteBits 0#8 = List.replicate 8 false by decide, List.replicate_append_replicate]
    congr 1; omega

/-- A reader whose source holds n zero bytes has 8n zero bits coming. -/
theorem zeroSource_exists (n m : Nat) (hn : n = fetchCount 8 m) (hm : 8 * n = m) :
    ∃ (s : State) (bytes : List Byte), s.reader.state = .ready ∧ s.reader.response = none ∧
      s.reader.bitPosition.toNat ≤ 8 ∧ bytes.length = fetchCount s.reader.bitPosition.toNat m ∧
      (upcomingBits s.reader bytes).take m = List.replicate m false ∧
      s.reader.source = bytes.map bytePins ++ [] := by
  refine ⟨testReader 0x00#8 8#4 ((List.replicate n 0#8).map bytePins), List.replicate n 0#8,
    rfl, rfl, le_refl 8, ?_, ?_, (List.append_nil _).symm⟩
  · rw [List.length_replicate]
    exact hn
  · have h : unreadBits (testReader 0x00#8 8#4 ((List.replicate n 0#8).map bytePins)).reader = [] := rfl
    rw [upcomingBits, h, List.nil_append, zeroBytes_bits, hm, List.take_replicate, Nat.min_self]

/-- A source of 2^28 zero bytes. -/
theorem witness_TooManyZeroBitsRaiseCodeRange :
    ∃ (s : State) (bytes : List Byte), s.reader.state = .ready ∧ s.reader.response = none ∧
      s.reader.bitPosition.toNat ≤ 8 ∧ bytes.length = fetchCount s.reader.bitPosition.toNat 2147483648 ∧
      (upcomingBits s.reader bytes).take 2147483648 = List.replicate 2147483648 false ∧
      s.reader.source = bytes.map bytePins ++ [] :=
  zeroSource_exists 268435456 2147483648 (by norm_num [fetchCount]) (by norm_num)

/-- Both directions have an instance: 2.9 row 13, a misaligned R_BYTE at the end of the data. -/
theorem witness_EndOfStreamExactlyWhenBitsAreMissing :
    portOf .rByte = .reader ∧ (testReader 0xBF#8 5#4 [⟨false, true, 0x00#8⟩]).reader.state = .ready ∧
    (testReader 0xBF#8 5#4 [⟨false, true, 0x00#8⟩]).reader.bitPosition.toNat ≤ 8 ∧
    (∃ t, exec .rByte (testReader 0xBF#8 5#4 [⟨false, true, 0x00#8⟩]) = .next t ∧
      t.reader.response = some ⟨.err .endOfStream, 0#32⟩) ∧
    (testReader 0xBF#8 5#4 [⟨false, true, 0x00#8⟩]).reader.source = [].map bytePins ++ ⟨false, true, 0x00#8⟩ :: [] ∧
    sourceAnswer ⟨false, true, 0x00#8⟩ = .eod ∧
    needsMore .rByte (upcomingBits (testReader 0xBF#8 5#4 [⟨false, true, 0x00#8⟩]).reader []) :=
  ⟨by decide, rfl, by decide, ⟨_, rfl, by decide⟩, rfl, by decide, by simp [needsMore, upcomingBits, unreadBits, byteBits, testReader]⟩

/-- Every command that can need more: R_BIT, R_BINARY 32, R_BYTE, R_UNARY, R_RICE in its quotient and in its
remainder. -/
theorem witness_FailedFetchEndsTheReaderCommand :
    needsMore .rBit (upcomingBits Reader.reset []) ∧
    needsMore (.rBinary 32) (upcomingBits Reader.reset [0xFF#8, 0xFF#8, 0xFF#8]) ∧
    needsMore .rByte (upcomingBits Reader.reset []) ∧
    needsMore .rUnary (upcomingBits Reader.reset [0x00#8]) ∧
    needsMore (.rRice 3) (upcomingBits Reader.reset [0x00#8]) ∧
    needsMore (.rRice 3) (upcomingBits Reader.reset [0x80#8]) ∧
    (testReader 0x00#8 8#4 [bytePins 0x80#8, ⟨true, false, 0x00#8⟩]).reader.source =
      [0x80#8].map bytePins ++ ⟨true, false, 0x00#8⟩ :: [] ∧
    (testReader 0x00#8 8#4 [bytePins 0x80#8, ⟨false, true, 0x00#8⟩]).reader.source =
      [0x80#8].map bytePins ++ ⟨false, true, 0x00#8⟩ :: [] := by
  refine ⟨?_, ?_, ?_, ?_, ?_, ?_, rfl, rfl⟩
  · exact (by decide : (upcomingBits Reader.reset []).length < 1)
  · exact ⟨by decide, by decide⟩
  · exact (by decide : (upcomingBits Reader.reset []).length < 8)
  · exact ⟨by decide, by decide⟩
  · exact ⟨by decide, .inl ⟨by decide, by decide⟩⟩
  · exact ⟨by decide, .inr ⟨7, [], by decide, by decide, by decide⟩⟩

theorem witness_ReaderWaitsForTheSource :
    needsMore .rUnary (upcomingBits (testReader 0x00#8 8#4 [bytePins 0x00#8]).reader [0x00#8]) ∧
    (testReader 0x00#8 8#4 [bytePins 0x00#8]).reader.source = [0x00#8].map bytePins ∧
    (testReader 0x00#8 8#4 [bytePins 0x00#8]).reader.state = .ready ∧
    (testReader 0x00#8 8#4 [bytePins 0x00#8]).reader.response = none ∧
    (∀ x ∈ [Input.source false (bytePins 0x01#8), .source true ⟨true, true, 0x01#8⟩],
      Inv { testBusyReader with inputs := [x] } ∧ sourceRequest { testBusyReader with inputs := [x] } = true) ∧
    (∃ t, step { testBusyReader with inputs := [.reposition] } = .next t) ∧ sourceRequest State.reset = false :=
  ⟨⟨by decide, by decide⟩, rfl, rfl, rfl, fun x hx => by fin_cases hx <;> exact ⟨by decide, rfl⟩, ⟨_, rfl⟩, rfl⟩

theorem witness_LateSourceAnswersGiveTheSameRun :
    portOf .rByte = .reader ∧ cmdReady .reader State.reset = true ∧
    exec .rByte State.reset = .next testBusyReader := ⟨by decide, by decide, rfl⟩

theorem witness_BusyReaderEndsWhenTheSourceAnswers :
    Inv testBusyReader ∧ testBusyReader.reader.state = .busy := by decide

theorem witness_ReadByteIsReadBinaryEight :
    ∃ t, exec .rByte (testReader 0xBF#8 5#4 [bytePins 0x14#8]) = .next t ∧ t.reader.state ≠ .busy :=
  ⟨_, rfl, by decide⟩

theorem witness_RealignAndResetDiscardTheCachedBits :
    (testReader 0xBF#8 3#4 []).reader.response = none ∧ (testReader 0xBF#8 3#4 []).reader.state = .ready ∧
    (testReaderIn .broken).reader.response = none ∧ (testReaderIn .broken).reader.state = .broken := by decide

theorem witness_ReaderCommandFrame :
    ∃ t, portOf (.rRice 4) = .reader ∧ exec (.rRice 4) (testReader 0x00#8 8#4 [bytePins 0x54#8]) = .next t :=
  ⟨_, by decide, rfl⟩

/-- A bit in hand, a field that ends with its first byte while a second is settled, a field of bits in hand, no field
bits, and the two commands that only move the position. -/
theorem witness_FetchesAreLazy :
    (∃ t, exec .rBit (testReader 0x80#8 7#4 []) = .next t) ∧ (testReader 0x80#8 7#4 []).reader.bitPosition ≠ 8#4 ∧
    ((∃ t, exec (.rBinary 4) (testReader 0x00#8 8#4 [bytePins 0xAD#8, bytePins 0x0F#8]) = .next t) ∧
      (testReader 0x00#8 8#4 [bytePins 0xAD#8, bytePins 0x0F#8]).reader.source =
        [0xAD#8].map bytePins ++ [bytePins 0x0F#8] ∧
      ¬ needsMore (.rBinary 4) (upcomingBits (testReader 0x00#8 8#4 []).reader [0xAD#8])) ∧
    ((∃ t, exec (.rBinary 4) (testReader 0xBF#8 3#4 []) = .next t) ∧
      ¬ needsMore (.rBinary 4) (unreadBits (testReader 0xBF#8 3#4 []).reader)) ∧
    (∃ t, exec (.rBinary 0) (testReader 0x00#8 8#4 []) = .next t) ∧
    (∃ t, exec .rRealign (testReader 0x80#8 7#4 []) = .next t) ∧
    (∃ t, exec .rReset (testReader 0x80#8 7#4 []) = .next t) :=
  ⟨⟨_, rfl⟩, by decide,
    ⟨⟨_, rfl⟩, rfl, by simp [needsMore, upcomingBits, unreadBits, byteBits, testReader]⟩,
    ⟨⟨_, rfl⟩, by simp [needsMore, unreadBits, byteBits, testReader]⟩, ⟨_, rfl⟩, ⟨_, rfl⟩, ⟨_, rfl⟩⟩

/-- Every kind of writer command, the longest zero run R215 admits, ended by W_FLUSH or by W_CLOSE. -/
theorem witness_ReadingBackReturnsWhatWasWritten :
    (∀ c ∈ [Instr.wBit 1#32, .wZeroes 32#32, .wUnary 2#32, .wBinary 0xFFFFFFFF#32 32, .wByte 0xA5#32] ++
        [.wFlush, .wRice 42#32 4], roundTrips c) ∧
    (Instr.wFlush = .wFlush ∧ Instr.wClose = .wClose) ∧
    enoughAnswers ([Instr.wBit 1#32, .wZeroes 32#32, .wUnary 2#32, .wBinary 0xFFFFFFFF#32 32, .wByte 0xA5#32] ++
        [.wFlush, .wRice 42#32 4]) ≤ 100 := by
  refine ⟨?_, ⟨rfl, rfl⟩, ?_⟩
  · simp [roundTrips, BitVec.toInt]
  · simp only [enoughAnswers, placedBits, riceBits, unaryBits, fieldBits, List.cons_append, List.nil_append,
      List.map_cons, List.map_nil, List.sum_cons, List.sum_nil, List.length_append, List.length_map,
      List.length_range, List.length_replicate, List.length_cons, List.length_nil]
    decide

theorem witness_EveryStepKeepsTheInvariant :
    ∃ t, Inv { testBusyReader with inputs := [.source true (bytePins 0xA5#8)] } ∧
      step { testBusyReader with inputs := [.source true (bytePins 0xA5#8)] } = .next t := ⟨_, by decide, rfl⟩

theorem witness_NoStepStopsTheMachine : Inv { testBusyWriter with inputs := [.sink ⟨true, true⟩] } := by decide

theorem witness_OnlyResetClearsFaultBits :
    ∃ t, (testInputs [.command .writer 0xF00000000000#48]).inputs = .command .writer 0xF00000000000#48 :: [] ∧
      step (testInputs [.command .writer 0xF00000000000#48]) = .next t ∧
      Input.command .writer 0xF00000000000#48 ≠ .rst := ⟨_, rfl, rfl, by decide⟩

/-- CLOSED, BROKEN and DEAD, each with a command presented. -/
theorem witness_OnlyResetLeavesTheTerminalStates :
    (∀ st ∈ [WState.closed, .broken],
      ∃ t, step { testWriterIn st with inputs := [.command .writer 0x700000000000#48] } = .next t) ∧
    ∃ t, step { testReaderIn .dead with inputs := [.command .reader 0xE00000000000#48] } = .next t := by
  refine ⟨fun st hst => ?_, ⟨_, rfl⟩⟩
  fin_cases hst <;> exact ⟨_, rfl⟩

theorem witness_BrokenReaderLeavesOnlyByResetCommand :
    ∃ t, (testReaderIn .broken).reader.state = .broken ∧
      step { testReaderIn .broken with inputs := [.command .reader 0xE00000000000#48] } = .next t ∧
      t.reader.state ≠ .broken := ⟨_, rfl, rfl, by decide⟩

/-- Two states that differ in the other unit. -/
theorem witness_UnitsDoNotInfluenceEachOther :
    (∃ t t', step { testReaderIn .dead with inputs := [.command .writer 0x000000000001#48] } = .next t ∧
      step { testReaderIn .ready with inputs := [.command .writer 0x000000000001#48] } = .next t' ∧
      (testReaderIn .dead).writer = (testReaderIn .ready).writer) ∧
    ∃ t t', step { testWriterIn .closed with inputs := [.command .reader 0xD00000000000#48] } = .next t ∧
      step { testWriterIn .ready with inputs := [.command .reader 0xD00000000000#48] } = .next t' ∧
      (testWriterIn .closed).reader = (testWriterIn .ready).reader :=
  ⟨⟨_, _, rfl, rfl, rfl⟩, ⟨_, _, rfl, rfl, rfl⟩⟩

theorem witness_TransfersAreNeverUndone :
    ∃ t, step { testWriter 0x54#8 7#3 [.accepted] with inputs := [.command .writer 0x600000000000#48] } = .next t :=
  ⟨_, rfl⟩

/-- A delivery to a READY reader, one to a BUSY reader, and one with no byte left. -/
theorem witness_LoopbackDeliversTheOutputStreamInOrder :
    (∃ s : State, s.inputs = .loop :: [] ∧ s.reader.state ≠ .busy ∧
      (outputStream s.writer.history)[s.looped]? = some 0x54#8) ∧
    (∃ s : State, s.inputs = .loop :: [] ∧ s.reader.state = .busy ∧ Inv s ∧
      (outputStream s.writer.history)[s.looped]? = some 0x43#8) ∧
    ∃ s : State, s.inputs = .loop :: [] ∧ (outputStream s.writer.history)[s.looped]? = none :=
  ⟨⟨{ testInputs [.loop] with
      writer := { Writer.reset with history := [.emit 0x43#8 .accepted, .close .accepted, .emit 0x54#8 .accepted] }
      looped := 1 }, rfl, by decide, by decide⟩,
    ⟨{ testBusyReader with
      inputs := [.loop]
      writer := { Writer.reset with history := [.emit 0x43#8 .accepted] } }, rfl, rfl, by decide, by decide⟩,
    testInputs [.loop], rfl, by decide⟩

/-- `W_RICE -1, 0x3F` with a comment, `W_BYTE 4294967296`, and a number of R_SKIP at the last value it takes. -/
theorem witness_WrittenCommandsAssemble :
    (wellFormed (.wRice 0xFFFFFFFF#32 63) = true ∧
      WritesOperands (.wRice 0xFFFFFFFF#32 63) ['-', '1'] ['0', 'x', '3', 'F'] ∧ CommentOrNothing [';', 'x']) ∧
    WritesUnencodable (.wByte 0#32) ['4', '2', '9', '4', '9', '6', '7', '2', '9', '6'] [] ∧
    WritesUnencodable (.rRice 0) [] ['6', '4'] ∧ WrittenNat ['6', '3'] 63 := by
  refine ⟨⟨by decide, ⟨fun _ => ⟨-1, .inr ⟨['1'], 1, rfl, ⟨[('1', 1)], ?_⟩, ?_⟩, ?_⟩,
    fun _ => .inr ⟨['3', 'F'], rfl, ⟨[('3', 3), ('F', 15)], ?_⟩⟩⟩, .inr ⟨['x'], rfl⟩⟩,
    ⟨4294967296, 0,
      fun _ => .inl ⟨4294967296, .inl ⟨[('4', 4), ('2', 2), ('9', 9), ('4', 4), ('9', 9), ('6', 6), ('7', 7), ('2', 2),
        ('9', 9), ('6', 6)], ?_⟩, rfl⟩, nofun, ?_⟩,
    ⟨0, 64, nofun, fun _ => .inl ⟨[('6', 6), ('4', 4)], ?_⟩, ?_⟩, .inl ⟨[('6', 6), ('3', 3)], ?_⟩⟩
  all_goals decide

theorem witness_AssembledProgramIsItsEncodedCommands :
    [['R', '_', 'S', 'K', 'I', 'P', ' ', '6', '3'], [';', 'x']].map assembleLine =
      [some (.rBinary 63), none].map .ok ∧
    assembleLine ['R', '_', 'S', 'K', 'I', 'P', ' ', '6', '3'] = .ok (some (.rBinary 63)) := ⟨rfl, rfl⟩

/-- A READY reader with unread bits and a settled answer, and a BROKEN one. -/
theorem witness_RepositioningNeedsAReset :
    (∃ s : State, s.inputs = .reposition :: [] ∧ s.reader.response = none ∧ s.reader.state = .ready ∧
      s.reader.bitPosition.toNat < 8 ∧ s.reader.source ≠ []) ∧
    ∃ s : State, s.inputs = .reposition :: [] ∧ s.reader.response = none ∧ s.reader.state = .broken :=
  ⟨⟨{ testReader 0x02#8 1#4 [bytePins 0x01#8] with inputs := [.reposition] }, rfl, rfl, rfl, by decide, by decide⟩,
    { testReaderIn .broken with inputs := [.reposition] }, rfl, rfl, rfl⟩

/-- An edge without a ready, one with each value of err, another input, and an edge with no byte offered. -/
theorem witness_SinkPortTransfersWhenReady :
    Inv testBusyWriter ∧ sinkOffer testBusyWriter = some 0xFF#8 ∧
    (∀ x ∈ [Input.sink ⟨false, true⟩, .sink ⟨true, false⟩, .sink ⟨true, true⟩, .close ⟨true, true⟩],
      Inv { testBusyWriter with inputs := [x] } ∧ sinkOffer { testBusyWriter with inputs := [x] } = some 0xFF#8 ∧
      ∃ t, step { testBusyWriter with inputs := [x] } = .next t) ∧
    sinkOffer (testInputs [.sink ⟨true, true⟩]) = none := by
  refine ⟨by decide, by decide, fun x hx => ?_, by decide⟩
  fin_cases hx <;> exact ⟨by decide, by decide, _, rfl⟩

theorem witness_CloseHandshakeIsItsOwn :
    Inv testClosingWriter ∧ closeOffer testClosingWriter = true ∧
    (∀ x ∈ [Input.close ⟨false, true⟩, .close ⟨true, false⟩, .close ⟨true, true⟩, .sink ⟨true, true⟩],
      Inv { testClosingWriter with inputs := [x] } ∧ closeOffer { testClosingWriter with inputs := [x] } = true ∧
      ∃ t, step { testClosingWriter with inputs := [x] } = .next t) ∧
    closeOffer (testInputs [.close ⟨true, true⟩]) = false := by
  refine ⟨by decide, by decide, fun x hx => ?_, by decide⟩
  fin_cases hx <;> exact ⟨by decide, by decide, _, rfl⟩

end Sys2Proof.Tests
end

section
/-! SUPPORT. Proofs of the statements about the state of 10_state.md. One step is one equation, `applyInput_eq`: each
unit becomes a function of that unit and the input, joined only by the byte a loopback transport delivers. The
invariant, the sticky bits and the terminal states are then read off the moves one unit can make. -/

namespace Sys2Proof.Machine

open Sys2Proof.Safety

/-! ### The reset state and the status outputs (R37, R47, R51) -/

/-- Settles O1: the reset state holds these values by definition (R51). -/
theorem resetStateHoldsTheSpecValues : Obligations.ResetStateHoldsTheSpecValues :=
  ⟨rfl, rfl, rfl, rfl, rfl, rfl, rfl, rfl, rfl⟩

/-- The four fields of `{a, b, c, d}`. -/
theorem extractLsb'_append4 {p q m n : Nat} (a : BitVec p) (b : BitVec q) (c : BitVec m) (d : BitVec n) :
    (a ++ b ++ c ++ d).extractLsb' 0 n = d ∧ (a ++ b ++ c ++ d).extractLsb' n m = c ∧
      (a ++ b ++ c ++ d).extractLsb' (n + m) q = b ∧ (a ++ b ++ c ++ d).extractLsb' (n + m + q) p = a := by
  refine ⟨?_, ?_, ?_, ?_⟩
  · rw [BitVec.extractLsb'_append_eq_of_add_le (by omega), BitVec.extractLsb'_eq_self]
  · rw [BitVec.extractLsb'_append_eq_of_le (by omega), Nat.sub_self,
      BitVec.extractLsb'_append_eq_of_add_le (by omega), BitVec.extractLsb'_eq_self]
  · rw [BitVec.extractLsb'_append_eq_of_le (by omega), Nat.add_sub_cancel_left,
      BitVec.extractLsb'_append_eq_of_le (by omega), Nat.sub_self,
      BitVec.extractLsb'_append_eq_of_add_le (by omega), BitVec.extractLsb'_eq_self]
  · rw [BitVec.extractLsb'_append_eq_of_le (by omega), show n + m + q - n = m + q by omega,
      BitVec.extractLsb'_append_eq_of_le (by omega), Nat.add_sub_cancel_left, BitVec.extractLsb'_append_eq_left]

/-- Settles O15: the two status words are appended fields (R37, R47). -/
theorem statusOutputsShowStateCountAndFaults : Obligations.StatusOutputsShowStateCountAndFaults := by
  intro s
  obtain ⟨hws, hwc, hwz, hwf⟩ :=
    extractLsb'_append4 s.writer.fault 0#3 (wcountField s) (wstateBits s.writer.state)
  obtain ⟨hrs, hrp, hrz, hrf⟩ :=
    extractLsb'_append4 s.reader.fault 0#2 (rposField s) (rstateBits s.reader.state)
  refine ⟨hws.trans ?_, fun h => Eq.trans hwc ?_, hwz, hwf, hrs.trans ?_, fun h => Eq.trans hrp ?_, hrz, hrf⟩
  · cases s.writer.state <;> rfl
  · rcases h with h | h <;> simp [wcountField, h]
  · cases s.reader.state <;> rfl
  · simp [rposField, h]

/-! ### What a command leaves unchanged (R36, R46, R89, R91) -/

/-- A sticky register keeps every bit it holds (R36, R46). -/
theorem recordFault_and (e : Err) (f : BitVec 8) : recordFault e f &&& f = f := by
  ext i
  simp only [recordFault, BitVec.getElem_and, BitVec.getElem_or]
  cases f[i] <;> simp

/-- What a writer command leaves unchanged; a sticky bit may be added (R36, R74, R91). -/
structure WriterFrame (w w' : Writer) : Prop where
  taken : w'.taken = w.taken
  history : w.history <+: w'.history
  sink : w'.sink <:+ w.sink
  closes : w'.closes <:+ w.closes
  moved : w'.history.length + w'.sink.length + w'.closes.length =
    w.history.length + w.sink.length + w.closes.length
  fault : w'.fault &&& w.fault = w.fault

theorem WriterFrame.refl (w : Writer) : WriterFrame w w :=
  ⟨rfl, List.prefix_refl _, List.suffix_refl _, List.suffix_refl _, rfl, BitVec.and_self⟩

theorem failWriter_frame (e : Err) (w : Writer) : WriterFrame w (failWriter e w) :=
  { WriterFrame.refl w with fault := recordFault_and e w.fault }

/-- The end of a run adds at most a sticky bit to what the run itself left alone. -/
theorem settleWriter_frame {w : Writer} {x : WriteRun} (cmd : Instr) (h : WriterRan w (reached x)) :
    WriterFrame w (settleWriter cmd x) := by
  have hfault : (settleWriter cmd x).fault &&& w.fault = w.fault := by
    rw [← h.fault]
    cases x with
    | done u => exact BitVec.and_self
    | wait u rest => exact BitVec.and_self
    | raise u => exact recordFault_and .ioFailure u.fault
  cases x <;> exact ⟨h.taken, h.history, h.sink, h.closes, h.moved, hfault⟩

/-- An accepted command goes BUSY and runs its body (R268). -/
theorem startWriter_frame (cmd : Instr) (ops : List WOp) (w : Writer) :
    WriterFrame w (settleWriter cmd (runWOps ops { w with state := .busy })) := by
  have h := settleWriter_frame cmd (runWOps_ran ops { w with state := .busy })
  exact ⟨h.taken, h.history, h.sink, h.closes, h.moved, h.fault⟩

/-- A writer command changes the writer alone, within its frame (R50). -/
theorem exec_writer_frame {i : Instr} {s t : State} (hi : portOf i = .writer) (h : exec i s = .next t) :
    ∃ w, t = { s with writer := w } ∧ WriterFrame s.writer w := by
  rw [exec_writer hi] at h
  rcases writerCommand_cases i (precondition i) (writerBody i) s with
    ⟨_, e⟩ | ⟨_, _, e⟩ | ⟨_, _, _, e⟩ | ⟨_, _, _, e⟩ <;> rw [e] at h <;> cases h
  · exact ⟨_, rfl, WriterFrame.refl _⟩
  · exact ⟨_, rfl, failWriter_frame _ _⟩
  · exact ⟨_, rfl, failWriter_frame _ _⟩
  · exact ⟨_, rfl, startWriter_frame _ _ _⟩

/-- Settles O31, by the frame of the four outcomes of the command cycle. -/
theorem writerCommandFrame : Obligations.WriterCommandFrame := by
  intro s t i hi h
  obtain ⟨w, rfl, hw⟩ := exec_writer_frame hi h
  exact ⟨rfl, rfl, rfl, rfl, hw.taken, hw.history, hw.sink, hw.closes, hw.moved, hw.fault⟩

/-- What a reader command leaves unchanged; a sticky bit may be added (R46, R90, R91). -/
structure ReaderFrame (r r' : Reader) : Prop where
  taken : r'.taken = r.taken
  history : r.history <+: r'.history
  source : r'.source <:+ r.source
  fault : r'.fault &&& r.fault = r.fault

theorem ReaderFrame.refl (r : Reader) : ReaderFrame r r :=
  ⟨rfl, List.prefix_refl _, List.suffix_refl _, BitVec.and_self⟩

theorem failReader_frame (e : Err) (r : Reader) : ReaderFrame r (failReader e r) :=
  { ReaderFrame.refl r with fault := recordFault_and e r.fault }

/-- The end of a run adds at most a sticky bit to what the run itself left alone. -/
theorem settleReader_frame {r r' : Reader} {cmd : Instr} {x : ReadRun Word RRest}
    (hx : ∀ u, readerAt x = some u → ReaderRan r u) (h : settleReader cmd x = some r') : ReaderFrame r r' := by
  cases x with
  | done a u =>
    cases h
    have hu := hx u rfl
    exact ⟨hu.taken, hu.history, hu.source, hu.fault ▸ BitVec.and_self⟩
  | wait p u =>
    cases h
    have hu := hx u rfl
    exact ⟨hu.taken, hu.history, hu.source, hu.fault ▸ BitVec.and_self⟩
  | raise e u =>
    cases h
    have hu := hx u rfl
    exact ⟨hu.taken, hu.history, hu.source, hu.fault ▸ recordFault_and e u.fault⟩
  | stuck => cases h

/-- An accepted command goes BUSY and runs its body (R268). -/
theorem startReader_frame {cmd : Instr} {rest : RRest} {r r' : Reader}
    (h : settleReader cmd (runRest rest { r with state := .busy }) = some r') : ReaderFrame r r' := by
  have hr := settleReader_frame (fun _ => runRest_ran) h
  exact ⟨hr.taken, hr.history, hr.source, hr.fault⟩

theorem withReader_next {s t : State} {o : Option Reader} (h : withReader s o = .next t) :
    ∃ r, o = some r ∧ t = { s with reader := r } := by
  cases o with
  | none => cases h
  | some r => cases h; exact ⟨r, rfl, rfl⟩

/-- A reader command changes the reader alone, within its frame (R50). -/
theorem exec_reader_frame {i : Instr} {s t : State} (hi : portOf i = .reader) (h : exec i s = .next t) :
    ∃ r, t = { s with reader := r } ∧ ReaderFrame s.reader r := by
  rw [exec_reader hi] at h
  rcases readerCommand_cases i (precondition i) (readerBody i) s with
    ⟨_, e⟩ | ⟨_, _, e⟩ | ⟨_, _, _, e⟩ | ⟨_, _, _, e⟩ <;> rw [e] at h
  · cases h; exact ⟨_, rfl, ReaderFrame.refl _⟩
  · cases h; exact ⟨_, rfl, failReader_frame _ _⟩
  · cases h; exact ⟨_, rfl, failReader_frame _ _⟩
  · obtain ⟨r, hr, rfl⟩ := withReader_next h
    exact ⟨r, rfl, startReader_frame hr⟩

/-- Settles O44, by the frame of the four outcomes of the command cycle. -/
theorem readerCommandFrame : Obligations.ReaderCommandFrame := by
  intro s t i hi h
  obtain ⟨r, rfl, hr⟩ := exec_reader_frame hi h
  exact ⟨rfl, rfl, rfl, rfl, hr.taken, hr.history, hr.source, hr.fault⟩

/-! ### One step, unit by unit (R50) -/

/-- A decoded command has the opcode it was decoded from (R103). -/
theorem opcode_of_commandOf {op : BitVec 4} {n : Nat} {v : Word} {i : Instr} (h : commandOf op n v = .ok i) :
    opcode i = op := by
  apply BitVec.eq_of_toNat_eq
  unfold commandOf at h
  split at h <;> cases h <;> simp [opcode, *]

/-- A word decodes to commands of its own port alone (R104). -/
theorem portOf_of_decode {p : Port} {word : CommandWord} {i : Instr} (h : decode p word = .ok i) : portOf i = p := by
  unfold decode at h
  split at h
  · cases h
  split at h
  · cases h
  next hport =>
    split at h
    · cases h
    split at h
    · cases h
    split at h
    · cases h
    rw [portOf, opcode_of_commandOf h]
    exact not_not.1 hport

/-- The block with this writer and everything else as after reset: a place to ask what the writer's own pins show. -/
def writerAlone (w : Writer) : State := { State.reset with writer := w }

/-- What a word on the writer's port makes of the writer (R100, R107, R268). -/
def presentWriter (word : CommandWord) (w : Writer) : Writer :=
  if writerCmdReady w then
    match decode .writer word with
    | .ok i => cycleWriter i (precondition i) (writerBody i) w
    | .error _ => failWriter .illegalCommand w
  else w

/-- What an input makes of the writer, from the writer and the input alone (R50). -/
def writerAfter (x : Input) (w : Writer) : Writer :=
  match x with
  | .rst => resetWriter w
  | .command .writer word => presentWriter word w
  | .take .writer => { w with response := none, taken := w.taken ++ w.response.toList }
  | .sink pins => (sinkEdge pins (writerAlone w)).writer
  | .close pins => (closeEdge pins (writerAlone w)).writer
  | _ => w

/-- The next accepted byte a loopback transport has still to deliver (R92, log 13). -/
def undelivered (s : State) : Option Byte := ((outputStream s.writer.history).drop s.looped).head?

/-- What a word on the reader's port makes of the reader (R100, R107, R268); none for a bitPosition that never occurs
(log 11). -/
def presentReader (word : CommandWord) (r : Reader) : Option Reader :=
  if readerCmdReady r then
    match decode .reader word with
    | .ok i => cycleReader i (precondition i) (readerBody i) r
    | .error _ => some (failReader .illegalCommand r)
  else some r

/-- What an edge of the source port makes of the reader (R79). -/
def fetchEdge (ack : Bool) (pins : SourcePins) (r : Reader) : Option Reader :=
  if r.state = .busy ∧ ack = true then resumeReader { r with source := r.source ++ [pins] } else some r

/-- What an input makes of the reader, from the reader, the input and the byte a loopback transport delivers (R50,
R92). -/
def readerAfter (looped : Option Byte) (x : Input) (r : Reader) : Option Reader :=
  match x with
  | .rst => some (resetReader r)
  | .command .reader word => presentReader word r
  | .take .reader => some { r with response := none, taken := r.taken ++ r.response.toList }
  | .source ack pins => fetchEdge ack pins r
  | .reposition => some { r with source := [] }
  | .loop =>
    match looped with
    | some b => resumeReader { r with source := r.source ++ [bytePins b] }
    | none => some r
  | _ => some r

/-- How many bytes the loopback transport has delivered after an input (R92, log 13). -/
def loopedAfter (x : Input) (s : State) : Nat :=
  match x, undelivered s with
  | .loop, some _ => s.looped + 1
  | _, _ => s.looped

theorem loopedAfter_of_ne_loop {x : Input} {s : State} (h : x ≠ .loop) : loopedAfter x s = s.looped := by
  cases x with
  | loop => exact absurd rfl h
  | _ => rfl

theorem presentCommand_writer (word : CommandWord) (s : State) :
    presentCommand .writer word s = .next { s with writer := presentWriter word s.writer } := by
  unfold presentCommand presentWriter
  cases hr : writerCmdReady s.writer with
  | false => simp [cmdReady, hr]
  | true =>
    cases hd : decode .writer word with
    | ok i => simp [cmdReady, hr, exec_writer (portOf_of_decode hd), writerCommand]
    | error e => simp [cmdReady, hr, illegalCommand]

theorem presentCommand_reader (word : CommandWord) (s : State) :
    presentCommand .reader word s = withReader s (presentReader word s.reader) := by
  unfold presentCommand presentReader
  cases hr : readerCmdReady s.reader with
  | false => simp [cmdReady, hr, withReader]
  | true =>
    cases hd : decode .reader word with
    | ok i => simp [cmdReady, hr, exec_reader (portOf_of_decode hd), readerCommand]
    | error e => simp [cmdReady, hr, illegalCommand, withReader]

theorem sinkOffer_writerAlone (s : State) : sinkOffer (writerAlone s.writer) = sinkOffer s := by
  unfold sinkOffer writerAlone
  rfl

theorem closeOffer_writerAlone (s : State) : closeOffer (writerAlone s.writer) = closeOffer s := by
  unfold closeOffer writerAlone
  rfl

theorem sinkEdge_writerAlone (pins : SinkPins) (s : State) :
    sinkEdge pins s = { s with writer := (sinkEdge pins (writerAlone s.writer)).writer } := by
  rw [sinkEdge_eq, sinkEdge_eq, sinkOffer_writerAlone]
  split <;> rfl

theorem closeEdge_writerAlone (pins : SinkPins) (s : State) :
    closeEdge pins s = { s with writer := (closeEdge pins (writerAlone s.writer)).writer } := by
  rw [closeEdge_eq, closeEdge_eq, closeOffer_writerAlone]
  split <;> rfl

theorem sourceEdge_fetchEdge (ack : Bool) (pins : SourcePins) (s : State) :
    sourceEdge ack pins s = withReader s (fetchEdge ack pins s.reader) := by
  unfold sourceEdge fetchEdge
  simp only [sourceRequest, Bool.and_eq_true, beq_iff_eq]
  split <;> rfl

theorem loopByte_eq (s : State) :
    loopByte s =
      withReader { s with looped := loopedAfter .loop s } (readerAfter (undelivered s) .loop s.reader) := by
  unfold loopByte loopedAfter undelivered
  cases (outputStream s.writer.history).drop s.looped <;> rfl

/-- One input is one function for each unit (R50): the units meet only where a loopback transport feeds the reader from
the output stream (R92). -/
theorem applyInput_eq (x : Input) (s : State) :
    applyInput x s =
      withReader { s with writer := writerAfter x s.writer, looped := loopedAfter x s }
        (readerAfter (undelivered s) x s.reader) := by
  cases x with
  | rst => rfl
  | command p word =>
    cases p with
    | writer => exact presentCommand_writer word s
    | reader => exact presentCommand_reader word s
  | take p => cases p <;> rfl
  | sink pins => exact congrArg Host.Outcome.next (sinkEdge_writerAlone pins s)
  | close pins => exact congrArg Host.Outcome.next (closeEdge_writerAlone pins s)
  | source ack pins => exact sourceEdge_fetchEdge ack pins s
  | reposition => rfl
  | loop => exact loopByte_eq s

/-- A step that consumes an input is what that input makes of each unit. -/
theorem step_units {s t : State} {x : Input} {later : List Input} (hin : s.inputs = x :: later)
    (h : step s = .next t) :
    t.writer = writerAfter x s.writer ∧ readerAfter (undelivered s) x s.reader = some t.reader ∧
      t.looped = loopedAfter x s := by
  have hstep : step s = applyInput x (consumeInput s) := by simp [step, runInputs, hin]
  rw [hstep, applyInput_eq] at h
  obtain ⟨r, hr, rfl⟩ := withReader_next h
  exact ⟨rfl, hr, rfl⟩

/-- With no input the block waits (R278, R315). -/
theorem step_idle {s t : State} (hin : s.inputs = []) (h : step s = .next t) : t = consumeInput s := by
  simpa [step, runInputs, hin, eq_comm] using h

/-- The loopback byte matters to the loopback input alone (R92). -/
theorem readerAfter_of_ne_loop {x : Input} (hx : x ≠ .loop) (b c : Option Byte) (r : Reader) :
    readerAfter b x r = readerAfter c x r := by
  cases x with
  | command p word => cases p <;> rfl
  | take p => cases p <;> rfl
  | loop => exact absurd rfl hx
  | _ => rfl

/-- Settles O53: each unit's next state is a function of that unit and the input. -/
theorem unitsDoNotInfluenceEachOther : Obligations.UnitsDoNotInfluenceEachOther := by
  intro s s' t t' x later later' hin hin' h h'
  obtain ⟨hw, hr, -⟩ := step_units hin h
  obtain ⟨hw', hr', -⟩ := step_units hin' h'
  refine ⟨fun e => by rw [hw, hw', e], fun e hx => ?_⟩
  rw [e, readerAfter_of_ne_loop hx _ (undelivered s'), hr'] at hr
  exact (Option.some.inj hr).symm

/-! ### The moves of a unit -/

/-- What one input can make of the writer: nothing, a reset, a refused command, a command started, the response taken,
or the answer a waiting emit or close has been offered for. -/
inductive WriterMove (x : Input) (w : Writer) : Writer → Prop
  | stay : WriterMove x w w
  | reset (hx : x = .rst) : WriterMove x w (resetWriter w)
  | fail (e : Err) (hready : writerCmdReady w = true) (he : e ≠ .endOfStream ∧ e ≠ .codeRange) :
      WriterMove x w (failWriter e w)
  | start (cmd : Instr) (hport : portOf cmd = .writer) (hready : writerCmdReady w = true) (hstate : w.state = .ready) :
      WriterMove x w (settleWriter cmd (runWOps (writerBody cmd) { w with state := .busy }))
  | take : WriterMove x w { w with response := none, taken := w.taken ++ w.response.toList }
  | emit (a : SinkAnswer) (cmd : Instr) (later : List WOp) (hstate : w.state = .busy)
      (hbody : w.body = some ⟨cmd, .emit :: later⟩) :
      WriterMove x w (settleWriter cmd (runWOps (.emit :: later) { w with sink := w.sink ++ [a] }))
  | close (a : SinkAnswer) (cmd : Instr) (later : List WOp) (hstate : w.state = .busy)
      (hbody : w.body = some ⟨cmd, .close :: later⟩) :
      WriterMove x w (settleWriter cmd (runWOps (.close :: later) { w with closes := w.closes ++ [a] }))

/-- A byte is offered exactly by a BUSY writer whose body is at an emit (R75). -/
theorem sinkOffer_isSome {s : State} (h : (sinkOffer s).isSome = true) :
    s.writer.state = .busy ∧ ∃ cmd later, s.writer.body = some ⟨cmd, .emit :: later⟩ := by
  unfold sinkOffer at h
  split at h
  next hs hb => exact ⟨hs, _, _, hb⟩
  next => cases h

/-- The close is requested exactly by a BUSY writer whose body is at it (R77). -/
theorem closeOffer_true {s : State} (h : closeOffer s = true) :
    s.writer.state = .busy ∧ ∃ cmd later, s.writer.body = some ⟨cmd, .close :: later⟩ := by
  unfold closeOffer at h
  split at h
  next hs hb => exact ⟨hs, _, _, hb⟩
  next => cases h

/-- A BUSY writer goes on with the rest of its own command's body (R38, R72). -/
theorem postSink_busy {s : State} {cmd : Instr} {rest : List WOp} (a : SinkAnswer) (hstate : s.writer.state = .busy)
    (hbody : s.writer.body = some ⟨cmd, rest⟩) :
    (postSink a s).writer = settleWriter cmd (runWOps rest { s.writer with sink := s.writer.sink ++ [a] }) := by
  simp [resumeWriter, hstate, hbody]

/-- A BUSY writer goes on with the rest of its own command's body (R38, R77). -/
theorem postClose_busy {s : State} {cmd : Instr} {rest : List WOp} (a : SinkAnswer) (hstate : s.writer.state = .busy)
    (hbody : s.writer.body = some ⟨cmd, rest⟩) :
    (postClose a s).writer = settleWriter cmd (runWOps rest { s.writer with closes := s.writer.closes ++ [a] }) := by
  simp [resumeWriter, hstate, hbody]

/-- An accepted command of the writer is refused with a sticky bit or started (R268). -/
theorem cycleWriter_move {x : Input} {w : Writer} {cmd : Instr} (hport : portOf cmd = .writer)
    (hready : writerCmdReady w = true) :
    WriterMove x w (cycleWriter cmd (precondition cmd) (writerBody cmd) w) := by
  unfold cycleWriter
  split
  · exact .fail .stateError hready (by decide)
  next hstate =>
    split
    · exact .fail .precondition hready (by decide)
    · exact .start cmd hport hready (not_not.1 hstate)

theorem presentWriter_move (x : Input) (word : CommandWord) (w : Writer) : WriterMove x w (presentWriter word w) := by
  unfold presentWriter
  split
  next hready =>
    split
    next i hd => exact cycleWriter_move (portOf_of_decode hd) hready
    next => exact .fail .illegalCommand hready (by decide)
  next => exact .stay

theorem sinkEdge_move (x : Input) (pins : SinkPins) (s : State) :
    WriterMove x s.writer (sinkEdge pins s).writer := by
  rw [sinkEdge_eq]
  split
  next h =>
    obtain ⟨hstate, cmd, later, hbody⟩ := sinkOffer_isSome h.1
    rw [postSink_busy _ hstate hbody]
    exact .emit _ cmd later hstate hbody
  next => exact .stay

theorem closeEdge_move (x : Input) (pins : SinkPins) (s : State) :
    WriterMove x s.writer (closeEdge pins s).writer := by
  rw [closeEdge_eq]
  split
  next h =>
    obtain ⟨hstate, cmd, later, hbody⟩ := closeOffer_true h.1
    rw [postClose_busy _ hstate hbody]
    exact .close _ cmd later hstate hbody
  next => exact .stay

theorem writerAfter_move (x : Input) (w : Writer) : WriterMove x w (writerAfter x w) := by
  cases x with
  | rst => exact .reset rfl
  | command p word =>
    cases p with
    | writer => exact presentWriter_move _ word w
    | reader => exact .stay
  | take p =>
    cases p with
    | writer => exact .take
    | reader => exact .stay
  | sink pins => exact sinkEdge_move _ pins (writerAlone w)
  | close pins => exact closeEdge_move _ pins (writerAlone w)
  | source ack pins => exact .stay
  | reposition => exact .stay
  | loop => exact .stay

/-- What one input can make of the reader: nothing, a reset, a refused command, a command started, the response taken,
the source withdrawn, or an answer of the source, which a waiting body goes on with. -/
inductive ReaderMove (x : Input) (r : Reader) : Reader → Prop
  | stay : ReaderMove x r r
  | reset (hx : x = .rst) : ReaderMove x r (resetReader r)
  | fail (e : Err) (hready : readerCmdReady r = true) : ReaderMove x r (failReader e r)
  | start (cmd : Instr) (r' : Reader) (hx : ∃ word, x = .command .reader word ∧ decode .reader word = .ok cmd)
      (hready : readerCmdReady r = true) (hruns : runsReader cmd r.state = true) (hpre : precondition cmd = true)
      (hrun : settleReader cmd (runRest (readerBody cmd) { r with state := .busy }) = some r') : ReaderMove x r r'
  | take : ReaderMove x r { r with response := none, taken := r.taken ++ r.response.toList }
  | withdraw : ReaderMove x r { r with source := [] }
  | settle (pins : SourcePins) (hidle : r.state ≠ .busy ∨ r.body = none) :
      ReaderMove x r { r with source := r.source ++ [pins] }
  | resume (pins : SourcePins) (b : RBody) (r' : Reader) (hstate : r.state = .busy) (hbody : r.body = some b)
      (hrun : settleReader b.cmd (runRest b.rest { r with source := r.source ++ [pins] }) = some r') :
      ReaderMove x r r'

/-- An answer of the source resumes a waiting body or is settled (R80, log 1). -/
theorem resumeReader_move {x : Input} {r r' : Reader} {pins : SourcePins}
    (h : resumeReader { r with source := r.source ++ [pins] } = some r') : ReaderMove x r r' := by
  unfold resumeReader at h
  split at h
  next b hstate hbody => exact .resume pins b r' hstate hbody h
  next hidle =>
    cases h
    refine .settle pins ?_
    by_contra hwait
    obtain ⟨hstate, hbody⟩ := not_or.1 hwait
    obtain ⟨b, hb⟩ := Option.ne_none_iff_exists'.1 hbody
    exact hidle b (not_not.1 hstate) hb

/-- An accepted command of the reader is refused with a sticky bit or started (R268). -/
theorem cycleReader_move {x : Input} {r r' : Reader} {cmd : Instr}
    (hx : ∃ word, x = .command .reader word ∧ decode .reader word = .ok cmd) (hready : readerCmdReady r = true)
    (h : cycleReader cmd (precondition cmd) (readerBody cmd) r = some r') : ReaderMove x r r' := by
  unfold cycleReader at h
  split at h
  · cases h
    exact .fail .stateError hready
  next hruns =>
    split at h
    · cases h
      exact .fail .precondition hready
    next hpre => exact .start cmd r' hx hready (by simpa using hruns) (by simpa using hpre) h

theorem presentReader_move {r r' : Reader} {word : CommandWord} (h : presentReader word r = some r') :
    ReaderMove (.command .reader word) r r' := by
  unfold presentReader at h
  split at h
  next hready =>
    split at h
    next i hd => exact cycleReader_move ⟨word, rfl, hd⟩ hready h
    next => cases h; exact .fail .illegalCommand hready
  next => cases h; exact .stay

theorem fetchEdge_move {x : Input} {r r' : Reader} {ack : Bool} {pins : SourcePins}
    (h : fetchEdge ack pins r = some r') : ReaderMove x r r' := by
  unfold fetchEdge at h
  split at h
  · exact resumeReader_move h
  · cases h
    exact .stay

theorem readerAfter_move {b : Option Byte} {x : Input} {r r' : Reader} (h : readerAfter b x r = some r') :
    ReaderMove x r r' := by
  cases x with
  | rst => cases h; exact .reset rfl
  | command p word =>
    cases p with
    | writer => cases h; exact .stay
    | reader => exact presentReader_move h
  | take p =>
    cases p with
    | writer => cases h; exact .stay
    | reader => cases h; exact .take
  | sink pins => cases h; exact .stay
  | close pins => cases h; exact .stay
  | source ack pins => exact fetchEdge_move h
  | reposition => cases h; exact .withdraw
  | loop =>
    cases b with
    | none => cases h; exact .stay
    | some b => exact resumeReader_move h

/-- A step either only consumes or is a move of each unit. -/
theorem step_moves {s t : State} (h : step s = .next t) :
    (s.inputs = [] ∧ t.writer = s.writer ∧ t.reader = s.reader ∧ t.looped = s.looped) ∨
      ∃ x later, s.inputs = x :: later ∧ WriterMove x s.writer t.writer ∧ ReaderMove x s.reader t.reader ∧
        t.looped = loopedAfter x s := by
  cases hin : s.inputs with
  | nil =>
    cases step_idle hin h
    exact .inl ⟨rfl, rfl, rfl, rfl⟩
  | cons x later =>
    obtain ⟨hw, hr, hl⟩ := step_units hin h
    exact .inr ⟨x, later, rfl, hw ▸ writerAfter_move x s.writer, readerAfter_move hr, hl⟩

/-! ### What every move keeps -/

/-- Transfers made stay made (R74, R301). -/
theorem WriterMove.history {x : Input} {w w' : Writer} (h : WriterMove x w w') : w.history <+: w'.history := by
  cases h with
  | start cmd => exact (startWriter_frame cmd _ w).history
  | emit a cmd later => exact (settleWriter_frame cmd (runWOps_ran _ { w with sink := w.sink ++ [a] })).history
  | close a cmd later => exact (settleWriter_frame cmd (runWOps_ran _ { w with closes := w.closes ++ [a] })).history
  | _ => exact List.prefix_refl _

/-- Only hardware reset clears a sticky bit (R36). -/
theorem WriterMove.fault {x : Input} {w w' : Writer} (h : WriterMove x w w') (hx : x ≠ .rst) :
    w'.fault &&& w.fault = w.fault := by
  cases h with
  | reset hrst => exact absurd hrst hx
  | fail e => exact recordFault_and e w.fault
  | start cmd => exact (startWriter_frame cmd _ w).fault
  | emit a cmd later => exact (settleWriter_frame cmd (runWOps_ran _ { w with sink := w.sink ++ [a] })).fault
  | close a cmd later => exact (settleWriter_frame cmd (runWOps_ran _ { w with closes := w.closes ++ [a] })).fault
  | _ => exact BitVec.and_self

/-- Only hardware reset clears a sticky bit (R46). -/
theorem ReaderMove.fault {x : Input} {r r' : Reader} (h : ReaderMove x r r') (hx : x ≠ .rst) :
    r'.fault &&& r.fault = r.fault := by
  cases h with
  | reset hrst => exact absurd hrst hx
  | fail e => exact recordFault_and e r.fault
  | start cmd _ _ _ _ _ hrun => exact (startReader_frame hrun).fault
  | resume pins b _ _ _ hrun => exact (settleReader_frame (fun _ => runRest_ran) hrun).fault
  | _ => exact BitVec.and_self

/-- Settles O50: no move but a reset clears a sticky bit. -/
theorem onlyResetClearsFaultBits : Obligations.OnlyResetClearsFaultBits := by
  intro s t x later hin h hx
  obtain ⟨hw, hr, -⟩ := step_units hin h
  exact ⟨hw ▸ (writerAfter_move x s.writer).fault hx, (readerAfter_move hr).fault hx⟩

/-- Only hardware reset takes the writer out of CLOSED and BROKEN, where it makes no transfer (R33, R272). -/
theorem WriterMove.terminal {x : Input} {w w' : Writer} (h : WriterMove x w w') (hx : x ≠ .rst)
    (hw : w.state = .closed ∨ w.state = .broken) : w'.state = w.state ∧ w'.history = w.history := by
  cases h with
  | reset hrst => exact absurd hrst hx
  | start _ _ _ hstate => simp [hstate] at hw
  | emit _ _ _ hstate => simp [hstate] at hw
  | close _ _ _ hstate => simp [hstate] at hw
  | _ => exact ⟨rfl, rfl⟩

/-- Only hardware reset takes the reader out of DEAD, where it makes no fetch (R43, R301). -/
theorem ReaderMove.dead {x : Input} {r r' : Reader} (h : ReaderMove x r r') (hx : x ≠ .rst) (hr : r.state = .dead) :
    r'.state = .dead ∧ r'.history = r.history := by
  cases h with
  | reset hrst => exact absurd hrst hx
  | start _ _ _ _ hruns => simp [hr, runsReader] at hruns
  | resume _ _ _ hstate => simp [hstate] at hr
  | _ => exact ⟨hr, rfl⟩

/-- Settles O51: in a terminal state no move starts or resumes a body. -/
theorem onlyResetLeavesTheTerminalStates : Obligations.OnlyResetLeavesTheTerminalStates := by
  intro s t x later hin h hx
  obtain ⟨hw, hr, -⟩ := step_units hin h
  exact ⟨hw ▸ (writerAfter_move x s.writer).terminal hx, (readerAfter_move hr).dead hx⟩

/-- A BROKEN reader starts no command but R_RESET (R43, R312). -/
theorem ReaderMove.broken {x : Input} {r r' : Reader} (h : ReaderMove x r r') (hr : r.state = .broken) :
    r'.state = .broken ∨ x = .rst ∨ ∃ word, x = .command .reader word ∧ decode .reader word = .ok .rReset := by
  cases h with
  | reset hrst => exact .inr (.inl hrst)
  | start cmd _ hx _ hruns =>
    have hcmd : cmd = .rReset := by simpa [hr, runsReader] using hruns
    exact .inr (.inr (hcmd ▸ hx))
  | resume _ _ _ hstate => simp [hstate] at hr
  | _ => exact .inl hr

/-- Settles O52: the only moves that leave BROKEN are a reset and the start of R_RESET. -/
theorem brokenReaderLeavesOnlyByResetCommand : Obligations.BrokenReaderLeavesOnlyByResetCommand := by
  intro s t hs h ht
  rcases step_moves h with ⟨-, -, hr, -⟩ | ⟨x, later, hin, -, hr, -⟩
  · exact absurd (hr ▸ hs) ht
  · rcases hr.broken hs with hb | rfl | ⟨word, rfl, hd⟩
    · exact absurd hb ht
    · exact ⟨later, .inl hin⟩
    · exact ⟨later, .inr ⟨word, hin, hd⟩⟩

/-! ### The invariant of the writer (R34, R36, R121, R152) -/

/-- Settles O47: both units at their reset values, nothing delivered. -/
theorem invariantHoldsAtReset : Obligations.InvariantHoldsAtReset := by
  unfold Obligations.InvariantHoldsAtReset
  decide

/-- A sticky register gains a bit outside the mask m only where the error's bit is. -/
theorem recordFault_and_zero {e : Err} {f m : BitVec 8} (hf : f &&& m = 0#8)
    (hm : BitVec.twoPow 8 (faultBit e) &&& m = 0#8) : recordFault e f &&& m = 0#8 := by
  rw [recordFault, BitVec.and_or_distrib_right, hf, hm, BitVec.or_zero]

/-- The accumulator holds no bit (R32, R34). -/
def Emptied (w : Writer) : Prop := w.pendingByte = 0#8 ∧ w.pendingBitCount = 0#3

/-- How a run of a command's body may end for the invariant to hold once it is settled: W_CLOSE with an empty
accumulator, another command with clean bits, and a wait at a transfer of the body (R34, R38, R152). -/
def WriteRunFits (cmd : Instr) : WriteRun → Prop
  | .done u => PendingClean u ∧ (cmd = .wClose → Emptied u)
  | .wait u rest => u.state = .busy ∧ writerWaits { u with body := some ⟨cmd, rest⟩ } = true
  | .raise _ => True

/-- Responding, waiting or entering the error after a fitting run gives the invariant (R121, R268). -/
theorem settleWriter_inv {w : Writer} {x : WriteRun} {cmd : Instr} (hran : WriterRan w (reached x))
    (hx : WriteRunFits cmd x) (hresponse : w.response = none) (hfault : w.fault &&& 0xF0#8 = 0#8) :
    WriterInv (settleWriter cmd x) := by
  have hf : (reached x).fault &&& 0xF0#8 = 0#8 := hran.fault ▸ hfault
  cases x with
  | done u =>
    obtain ⟨hclean, hclose⟩ := hx
    by_cases hcmd : cmd = .wClose
    · obtain ⟨hbyte, hcount⟩ := hclose hcmd
      simpa [WriterInv, settleWriter, writerEndState, hcmd, okResponse, hbyte, hcount, reached] using hf
    · simpa [WriterInv, settleWriter, writerEndState, hcmd, okResponse, hclean, reached] using hf
  | wait u rest =>
    obtain ⟨hbusy, hwaits⟩ := hx
    have hr : u.response = none := hran.response.trans hresponse
    exact ⟨by simp [settleWriter, hbusy], by simp [settleWriter, hbusy], fun hidle => absurd hbusy hidle,
      fun _ => ⟨hr, hwaits⟩, hf, by simp [settleWriter, hr]⟩
  | raise u =>
    have hbit : recordFault .ioFailure u.fault &&& 0xF0#8 = 0#8 := recordFault_and_zero hf (by decide)
    simpa [WriterInv, settleWriter, errorResponse] using hbit

/-- A body without a close fits its command, if it ends with clean bits. -/
theorem runWOps_fits {cmd : Instr} {ops : List WOp} {w : Writer} (hcmd : cmd ≠ .wClose) (hport : portOf cmd = .writer)
    (hops : WOp.close ∉ ops) (hbusy : w.state = .busy) (hdone : ∀ u, runWOps ops w = .done u → PendingClean u) :
    WriteRunFits cmd (runWOps ops w) := by
  have hstate := (runWOps_state hops w).trans hbusy
  cases hx : runWOps ops w with
  | done u => exact ⟨hdone u hx, fun h => absurd h hcmd⟩
  | wait u rest =>
    rw [hx] at hstate
    obtain ⟨hsink, later, rfl, hlater⟩ := runWOps_wait hops hx
    exact ⟨hstate, by simp [writerWaits, hsink, hport, hcmd, hlater]⟩
  | raise u => trivial

/-- The close from an empty accumulator fits W_CLOSE (R152). -/
theorem closing_fits {w : Writer} (hbusy : w.state = .busy) (hempty : Emptied w) :
    WriteRunFits .wClose (runWOps [.close] w) := by
  obtain ⟨hbyte, hcount⟩ := hempty
  change WriteRunFits .wClose (andThenW (closeSink w) (runWOps []) [])
  rcases closeSink_cases w with ⟨hcloses, e⟩ | ⟨later, _, e⟩ | ⟨later, _, e⟩ <;> rw [e]
  · exact ⟨hbusy, by simp [writerWaits, hcloses, hbyte, hcount]⟩
  · trivial
  · exact ⟨clean_of_empty hbyte, fun _ => ⟨hbyte, hcount⟩⟩

/-- An emit and then the close fit W_CLOSE (R142, R152). -/
theorem emitting_close_fits {w : Writer} (hbusy : w.state = .busy) :
    WriteRunFits .wClose (runWOps [.emit, .close] w) := by
  change WriteRunFits .wClose (andThenW (emitPending w) (runWOps [.close]) [.close])
  rcases emitPending_cases w with ⟨hsink, e⟩ | ⟨later, _, e⟩ | ⟨later, _, e⟩ <;> rw [e]
  · exact ⟨hbusy, by simp [writerWaits, hsink, portOf, opPort, opcode]⟩
  · trivial
  · exact closing_fits hbusy ⟨rfl, rfl⟩

/-- The body of W_CLOSE fits it: FlushPending is an emit, or nothing on an empty accumulator (R142, R152). -/
theorem flushing_close_fits {w : Writer} (hbusy : w.state = .busy) (hclean : PendingClean w) :
    WriteRunFits .wClose (runWOps [.flush, .close] w) := by
  by_cases hcount : w.pendingBitCount = 0#3
  · have hflush : flushPending w = .done w := by simp [flushPending, hcount]
    change WriteRunFits .wClose (andThenW (flushPending w) (runWOps [.close]) [.close])
    rw [hflush]
    exact closing_fits hbusy (flushPending_empty hclean hflush)
  · have hflush : flushPending w = emitPending w := by simp [flushPending, hcount]
    change WriteRunFits .wClose (andThenW (flushPending w) (runWOps [.close]) [.close])
    rw [hflush]
    exact emitting_close_fits hbusy

/-- Only W_CLOSE has a close in its body (R152). -/
theorem close_notMem_writerBody {cmd : Instr} (h : cmd ≠ .wClose) : WOp.close ∉ writerBody cmd := by
  cases cmd with
  | wClose => exact absurd rfl h
  | _ => unfold writerBody; simp

/-- The whole body of a command fits it, from clean bits. -/
theorem writerBody_fits {cmd : Instr} {w : Writer} (hport : portOf cmd = .writer) (hbusy : w.state = .busy)
    (hclean : PendingClean w) : WriteRunFits cmd (runWOps (writerBody cmd) w) := by
  by_cases hcmd : cmd = .wClose
  · subst hcmd
    exact flushing_close_fits hbusy hclean
  · exact runWOps_fits hcmd hport (close_notMem_writerBody hcmd) hbusy fun _ => runWOps_clean hclean

/-- A body after an emit ends with clean bits, whatever the accumulator held before. -/
theorem runWOps_emit_clean {later : List WOp} {w u : Writer} (h : runWOps (.emit :: later) w = .done u) :
    PendingClean u := by
  obtain ⟨v, hv, hk⟩ := andThenW_done h
  exact runWOps_clean (clean_of_empty (emitPending_empty hv).1) hk

/-- The rest of a body that waits at an emit fits its command (R38). -/
theorem emit_fits {cmd : Instr} {later : List WOp} {w v : Writer} (hbody : w.body = some ⟨cmd, .emit :: later⟩)
    (hwaits : writerWaits w = true) (hbusy : v.state = .busy) :
    WriteRunFits cmd (runWOps (.emit :: later) v) := by
  simp only [writerWaits, hbody, Bool.and_eq_true, beq_iff_eq] at hwaits
  obtain ⟨⟨-, hport⟩, hlater⟩ := hwaits
  by_cases hcmd : cmd = .wClose
  · subst hcmd
    have hlater : later = [.close] := by simpa using hlater
    exact hlater ▸ emitting_close_fits hbusy
  · have hops : WOp.close ∉ later := by simpa [hcmd] using hlater
    exact runWOps_fits hcmd hport (by simp [hops]) hbusy fun _ => runWOps_emit_clean

/-- A body that waits at a close is that of W_CLOSE, its accumulator empty (R152). -/
theorem writerWaits_close {cmd : Instr} {later : List WOp} {w : Writer}
    (hbody : w.body = some ⟨cmd, .close :: later⟩) (hwaits : writerWaits w = true) :
    cmd = .wClose ∧ later = [] ∧ Emptied w := by
  cases later with
  | nil =>
    simp only [writerWaits, hbody, Bool.and_eq_true, beq_iff_eq] at hwaits
    obtain ⟨⟨⟨-, hcmd⟩, hbyte⟩, hcount⟩ := hwaits
    exact ⟨hcmd, rfl, hbyte, hcount⟩
  | cons op later => simp [writerWaits, hbody] at hwaits

/-- Hardware reset establishes the invariant from any state (R300). -/
theorem resetWriter_inv (w : Writer) : WriterInv (resetWriter w) := by
  simp [WriterInv, Writer.reset]

/-- A refused command keeps the invariant: the state stays, a sticky bit and an error response are added (R268). -/
theorem failWriter_inv {w : Writer} {e : Err} (h : WriterInv w) (hready : writerCmdReady w = true)
    (he : e ≠ .endOfStream ∧ e ≠ .codeRange) : WriterInv (failWriter e w) := by
  obtain ⟨hclean, hclosed, hbody, -, hfault, -⟩ := h
  have hidle : w.state ≠ .busy := by
    intro hbusy
    simp [writerCmdReady, hbusy] at hready
  have hbit : BitVec.twoPow 8 (faultBit e) &&& 0xF0#8 = 0#8 := by
    cases e with
    | endOfStream => exact absurd rfl he.1
    | codeRange => exact absurd rfl he.2
    | _ => decide
  exact ⟨hclean, hclosed, hbody, fun hbusy => absurd hbusy hidle, recordFault_and_zero hfault hbit,
    by simp [errorResponse, he]⟩

/-- Every move of the writer keeps its invariant. -/
theorem WriterMove.inv {x : Input} {w w' : Writer} (h : WriterMove x w w') (hw : WriterInv w) : WriterInv w' := by
  obtain ⟨hclean, hclosed, hbody, hbusy, hfault, hresponse⟩ := id hw
  cases h with
  | stay => exact hw
  | reset => exact resetWriter_inv w
  | fail e hready he => exact failWriter_inv hw hready he
  | start cmd hport hready hstate =>
    have hnone : w.response = none := by simpa [writerCmdReady, hstate] using hready
    exact settleWriter_inv (runWOps_ran _ _) (writerBody_fits hport rfl (hclean hstate)) hnone hfault
  | take => exact ⟨hclean, hclosed, hbody, fun hb => ⟨rfl, (hbusy hb).2⟩, hfault, rfl⟩
  | emit a cmd later hstate hb =>
    obtain ⟨hnone, hwaits⟩ := hbusy hstate
    exact settleWriter_inv (runWOps_ran _ _) (emit_fits hb hwaits hstate) hnone hfault
  | close a cmd later hstate hb =>
    obtain ⟨hnone, hwaits⟩ := hbusy hstate
    obtain ⟨rfl, rfl, hempty⟩ := writerWaits_close hb hwaits
    exact settleWriter_inv (runWOps_ran _ _) (closing_fits hstate hempty) hnone hfault

/-! ### The invariant of the reader (R41, R46, R48, R121) -/

/-- The width of the field a command reads (R205, R207, R209). -/
def fieldWidth : Instr → Option Nat
  | .rBit => some 1
  | .rBinary n => some n
  | .rByte => some 8
  | _ => none

/-- The rest of a body is one of its own command's, with a partial result below the next bit's weight (R48, R203,
R208). -/
inductive InBody : Instr → RRest → Prop
  | field {cmd : Instr} {n i : Nat} {v : Word} (hwidth : fieldWidth cmd = some n) (hn : n ≤ 32) (hi : i ≤ n)
      (hv : v.toNat < 2 ^ i) : InBody cmd (.field n i v)
  | unary {c : Nat} (hc : c ≤ Config.unaryMax) : InBody .rUnary (.unary c)
  | quotient {k c : Nat} (hk : k ≤ 31) (hc : c ≤ Config.unaryMax) : InBody (.rRice k) (.riceQuotient k c)
  | remainder {k q i : Nat} {v : Word} (hk : k ≤ 31) (hq : q ≤ Config.unaryMax) (hi : i ≤ k) (hv : v.toNat < 2 ^ i) :
      InBody (.rRice k) (.riceRemainder k q i v)
  | align {cmd : Instr} : InBody cmd .align

/-- A legal command's body is its own (R264). -/
theorem inBody_readerBody {cmd : Instr} (hpre : precondition cmd = true) : InBody cmd (readerBody cmd) := by
  cases cmd with
  | rBit => exact .field rfl (by decide) (by decide) (by decide)
  | rUnary => exact .unary (by decide)
  | rBinary n => exact .field rfl (by simpa [precondition, legalWidth] using hpre) (Nat.zero_le n) (by decide)
  | rRice k => exact .quotient (by simpa [precondition, legalParameter] using hpre) (by decide)
  | rByte => exact .field rfl (by decide) (by decide) (by decide)
  | _ => exact .align

/-- A waiting reader is in the body of its own command. -/
theorem inBody_of_readerWaits {r : Reader} {b : RBody} (hbody : r.body = some b) (h : readerWaits r = true) :
    InBody b.cmd b.rest := by
  unfold readerWaits at h
  rw [hbody] at h
  split at h
  case h_1 n i v e =>
    cases e
    simp only [Bool.and_eq_true, beq_iff_eq, decide_eq_true_eq] at h
    obtain ⟨⟨rfl, hi⟩, hv⟩ := h
    exact .field rfl (by decide) hi.le hv
  case h_2 m n i v e =>
    cases e
    simp only [Bool.and_eq_true, beq_iff_eq, decide_eq_true_eq] at h
    obtain ⟨⟨⟨rfl, hm⟩, hi⟩, hv⟩ := h
    exact .field rfl hm hi.le hv
  case h_3 n i v e =>
    cases e
    simp only [Bool.and_eq_true, beq_iff_eq, decide_eq_true_eq] at h
    obtain ⟨⟨rfl, hi⟩, hv⟩ := h
    exact .field rfl (by decide) hi.le hv
  case h_4 c e =>
    cases e
    exact .unary (by simpa using h)
  case h_5 m k c e =>
    cases e
    simp only [Bool.and_eq_true, beq_iff_eq, decide_eq_true_eq] at h
    obtain ⟨⟨rfl, hk⟩, hc⟩ := h
    exact .quotient hk hc
  case h_6 m k q i v e =>
    cases e
    simp only [Bool.and_eq_true, beq_iff_eq, decide_eq_true_eq] at h
    obtain ⟨⟨⟨⟨rfl, hk⟩, hq⟩, hi⟩, hv⟩ := h
    exact .remainder hk hq hi.le hv
  case h_7 => cases h

/-- A field read of a command waits inside it. -/
theorem readerWaits_field {cmd : Instr} {n i : Nat} {v : Word} {r : Reader} (hwidth : fieldWidth cmd = some n)
    (hn : n ≤ 32) (hi : i < n) (hv : v.toNat < 2 ^ i) :
    readerWaits { r with body := some ⟨cmd, .field n i v⟩ } = true := by
  cases cmd with
  | rBit => cases hwidth; simpa [readerWaits, hv] using hi
  | rBinary m => cases hwidth; simp [readerWaits, hn, hi, hv]
  | rByte => cases hwidth; simp [readerWaits, hi, hv]
  | _ => cases hwidth

/-- A bit position a body may end at (R41). -/
abbrev Positioned (r : Reader) : Prop := 1 ≤ r.bitPosition.toNat ∧ r.bitPosition.toNat ≤ 8

/-- How a run of a command's body may end for the invariant to hold once it is settled: at a legal position, or waiting
for a fetch inside the body (R41, R48, R81). -/
def ReadRunFits (cmd : Instr) : ReadRun Word RRest → Prop
  | .done _ u => Positioned u
  | .wait rest u =>
    u.bitPosition = 8#4 ∧ u.source = [] ∧ readerWaits { u with body := some ⟨cmd, rest⟩ } = true
  | .raise _ _ => True
  | .stuck => True

/-- A part that waits in the body, and after it a run that fits. -/
theorem andThenR_fits {α β : Type} {cmd : Instr} {x : ReadRun α β} {k : α → Reader → ReadRun Word RRest}
    {f : β → RRest} (hwait : ∀ p u, x = .wait p u → ReadRunFits cmd (.wait (f p) u))
    (hk : ∀ a u, x = .done a u → ReadRunFits cmd (k a u)) : ReadRunFits cmd (andThenR x k f) := by
  cases x with
  | done a u => exact hk a u rfl
  | wait p u => exact hwait p u rfl
  | raise e u => trivial
  | stuck => trivial

/-- The end of R_RICE leaves the position alone (R208). -/
theorem riceValue_fits {cmd : Instr} {k q : Nat} {v : Word} {r : Reader} (hr : Positioned r) :
    ReadRunFits cmd (riceValue k q v r) := by
  unfold riceValue
  split
  · trivial
  · exact hr

/-- The remainder of R_RICE fits it (R208). -/
theorem readRemainder_fits {k q i : Nat} {v : Word} {r : Reader} (hk : k ≤ 31) (hq : q ≤ Config.unaryMax)
    (hi : i ≤ k) (hv : v.toNat < 2 ^ i) (hr : Positioned r) :
    ReadRunFits (.rRice k) (readRemainder k q i v r) := by
  refine andThenR_fits (fun p u hx => ?_) fun a u hx => riceValue_fits (readBits_position hx hr)
  obtain ⟨h8, hsource, -, hlt, hp⟩ := readBits_wait hx hv (by omega)
  have hp1 : p.1 < k := by omega
  exact ⟨h8, hsource, by simp [readerWaits, hk, hq, hp1, hp]⟩

/-- A scan's count stays within UNARY_MAX (R203). -/
theorem scanUnary_le {c d : Nat} (hc : c ≤ Config.unaryMax) (h : d < c + scanFuel c) : d ≤ Config.unaryMax := by
  unfold scanFuel at h
  omega

/-- The rest of a body, run from a legal position, fits its command (R48). -/
theorem runRest_fits {cmd : Instr} {rest : RRest} {r : Reader} (hbody : InBody cmd rest)
    (hr : rest ≠ .align → Positioned r) : ReadRunFits cmd (runRest rest r) := by
  cases hbody with
  | @field _ n i v hwidth hn hi hv =>
    refine andThenR_fits (fun p u hx => ?_) fun a u hx => readBits_position hx (hr nofun)
    obtain ⟨h8, hsource, -, hlt, hp⟩ := readBits_wait hx hv (by omega)
    exact ⟨h8, hsource, readerWaits_field hwidth hn (by omega) hp⟩
  | unary hc =>
    refine andThenR_fits (fun d u hx => ?_) fun a u hx => (scanUnary_done hx).2.2
    obtain ⟨h8, hsource, -, hlt⟩ := scanUnary_wait hx
    exact ⟨h8, hsource, by simpa [readerWaits] using scanUnary_le hc hlt⟩
  | quotient hk hc =>
    refine andThenR_fits (fun d u hx => ?_) fun q u hx => ?_
    · obtain ⟨h8, hsource, -, hlt⟩ := scanUnary_wait hx
      exact ⟨h8, hsource, by simpa [readerWaits, hk] using scanUnary_le hc hlt⟩
    · obtain ⟨-, hlt, hu⟩ := scanUnary_done hx
      exact readRemainder_fits hk (scanUnary_le hc hlt) (Nat.zero_le _) (by decide) hu
  | remainder hk hq hi hv => exact readRemainder_fits hk hq hi hv (hr nofun)
  | align => exact ⟨show 1 ≤ (8#4).toNat by decide, show (8#4).toNat ≤ 8 by decide⟩

/-- Responding, waiting or entering the error after a fitting run gives the invariant (R121, R268). -/
theorem settleReader_inv {r r' : Reader} {x : ReadRun Word RRest} {cmd : Instr}
    (hran : ∀ u, readerAt x = some u → ReaderRan r u) (hx : ReadRunFits cmd x) (hbusy : r.state = .busy)
    (hresponse : r.response = none) (hfault : r.fault &&& 0xC0#8 = 0#8) (h : settleReader cmd x = some r') :
    ReaderInv r' := by
  cases x with
  | done a u =>
    cases h
    have hu := hran u rfl
    obtain ⟨hlo, hhi⟩ := hx
    exact ⟨hhi, fun _ => hlo, fun _ => rfl, nofun, hu.fault ▸ hfault, rfl⟩
  | wait rest u =>
    cases h
    have hu := hran u rfl
    obtain ⟨h8, hsource, hwaits⟩ := hx
    have hstate : u.state = .busy := hu.state.trans hbusy
    have hnone : u.response = none := hu.response.trans hresponse
    exact ⟨by simp [h8], by simp [hstate], fun hidle => absurd hstate hidle, fun _ => ⟨h8, hnone, hsource, hwaits⟩,
      hu.fault ▸ hfault, by simp [hnone]⟩
  | raise e u =>
    cases h
    have hu := hran u rfl
    have hposition : (BitVec.ofNat 4 (Config.freeBitPosition u.draws).val).toNat ≤ 8 := by
      have hlt := (Config.freeBitPosition u.draws).isLt
      rw [BitVec.toNat_ofNat]
      omega
    have hbit : BitVec.twoPow 8 (faultBit e) &&& 0xC0#8 = 0#8 := by cases e <;> decide
    refine ⟨hposition, ?_, fun _ => rfl, ?_, recordFault_and_zero (hu.fault ▸ hfault) hbit, ?_⟩
    · cases e <;> simp [stateAfterError]
    · cases e <;> simp [stateAfterError]
    · simp [errorResponse]
  | stuck => cases h

/-- Hardware reset establishes the invariant from any state (R300). -/
theorem resetReader_inv (r : Reader) : ReaderInv (resetReader r) := by
  simp [ReaderInv, Reader.reset]

/-- A refused command keeps the invariant: the state stays, a sticky bit and an error response are added (R268). -/
theorem failReader_inv {r : Reader} (e : Err) (h : ReaderInv r) (hready : readerCmdReady r = true) :
    ReaderInv (failReader e r) := by
  obtain ⟨hposition, hunread, hbody, -, hfault, -⟩ := h
  have hidle : r.state ≠ .busy := by
    intro hbusy
    simp [readerCmdReady, hbusy] at hready
  have hbit : BitVec.twoPow 8 (faultBit e) &&& 0xC0#8 = 0#8 := by cases e <;> decide
  exact ⟨hposition, hunread, hbody, fun hbusy => absurd hbusy hidle, recordFault_and_zero hfault hbit,
    by simp [errorResponse]⟩

/-- Outside READY the only command that runs is R_RESET (R266). -/
theorem ready_or_rReset {cmd : Instr} {state : RState} (h : runsReader cmd state = true) :
    state = .ready ∨ cmd = .rReset := by
  cases state with
  | ready => exact .inl rfl
  | broken => exact .inr (by simpa [runsReader] using h)
  | busy => cases h
  | dead => cases h

/-- Every move of the reader keeps its invariant. -/
theorem ReaderMove.inv {x : Input} {r r' : Reader} (h : ReaderMove x r r') (hr : ReaderInv r) : ReaderInv r' := by
  obtain ⟨hposition, hunread, hbody, hbusy, hfault, hresponse⟩ := id hr
  cases h with
  | stay => exact hr
  | reset => exact resetReader_inv r
  | fail e hready => exact failReader_inv e hr hready
  | start cmd _ hx hready hruns hpre hrun =>
    obtain ⟨-, hnone⟩ : r.state ≠ .busy ∧ r.response = none := by simpa [readerCmdReady] using hready
    refine settleReader_inv (r := { r with state := .busy }) (fun _ => runRest_ran)
      (runRest_fits (inBody_readerBody hpre) fun hreads => ?_) rfl hnone hfault hrun
    rcases ready_or_rReset hruns with hstate | rfl
    · exact ⟨hunread hstate, hposition⟩
    · exact absurd rfl hreads
  | take => exact ⟨hposition, hunread, hbody, fun hb => ⟨(hbusy hb).1, rfl, (hbusy hb).2.2⟩, hfault, rfl⟩
  | withdraw =>
    refine ⟨hposition, hunread, hbody, fun hb => ?_, hfault, hresponse⟩
    obtain ⟨h8, hnone, -, hwaits⟩ := hbusy hb
    exact ⟨h8, hnone, rfl, hwaits⟩
  | settle pins hidle =>
    refine ⟨hposition, hunread, hbody, fun hb => ?_, hfault, hresponse⟩
    obtain ⟨-, -, -, hwaits⟩ := hbusy hb
    simp [readerWaits, hidle.resolve_left (not_not.2 hb)] at hwaits
  | resume pins b _ hstate hb hrun =>
    obtain ⟨h8, hnone, -, hwaits⟩ := hbusy hstate
    exact settleReader_inv (r := { r with source := r.source ++ [pins] }) (fun _ => runRest_ran)
      (runRest_fits (inBody_of_readerWaits hb hwaits) fun _ => by simp [Positioned, h8]) hstate hnone hfault hrun

/-! ### The invariant of the machine -/

/-- The loopback transport delivers a byte of the output stream only (R92). -/
theorem loopedAfter_le (x : Input) {s : State} (h : s.looped ≤ (outputStream s.writer.history).length) :
    loopedAfter x s ≤ (outputStream s.writer.history).length := by
  by_cases hx : x = .loop
  · subst hx
    unfold loopedAfter undelivered
    cases hd : (outputStream s.writer.history).drop s.looped with
    | nil => simpa using h
    | cons b later =>
      have hlen := congrArg List.length hd
      simp only [List.length_drop, List.length_cons] at hlen
      simp only [List.head?_cons]
      omega
  · rwa [loopedAfter_of_ne_loop hx]

/-- The output stream only grows (R72, R74). -/
theorem outputStream_length_le {h h' : List WEvent} (hp : h <+: h') :
    (outputStream h).length ≤ (outputStream h').length :=
  (hp.filterMap _).length_le

/-- Settles O48: every move of each unit keeps that unit's invariant, and the output stream grows no slower than the
loopback transport delivers it. -/
theorem everyStepKeepsTheInvariant : Obligations.EveryStepKeepsTheInvariant := by
  rintro s t ⟨hw, hr, hl⟩ h
  rcases step_moves h with ⟨-, ew, er, el⟩ | ⟨x, later, -, mw, mr, el⟩
  · exact ⟨ew ▸ hw, er ▸ hr, by rw [el, ew]; exact hl⟩
  · exact ⟨mw.inv hw, mr.inv hr, el ▸ (loopedAfter_le x hl).trans (outputStream_length_le mw.history)⟩

end Sys2Proof.Machine
end

section
/-! SUPPORT. Transfers are never undone (20_memory.md R74, R90), and the sink's late answers (R72, R77): a body that
waits goes on where it stopped, so more answers settled beforehand and the same answers given later make one run,
`runWOps_withAnswers`. -/

namespace Sys2Proof.Machine

open Sys2Proof.Safety

/-! ### One input, one step, and the histories (R74, R89, R90) -/

theorem step_applyInput {s : State} {x : Input} {later : List Input} (hin : s.inputs = x :: later) :
    step s = applyInput x { s with inputs := later, clock := s.clock + 1 } := by
  simp [step, runInputs, hin, consumeInput]

/-- Fetches made stay made (R90, R301). -/
theorem ReaderMove.history {x : Input} {r r' : Reader} (h : ReaderMove x r r') : r.history <+: r'.history := by
  cases h with
  | start _ _ _ _ _ _ hrun => exact (startReader_frame hrun).history
  | resume _ _ _ _ _ hrun => exact (settleReader_frame (fun _ => runRest_ran) hrun).history
  | _ => exact List.prefix_refl _

/-- Settles O54: no move of a unit takes an event off its history (R74, R89, R90). -/
theorem transfersAreNeverUndone : Obligations.TransfersAreNeverUndone := by
  intro s t h
  rcases step_moves h with ⟨-, hw, hr, -⟩ | ⟨x, later, -, hw, hr, -⟩
  · rw [hw, hr]
    exact ⟨List.prefix_refl _, List.prefix_refl _⟩
  · exact ⟨hw.history, hr.history⟩

/-! ### Bodies in sequence (R143) -/

theorem andThenW_done_nil (x : WriteRun) : andThenW x .done [] = x := by
  cases x <;> simp [andThenW]

theorem andThenW_assoc (x : WriteRun) (k₁ k₂ : Writer → WriteRun) (later₁ later₂ : List WOp) :
    andThenW (andThenW x k₁ later₁) k₂ later₂ = andThenW x (fun u => andThenW (k₁ u) k₂ later₂) (later₁ ++ later₂) := by
  cases x <;> simp [andThenW]

theorem runWOps_cons (op : WOp) (later : List WOp) (w : Writer) :
    runWOps (op :: later) w = andThenW (runWOp op w) (runWOps later) later := rfl

theorem runWOps_singleton (op : WOp) (w : Writer) : runWOps [op] w = runWOp op w := andThenW_done_nil _

theorem runWOps_append (front later : List WOp) (w : Writer) :
    runWOps (front ++ later) w = andThenW (runWOps front w) (runWOps later) later := by
  induction front generalizing w with
  | nil => rfl
  | cons op front ih =>
    rw [List.cons_append, runWOps_cons, runWOps_cons, andThenW_assoc, funext ih]

/-! ### Answers that come later (R72, R77, log 1) -/

/-- The writer with more answers settled, and with another in-command state, which a run does not read. -/
def withAnswers (writes closes : List SinkAnswer) (body : Option WBody) (w : Writer) : Writer :=
  { w with sink := w.sink ++ writes, closes := w.closes ++ closes, body := body }

/-- A run that has ended stays as it is but for the change f of the writer; one that waits goes on with its rest. -/
def resumeRun (f : Writer → Writer) : WriteRun → WriteRun
  | .done w => .done (f w)
  | .wait w rest => runWOps rest (f w)
  | .raise w => .raise (f w)

theorem resumeRun_andThenW {f : Writer → Writer} {k : Writer → WriteRun} {later : List WOp} (x : WriteRun)
    (hk : ∀ u, k (f u) = resumeRun f (k u)) (hlater : ∀ u, runWOps later u = k u) :
    andThenW (resumeRun f x) k later = resumeRun f (andThenW x k later) := by
  cases x with
  | done u => exact hk u
  | wait u rest =>
    change andThenW (runWOps rest (f u)) k later = runWOps (rest ++ later) (f u)
    rw [runWOps_append, funext hlater]
  | raise u => rfl

section Answers

variable (writes closes : List SinkAnswer) (body : Option WBody)

theorem emitPending_withAnswers (w : Writer) :
    emitPending (withAnswers writes closes body w) = resumeRun (withAnswers writes closes body) (emitPending w) := by
  rcases emitPending_cases w with ⟨_, e⟩ | ⟨later, hs, e⟩ | ⟨later, hs, e⟩ <;> rw [e]
  · exact (runWOps_singleton .emit _).symm
  · simp [emitPending, sinkWrite, withAnswers, hs, resumeRun]
  · simp [emitPending, sinkWrite, withAnswers, hs, resumeRun]

theorem closeSink_withAnswers (w : Writer) :
    closeSink (withAnswers writes closes body w) = resumeRun (withAnswers writes closes body) (closeSink w) := by
  rcases closeSink_cases w with ⟨_, e⟩ | ⟨later, hs, e⟩ | ⟨later, hs, e⟩ <;> rw [e]
  · exact (runWOps_singleton .close _).symm
  · simp [closeSink, sinkClose, withAnswers, hs, resumeRun]
  · simp [closeSink, sinkClose, withAnswers, hs, resumeRun]

theorem putBit_withAnswers (b : Bool) (w : Writer) :
    putBit b (withAnswers writes closes body w) = resumeRun (withAnswers writes closes body) (putBit b w) := by
  by_cases h : w.pendingBitCount = 7#3
  · rw [putBit_full b h, putBit_full (w := withAnswers writes closes body w) b h, ← emitPending_withAnswers]
    rfl
  · rw [putBit_room b h, putBit_room (w := withAnswers writes closes body w) b h]
    rfl

theorem putZeros_withAnswers (n : Nat) (w : Writer) :
    putZeros n (withAnswers writes closes body w) = resumeRun (withAnswers writes closes body) (putZeros n w) := by
  induction n generalizing w with
  | zero => rfl
  | succ n ih =>
    change andThenW (putBit false _) (putZeros n) [.zeros n] = _
    rw [putBit_withAnswers, resumeRun_andThenW _ ih (runWOps_singleton (.zeros n))]
    rfl

theorem putBits_withAnswers (v : Word) (n i : Nat) (w : Writer) :
    putBits v n i (withAnswers writes closes body w) =
      resumeRun (withAnswers writes closes body) (putBits v n i w) := by
  induction n generalizing i w with
  | zero => rfl
  | succ n ih =>
    change andThenW (putBit _ _) (putBits v n (i + 1)) [.bits v (i + 1) n] = _
    rw [putBit_withAnswers, resumeRun_andThenW _ (ih (i + 1)) (runWOps_singleton (.bits v (i + 1) n))]
    rfl

theorem runWOp_withAnswers (op : WOp) (w : Writer) :
    runWOp op (withAnswers writes closes body w) = resumeRun (withAnswers writes closes body) (runWOp op w) := by
  cases op with
  | zeros n => exact putZeros_withAnswers writes closes body n w
  | bits v i n => exact putBits_withAnswers writes closes body v n i w
  | flush =>
    by_cases h : w.pendingBitCount = 0#3
    · simp [runWOp, flushPending, withAnswers, h, resumeRun]
    · simpa [runWOp, flushPending, withAnswers, h] using emitPending_withAnswers writes closes body w
  | emit => exact emitPending_withAnswers writes closes body w
  | close => exact closeSink_withAnswers writes closes body w

/-- A run with more answers settled is the run without them, resumed with them where it waits (R72, R77). -/
theorem runWOps_withAnswers (ops : List WOp) (w : Writer) :
    runWOps ops (withAnswers writes closes body w) = resumeRun (withAnswers writes closes body) (runWOps ops w) := by
  induction ops generalizing w with
  | nil => rfl
  | cons op later ih =>
    rw [runWOps_cons, runWOps_cons, runWOp_withAnswers, resumeRun_andThenW _ ih fun _ => rfl]

end Answers

/-- A body waits at an emit or at a close that has no answer (R315). -/
theorem runWOps_waits_at {ops rest : List WOp} {w u : Writer} (h : runWOps ops w = .wait u rest) :
    (∃ later, rest = .emit :: later ∧ u.sink = []) ∨ ∃ later, rest = .close :: later ∧ u.closes = [] := by
  induction ops generalizing w with
  | nil => cases h
  | cons op later ih =>
    rcases andThenW_wait h with ⟨v, _, hk⟩ | ⟨front, hx, rfl⟩
    · exact ih hk
    · rcases runWOp_wait hx with ⟨_, hs, tl, rfl, _⟩ | ⟨_, hs, rfl, _⟩
      · exact .inl ⟨tl ++ later, rfl, hs⟩
      · exact .inr ⟨later, rfl, hs⟩

theorem runWOps_emit_unanswered {w : Writer} (later : List WOp) (h : w.sink = []) :
    runWOps (.emit :: later) w = .wait w (.emit :: later) := by
  simp [runWOps_cons, runWOp, emitPending, sinkWrite, h, andThenW]

theorem runWOps_close_unanswered {w : Writer} (later : List WOp) (h : w.closes = []) :
    runWOps (.close :: later) w = .wait w (.close :: later) := by
  simp [runWOps_cons, runWOp, closeSink, sinkClose, h, andThenW]

/-- The settled writer does not show which in-command state the run began with (R38). -/
theorem settleWriter_runWOps_body (cmd : Instr) (ops : List WOp) (w : Writer) (body : Option WBody) :
    settleWriter cmd (runWOps ops { w with body := body }) = settleWriter cmd (runWOps ops w) := by
  have hw : { w with body := body } = withAnswers [] [] body w := by simp [withAnswers]
  rw [hw, runWOps_withAnswers]
  cases hx : runWOps ops w with
  | done u => simp [resumeRun, withAnswers, settleWriter]
  | raise u => simp [resumeRun, withAnswers, settleWriter, enterWriter]
  | wait u rest =>
    have hwaits : resumeRun (withAnswers [] [] body) (.wait u rest) = .wait { u with body := body } rest := by
      rcases runWOps_waits_at hx with ⟨later, rfl, hs⟩ | ⟨later, rfl, hs⟩
      · simp [resumeRun, withAnswers, runWOps_emit_unanswered, hs]
      · simp [resumeRun, withAnswers, runWOps_close_unanswered, hs]
    rw [hwaits]
    rfl

/-- While a command's body waits the unit stays as BUSY as it was: the close comes last (R152). -/
theorem writerBody_wait_state {cmd : Instr} {w u : Writer} {rest : List WOp}
    (h : runWOps (writerBody cmd) w = .wait u rest) : u.state = w.state := by
  by_cases hcmd : cmd = .wClose
  · subst hcmd
    change andThenW (flushPending w) (runWOps [.close]) [.close] = _ at h
    have hflush := runWOp_state (op := .flush) (by decide) w
    rcases andThenW_wait h with ⟨v, hv, hk⟩ | ⟨front, hx, -⟩
    · rw [show runWOp .flush w = .done v from hv] at hflush
      rw [runWOps_singleton] at hk
      rcases runWOp_wait hk with ⟨hne, _⟩ | ⟨_, _, _, rfl⟩
      · exact absurd rfl hne
      · exact hflush
    · rwa [show runWOp .flush w = .wait u front from hx] at hflush
  · have hstate := runWOps_state (close_notMem_writerBody hcmd) w
    rwa [h] at hstate

theorem resumeWriter_idle {w : Writer} (h : w.state ≠ .busy) : resumeWriter w = w := by
  unfold resumeWriter
  split
  next hb _ => exact absurd hb h
  next => rfl

theorem writerEndState_ne_busy (cmd : Instr) : writerEndState cmd ≠ .busy := by
  unfold writerEndState
  split <;> decide

theorem resumeWriter_busy {w : Writer} {cmd : Instr} {rest : List WOp} (hstate : w.state = .busy)
    (hbody : w.body = some ⟨cmd, rest⟩) : resumeWriter w = settleWriter cmd (runWOps rest w) := by
  simp [resumeWriter, hstate, hbody]

/-- Settling a run and then giving more answers is settling the run with those answers (R72, R77). -/
theorem resumeWriter_settleWriter (writes closes : List SinkAnswer) (body : Option WBody) (cmd : Instr) {x : WriteRun}
    (hwait : ∀ u rest, x = .wait u rest → u.state = .busy) :
    resumeWriter (withAnswers writes closes (settleWriter cmd x).body (settleWriter cmd x)) =
      settleWriter cmd (resumeRun (withAnswers writes closes body) x) := by
  cases x with
  | done u => exact resumeWriter_idle (writerEndState_ne_busy cmd)
  | raise u => exact resumeWriter_idle (by simp [withAnswers, settleWriter])
  | wait u rest =>
    exact (resumeWriter_busy (w := withAnswers writes closes (some ⟨cmd, rest⟩) u) (hwait u rest rfl) rfl).trans
      (settleWriter_runWOps_body cmd rest (withAnswers writes closes body u) (some ⟨cmd, rest⟩))

/-- The command cycle with more answers settled is the cycle without them, its unit resumed with them (R268). -/
theorem cycleWriter_withAnswers (writes closes : List SinkAnswer) (cmd : Instr) (pre : Bool) {w : Writer}
    (hidle : w.state ≠ .busy) :
    cycleWriter cmd pre (writerBody cmd) (withAnswers writes closes w.body w) =
      resumeWriter (withAnswers writes closes (cycleWriter cmd pre (writerBody cmd) w).body
        (cycleWriter cmd pre (writerBody cmd) w)) := by
  unfold cycleWriter
  by_cases hstate : w.state = .ready
  · cases pre with
    | false => simp [hstate, withAnswers, resumeWriter_idle, failWriter]
    | true =>
      have hlate := resumeWriter_settleWriter writes closes w.body cmd
        (x := runWOps (writerBody cmd) { w with state := .busy }) fun u rest => writerBody_wait_state
      rw [← runWOps_withAnswers] at hlate
      simpa [hstate, withAnswers] using hlate.symm
  · simp [hstate, hidle, withAnswers, resumeWriter_idle, failWriter]

/-- A writer command with more answers settled is the command without them, its unit resumed with them. -/
theorem exec_withAnswers {s t : State} {i : Instr} (writes closes : List SinkAnswer) (hport : portOf i = .writer)
    (hready : cmdReady .writer s = true) (h : exec i s = .next t) :
    exec i { s with writer := withAnswers writes closes s.writer.body s.writer } =
      .next { t with writer := resumeWriter (withAnswers writes closes t.writer.body t.writer) } := by
  have hidle : s.writer.state ≠ .busy := by
    intro hbusy
    simp [cmdReady, writerCmdReady, hbusy] at hready
  have hready' : cmdReady .writer { s with writer := withAnswers writes closes s.writer.body s.writer } = true := hready
  rw [exec_writer hport, writerCommand, if_pos hready] at h
  rw [exec_writer hport, writerCommand, if_pos hready']
  cases h
  simp only [cycleWriter_withAnswers writes closes i (precondition i) hidle]

/-- Settles O29: the answer settled beforehand and the one given later make one run. -/
theorem lateSinkAnswersGiveTheSameRun : Obligations.LateSinkAnswersGiveTheSameRun := by
  intro s t i a hport hready h
  refine ⟨?_, ?_, fun hoffer => ?_, fun hoffer => ?_⟩
  · simpa [withAnswers, postSink] using exec_withAnswers [a] [] hport hready h
  · simpa [withAnswers, postClose] using exec_withAnswers [] [a] hport hready h
  · have hsome : (sinkOffer t).isSome = true := Option.isSome_iff_ne_none.2 hoffer
    cases a <;> simp [sinkEdge_eq, hsome]
  · cases a <;> simp [closeEdge_eq, hoffer]

end Sys2Proof.Machine
end

section
/-! SUPPORT. The writer's two handshakes, edge by edge (R75, R77): what an offered transfer's own edge does, and that
nothing else but a reset moves a writer that waits for it. -/

namespace Sys2Proof.Machine

open Sys2Proof.Safety

/-- A writer that offers a byte, waiting at the emit of its own body with no answer (R75). -/
structure OffersByte (w : Writer) (cmd : Instr) (later : List WOp) : Prop where
  busy : w.state = .busy
  body : w.body = some ⟨cmd, .emit :: later⟩
  sink : w.sink = []
  closing : WOp.close ∉ later ∨ later = [.close]

theorem offersByte_of_sinkOffer {s : State} {b : Byte} (hinv : WriterInv s.writer) (h : sinkOffer s = some b) :
    s.writer.pendingByte = b ∧ ∃ cmd later, OffersByte s.writer cmd later := by
  obtain ⟨hstate, cmd, later, hbody⟩ := sinkOffer_isSome (s := s) (by simp [h])
  have hbyte : s.writer.pendingByte = b := by simpa [sinkOffer, hstate, hbody] using h
  obtain ⟨-, -, -, hbusy, -, -⟩ := hinv
  obtain ⟨-, hwaits⟩ := hbusy hstate
  simp only [writerWaits, hbody, Bool.and_eq_true, List.isEmpty_iff] at hwaits
  obtain ⟨⟨hsink, -⟩, hlater⟩ := hwaits
  refine ⟨hbyte, cmd, later, hstate, hbody, hsink, ?_⟩
  by_cases hcmd : cmd = .wClose
  · exact .inr (by simpa [hcmd] using hlater)
  · exact .inl (by simpa [hcmd] using hlater)

/-- A writer that requests the close, at the end of W_CLOSE with an empty accumulator and no answer (R77, R152). -/
theorem closing_of_closeOffer {s : State} (hinv : WriterInv s.writer) (h : closeOffer s = true) :
    s.writer.state = .busy ∧ s.writer.body = some ⟨.wClose, [.close]⟩ ∧ s.writer.closes = [] := by
  obtain ⟨hstate, cmd, later, hbody⟩ := closeOffer_true h
  obtain ⟨-, -, -, hbusy, -, -⟩ := hinv
  obtain ⟨-, hwaits⟩ := hbusy hstate
  obtain ⟨rfl, rfl, -⟩ := writerWaits_close hbody hwaits
  simp only [writerWaits, hbody, Bool.and_eq_true, List.isEmpty_iff] at hwaits
  obtain ⟨⟨⟨hcloses, -⟩, -⟩, -⟩ := hwaits
  exact ⟨hstate, hbody, hcloses⟩

/-- A body without a close, with no answer to its writes, makes no transfer, whatever closes are settled. -/
theorem runWOps_unanswered {ops : List WOp} {w : Writer} (hops : WOp.close ∉ ops) (hsink : w.sink = []) :
    (reached (runWOps ops w)).history = w.history ∧ (reached (runWOps ops w)).sink = [] ∧
      (reached (runWOps ops w)).closes = w.closes := by
  have hrun : runWOps ops w =
      resumeRun (withAnswers [] w.closes w.body) (runWOps ops { w with closes := [] }) := by
    rw [← runWOps_withAnswers]
    simp [withAnswers]
  have hran := runWOps_ran ops { w with closes := [] }
  have hsink' : (reached (runWOps ops { w with closes := [] })).sink = [] := by simpa [hsink] using hran.sink
  have hcloses' : (reached (runWOps ops { w with closes := [] })).closes = [] := by simpa using hran.closes
  have hhistory : (reached (runWOps ops { w with closes := [] })).history = w.history := by
    refine (hran.history.eq_of_length ?_).symm
    have hmoved := hran.moved
    rw [hsink', hcloses'] at hmoved
    simpa [hsink] using hmoved.symm
  have hreached : reached (runWOps ops w) =
      withAnswers [] w.closes w.body (reached (runWOps ops { w with closes := [] })) := by
    rw [hrun]
    cases hx : runWOps ops { w with closes := [] } with
    | done u => rfl
    | raise u => rfl
    | wait u rest =>
      obtain ⟨hnone, later, rfl, -⟩ := runWOps_wait hops hx
      rw [resumeRun, runWOps_emit_unanswered later (by simp [withAnswers, hnone])]
      rfl
  rw [hreached]
  exact ⟨hhistory, by simp [withAnswers, hsink'], by simp [withAnswers, hcloses']⟩

theorem settleWriter_transfers (cmd : Instr) (x : WriteRun) :
    (settleWriter cmd x).history = (reached x).history ∧ (settleWriter cmd x).sink = (reached x).sink ∧
      (settleWriter cmd x).closes = (reached x).closes := by
  cases x <;> exact ⟨rfl, rfl, rfl⟩

/-- The emit that fails ends the body (R73, R143). -/
theorem runWOps_emit_failed (later : List WOp) (answers : List SinkAnswer) (w : Writer) :
    runWOps (.emit :: later) { w with sink := .failed :: answers } =
      .raise { w with sink := answers, history := w.history ++ [.emit w.pendingByte .failed] } := by
  simp [runWOps_cons, runWOp, emitPending, sinkWrite, andThenW]

/-- The writer after an accepted emit: the event recorded, the accumulator empty (R72, R141). -/
def afterEmit (answers : List SinkAnswer) (w : Writer) : Writer :=
  { w with
    sink := answers
    history := w.history ++ [.emit w.pendingByte .accepted]
    pendingByte := 0x00#8
    pendingBitCount := 0#3 }

/-- The emit that is accepted lets the body go on (R141, R142). -/
theorem runWOps_emit_accepted (later : List WOp) (answers : List SinkAnswer) (w : Writer) :
    runWOps (.emit :: later) { w with sink := .accepted :: answers } = runWOps later (afterEmit answers w) := by
  simp [runWOps_cons, runWOp, emitPending, sinkWrite, andThenW, afterEmit]

/-- With no answer to its writes, what is left of a body after an emit makes at most the close, if that is settled. -/
theorem runWOps_at_most_a_close {later : List WOp} {w : Writer} (hsink : w.sink = [])
    (hlater : WOp.close ∉ later ∨ later = [.close]) :
    (reached (runWOps later w)).sink = [] ∧
      ∃ closing, (reached (runWOps later w)).history = w.history ++ closing ∧
        (closing = [] ∨ ∃ a rest, w.closes = a :: rest ∧ closing = [.close a]) := by
  rcases hlater with hops | rfl
  · obtain ⟨hh, hs, -⟩ := runWOps_unanswered hops hsink
    exact ⟨hs, [], by simpa using hh, .inl rfl⟩
  · rw [runWOps_singleton]
    change (reached (closeSink w)).sink = [] ∧ ∃ closing, (reached (closeSink w)).history = w.history ++ closing ∧ _
    rcases closeSink_cases w with ⟨_, e⟩ | ⟨rest, hc, e⟩ | ⟨rest, hc, e⟩ <;> rw [e]
    · exact ⟨hsink, [], (List.append_nil _).symm, .inl rfl⟩
    · exact ⟨hsink, _, rfl, .inr ⟨_, rest, hc, rfl⟩⟩
    · exact ⟨hsink, _, rfl, .inr ⟨_, rest, hc, rfl⟩⟩

/-- Nothing but a reset and the edge of its own transfer moves a BUSY writer (R315). -/
theorem writerAfter_waiting {x : Input} {w : Writer} (hbusy : w.state = .busy) (hrst : x ≠ .rst)
    (hsink : ∀ err, x = .sink ⟨true, err⟩ → sinkOffer (writerAlone w) = none)
    (hclose : ∀ err, x = .close ⟨true, err⟩ → closeOffer (writerAlone w) = false) :
    ∃ response taken, writerAfter x w = { w with response := response, taken := taken } := by
  have stay : ∃ response taken, w = { w with response := response, taken := taken } := ⟨w.response, w.taken, rfl⟩
  cases x with
  | rst => exact absurd rfl hrst
  | command p word =>
    cases p with
    | writer =>
      have hsame : writerAfter (.command .writer word) w = w := if_neg (by simp [writerCmdReady, hbusy])
      rwa [hsame]
    | reader => exact stay
  | take p =>
    cases p with
    | writer => exact ⟨none, w.taken ++ w.response.toList, rfl⟩
    | reader => exact stay
  | sink pins =>
    obtain ⟨ready, err⟩ := pins
    have hsame : writerAfter (.sink ⟨ready, err⟩) w = w := by
      change (sinkEdge ⟨ready, err⟩ (writerAlone w)).writer = w
      cases ready with
      | false => simp [sinkEdge_eq, writerAlone]
      | true => rw [sinkEdge_eq, if_neg (by simp [hsink err rfl])]; rfl
    rwa [hsame]
  | close pins =>
    obtain ⟨ready, err⟩ := pins
    have hsame : writerAfter (.close ⟨ready, err⟩) w = w := by
      change (closeEdge ⟨ready, err⟩ (writerAlone w)).writer = w
      cases ready with
      | false => simp [closeEdge_eq, writerAlone]
      | true => rw [closeEdge_eq, if_neg (by simp [hclose err rfl])]; rfl
    rwa [hsame]
  | source ack pins => exact stay
  | reposition => exact stay
  | loop => exact stay

/-- A writer asks for one transfer at a time (R75, R77). -/
theorem closeOffer_of_sinkOffer {s : State} {b : Byte} (h : sinkOffer s = some b) : closeOffer s = false := by
  obtain ⟨hstate, cmd, later, hbody⟩ := sinkOffer_isSome (s := s) (by simp [h])
  simp [closeOffer, hbody]

theorem sinkOffer_of_closeOffer {s : State} (h : closeOffer s = true) : sinkOffer s = none := by
  obtain ⟨hstate, cmd, later, hbody⟩ := closeOffer_true h
  simp [sinkOffer, hbody]

/-- A step that leaves the writer's body where it waits leaves its offers and its history as they are. -/
theorem step_waiting_writer {s t : State} {x : Input} {later : List Input} (hin : s.inputs = x :: later)
    (h : step s = .next t) (hbusy : s.writer.state = .busy) (hrst : x ≠ .rst)
    (hsink : ∀ err, x = .sink ⟨true, err⟩ → sinkOffer s = none)
    (hclose : ∀ err, x = .close ⟨true, err⟩ → closeOffer s = false) :
    sinkOffer t = sinkOffer s ∧ closeOffer t = closeOffer s ∧ t.writer.history = s.writer.history := by
  obtain ⟨hw, -, -⟩ := step_units hin h
  obtain ⟨response, taken, hsame⟩ := writerAfter_waiting hbusy hrst
    (fun err hx => (sinkOffer_writerAlone s).trans (hsink err hx))
    (fun err hx => (closeOffer_writerAlone s).trans (hclose err hx))
  rw [hsame] at hw
  refine ⟨?_, ?_, by rw [hw]⟩
  · unfold sinkOffer
    rw [hw]
  · unfold closeOffer
    rw [hw]

/-- The edge of an offered byte with ready = 1 runs the waiting body on with its answer (R75). -/
theorem step_sink_edge {s : State} {later : List Input} {err : Bool} {cmd : Instr} {rest : List WOp}
    (hoffer : OffersByte s.writer cmd rest) (hin : s.inputs = .sink ⟨true, err⟩ :: later) :
    step s = .next
      { s with
        inputs := later
        clock := s.clock + 1
        writer :=
          settleWriter cmd
            (runWOps (.emit :: rest) { s.writer with sink := [if err then .failed else .accepted] }) } := by
  obtain ⟨hstate, hbody, hsink, -⟩ := hoffer
  have hsome : sinkOffer { s with inputs := later, clock := s.clock + 1 } = some s.writer.pendingByte := by
    simp [sinkOffer, hstate, hbody]
  have hpost := postSink_busy (s := { s with inputs := later, clock := s.clock + 1 })
    (if err then .failed else .accepted) hstate hbody
  simp only [hsink, List.nil_append] at hpost
  rw [step_applyInput hin, ← hpost, applyInput, sinkEdge_eq, if_pos (by simp [hsome])]
  rfl

/-- The edge of a requested close with ready = 1 runs the waiting body on with its answer (R77). -/
theorem step_close_edge {s : State} {later : List Input} {err : Bool} (hoffer : closeOffer s = true)
    (hinv : WriterInv s.writer) (hin : s.inputs = .close ⟨true, err⟩ :: later) :
    step s = .next
      { s with
        inputs := later
        clock := s.clock + 1
        writer :=
          settleWriter .wClose (closeSink { s.writer with closes := [if err then .failed else .accepted] }) } := by
  obtain ⟨hstate, hbody, hcloses⟩ := closing_of_closeOffer hinv hoffer
  have hsome : closeOffer { s with inputs := later, clock := s.clock + 1 } = true := hoffer
  have hpost := postClose_busy (s := { s with inputs := later, clock := s.clock + 1 })
    (if err then .failed else .accepted) hstate hbody
  simp only [hcloses, List.nil_append, runWOps_singleton, runWOp] at hpost
  rw [step_applyInput hin, ← hpost, applyInput, closeEdge_eq, if_pos (by simp [hsome])]
  rfl

/-- Settles O59: an offered byte waits for its own edge (R72, R75). -/
theorem sinkPortTransfersWhenReady : Obligations.SinkPortTransfersWhenReady := by
  refine ⟨fun s later pins hidle hin => ?_, fun s b later hinv hb => ?_⟩
  · have hnone : sinkOffer { s with inputs := later, clock := s.clock + 1 } = none := hidle
    simp [step_applyInput hin, applyInput, sinkEdge_eq, hnone]
  obtain ⟨rfl, cmd, rest, hoffer⟩ := offersByte_of_sinkOffer hinv.1 hb
  refine ⟨fun err hin => ?_, fun hin => ?_, fun hin => ?_, fun x t hin hrst hother h => ?_⟩
  · simp [step_applyInput hin, applyInput, sinkEdge_eq]
  · have hstep := step_sink_edge hoffer hin
    simp only [Bool.false_eq_true, if_false, runWOps_emit_accepted] at hstep
    obtain ⟨hhistory, hsink, -⟩ := settleWriter_transfers cmd (runWOps rest (afterEmit [] s.writer))
    obtain ⟨hs, closing, hh, hclosing⟩ := runWOps_at_most_a_close (w := afterEmit [] s.writer) rfl hoffer.closing
    refine ⟨_, closing, hstep, (hhistory.trans hh).trans ?_, hclosing, hsink.trans hs, rfl⟩
    simp [afterEmit]
  · have hstep := step_sink_edge hoffer hin
    simp only [if_true, runWOps_emit_failed] at hstep
    exact ⟨_, hstep, rfl, rfl, rfl, rfl, rfl, rfl, rfl⟩
  · obtain ⟨hsame, -, hhistory⟩ := step_waiting_writer hin h hoffer.busy hrst
      (fun err hx => absurd hx (hother err)) (fun _ _ => closeOffer_of_sinkOffer hb)
    exact ⟨hsame.trans hb, hhistory⟩

/-- Settles O60: the close waits for its own edge (R77, R152). -/
theorem closeHandshakeIsItsOwn : Obligations.CloseHandshakeIsItsOwn := by
  refine ⟨fun s later pins hidle hin => ?_, fun s later hinv hc => ?_⟩
  · have hnone : closeOffer { s with inputs := later, clock := s.clock + 1 } = false := hidle
    simp [step_applyInput hin, applyInput, closeEdge_eq, hnone]
  obtain ⟨hstate, -, hcloses⟩ := closing_of_closeOffer hinv.1 hc
  refine ⟨fun err hin => ?_, fun hin => ?_, fun hin => ?_, fun x t hin hrst hother h => ?_⟩
  · simp [step_applyInput hin, applyInput, closeEdge_eq]
  · rw [step_close_edge hc hinv.1 hin]
    simp [closeSink, sinkClose, settleWriter, writerEndState, okResponse, hcloses]
  · exact ⟨_, step_close_edge hc hinv.1 hin, rfl, rfl, rfl, rfl, rfl, rfl, rfl⟩
  · obtain ⟨hnone, hsame, hhistory⟩ := step_waiting_writer hin h hstate hrst
      (fun _ _ => sinkOffer_of_closeOffer hc) (fun err hx => absurd hx (hother err))
    exact ⟨hsame.trans hc, hnone.trans (sinkOffer_of_closeOffer hc), hhistory⟩

end Sys2Proof.Machine
end

section
/-! SUPPORT. A writer body as the bits it places (R83 to R85, R141): whatever the statements, the writer comes to emit
number j of the stream of pending and placed bits with the j bytes before it made. -/

namespace Sys2Proof.Machine

open Sys2Proof.Safety

/-! ### Bytes as bits (R83, R84) -/

theorem bitsValue_testBits (x n : Nat) : bitsValue ((List.range n).map x.testBit) = x % 2 ^ n := by
  induction n generalizing x with
  | zero => simp [bitsValue, Nat.mod_one]
  | succ n ih =>
    have hshift : x.testBit ∘ Nat.succ = (x / 2).testBit := by
      funext i
      simp [Nat.testBit_succ]
    rw [List.range_succ_eq_map, List.map_cons, List.map_map, hshift, bitsValue, ih, pow_succ', Nat.mod_mul]
    simp only [Nat.testBit_zero]
    rcases Nat.mod_two_eq_zero_or_one x with h | h <;> simp [h]

/-- A byte is packed from its own bits. -/
theorem packByte_byteBits (b : Byte) : packByte (byteBits b) = b := by
  have hvalue : bitsValue (byteBits b) = b.toNat % 2 ^ 8 := bitsValue_testBits b.toNat 8
  rw [packByte, hvalue, Nat.mod_eq_of_lt b.isLt, BitVec.ofNat_toNat, BitVec.setWidth_eq]

theorem take_byteBits {c : Nat} (b : Byte) (hc : c ≤ 8) : (byteBits b).take c = (List.range c).map b.getLsbD := by
  rw [byteBits, ← List.map_take, List.take_range, Nat.min_eq_left hc]

theorem pendingBits_length (w : Writer) : (pendingBits w).length = w.pendingBitCount.toNat := by
  have hc : w.pendingBitCount.toNat < 8 := w.pendingBitCount.isLt
  simp [pendingBits, take_byteBits _ hc.le]

/-- PutBit's byte holds the pending bits and then the new one (R34, R141). -/
theorem placeBit_bits {w : Writer} (b : Bool) (hclean : PendingClean w) :
    (byteBits (placeBit b w)).take (w.pendingBitCount.toNat + 1) = pendingBits w ++ [b] := by
  have hc : w.pendingBitCount.toNat < 8 := w.pendingBitCount.isLt
  have hbelow : ∀ i < w.pendingBitCount.toNat, (placeBit b w).getLsbD i = w.pendingByte.getLsbD i := by
    intro i hi
    cases b with
    | false => rfl
    | true => simp [placeBit, BitVec.getLsbD_twoPow, hi.ne']
  have habove : w.pendingByte.getLsbD w.pendingBitCount.toNat = false := Nat.testBit_lt_two_pow hclean
  have hnew : (placeBit b w).getLsbD w.pendingBitCount.toNat = b := by
    cases b with
    | false => exact habove
    | true => simp [placeBit, hc]
  rw [take_byteBits _ hc, List.range_succ, List.map_append, pendingBits, take_byteBits _ hc.le, List.map_cons,
    List.map_nil, hnew]
  exact congrArg (· ++ [b]) (List.map_congr_left fun i hi => hbelow i (List.mem_range.1 hi))

theorem streamByte_zero {front : List Bool} (bits : List Bool) (h : front.length = 8) :
    streamByte (front ++ bits) 0 = packByte front := by
  simp [streamByte, ← h]

theorem streamByte_succ {front : List Bool} (bits : List Bool) (j : Nat) (h : front.length = 8) :
    streamByte (front ++ bits) (j + 1) = streamByte bits j := by
  rw [streamByte, streamByte, show 8 * (j + 1) = front.length + 8 * j by omega, List.drop_length_add_append]

theorem streamBytes_succ {front : List Bool} (bits : List Bool) (j : Nat) (h : front.length = 8) :
    streamBytes (front ++ bits) (j + 1) = packByte front :: streamBytes bits j := by
  rw [streamBytes, List.range_succ_eq_map, List.map_cons, streamByte_zero bits h, List.map_map]
  exact congrArg _ (List.map_congr_left fun i _ => streamByte_succ bits i h)

/-! ### Bodies that place bits (R145 to R150) -/

/-- The part of a body is PutBit of these bits, one after another (R141). -/
inductive PlacesBits : (Writer → WriteRun) → List Bool → Prop
  | nil : PlacesBits .done []
  | cons {k : Writer → WriteRun} {bits : List Bool} (b : Bool) (later : List WOp) (hk : PlacesBits k bits) :
      PlacesBits (fun w => andThenW (putBit b w) k later) (b :: bits)

theorem PlacesBits.append {f k : Writer → WriteRun} {xs ys : List Bool} (later : List WOp) (hf : PlacesBits f xs)
    (hk : PlacesBits k ys) : PlacesBits (fun w => andThenW (f w) k later) (xs ++ ys) := by
  induction hf with
  | nil => exact hk
  | cons b next _ ih =>
    simp only [andThenW_assoc]
    exact .cons b _ ih

theorem zeros_places (n : Nat) : PlacesBits (runWOp (.zeros n)) (List.replicate n false) := by
  induction n with
  | zero => exact .nil
  | succ n ih => exact .cons false [.zeros n] ih

theorem putBits_places (v : Word) (n i : Nat) :
    PlacesBits (putBits v n i) ((List.range n).map fun j => v.getLsbD (i + j)) := by
  induction n generalizing i with
  | zero => exact .nil
  | succ n ih =>
    have hbits : ((List.range (n + 1)).map fun j => v.getLsbD (i + j)) =
        v.getLsbD i :: (List.range n).map fun j => v.getLsbD (i + 1 + j) := by
      simp [List.range_succ_eq_map, Nat.add_assoc, Nat.add_comm 1]
    rw [hbits]
    exact .cons (v.getLsbD i) [.bits v (i + 1) n] (ih (i + 1))

theorem field_places (v : Word) (n : Nat) : PlacesBits (runWOp (.bits v 0 n)) (fieldBits v n) := by
  have h := putBits_places v n 0
  simp only [Nat.zero_add] at h
  exact h

theorem runWOps_singleton_places {op : WOp} {bits : List Bool} (h : PlacesBits (runWOp op) bits) :
    PlacesBits (runWOps [op]) bits := by
  rwa [funext (runWOps_singleton op)]

theorem runWOps_cons_places {op : WOp} {later : List WOp} {xs ys : List Bool} (h : PlacesBits (runWOp op) xs)
    (hlater : PlacesBits (runWOps later) ys) : PlacesBits (runWOps (op :: later)) (xs ++ ys) :=
  h.append later hlater

/-- The body of a command places the command's bits (R145 to R150). -/
theorem writerBody_places {i : Instr} (h : placesBits i = true) :
    PlacesBits (runWOps (writerBody i)) (placedBits i) := by
  cases i with
  | wBit v => exact runWOps_singleton_places (field_places v 1)
  | wZeroes v => exact runWOps_singleton_places (zeros_places v.toNat)
  | wUnary v =>
    exact runWOps_cons_places (zeros_places v.toNat) (runWOps_singleton_places (field_places 1#32 1))
  | wBinary v n => exact runWOps_singleton_places (field_places v n)
  | wByte v => exact runWOps_singleton_places (field_places v 8)
  | wRice v k =>
    have hrice := runWOps_cons_places (zeros_places (riceQuotient v k))
      (runWOps_cons_places (field_places 1#32 1) (runWOps_singleton_places (field_places (riceRemainder v k) k)))
    rw [← List.append_assoc] at hrice
    exact hrice
  | _ => cases h

theorem portOf_of_placesBits {i : Instr} (h : placesBits i = true) : portOf i = .writer := by
  cases i <;> simp_all [placesBits, portOf, opPort, opcode]

/-! ### The emits of a bit stream (R85, R141) -/

/-- The writer at emit number j of a bit stream, the bytes before it accepted (R72, R141). -/
def atEmit (stream : List Bool) (j : Nat) (answers : List SinkAnswer) (w : Writer) : Writer :=
  { w with
    pendingByte := streamByte stream j
    pendingBitCount := 7#3
    sink := answers
    history := w.history ++ (streamBytes stream j).map (WEvent.emit · .accepted) }

theorem emitPending_accepted {w : Writer} {answers : List SinkAnswer} (h : w.sink = .accepted :: answers) :
    emitPending w = .done (afterEmit answers w) := by
  simp [emitPending, sinkWrite, h, afterEmit]

theorem atEmit_zero {front : List Bool} (bits : List Bool) (answers : List SinkAnswer) (w : Writer)
    (h : front.length = 8) :
    atEmit (front ++ bits) 0 answers w =
      { w with pendingByte := packByte front, pendingBitCount := 7#3, sink := answers } := by
  simp [atEmit, streamByte_zero bits h, streamBytes]

theorem atEmit_succ {front : List Bool} (bits : List Bool) (j : Nat) (answers used : List SinkAnswer) (w : Writer)
    (h : front.length = 8) :
    atEmit (front ++ bits) (j + 1) answers w =
      atEmit bits j answers (afterEmit used { w with pendingByte := packByte front }) := by
  simp [atEmit, afterEmit, streamByte_succ bits j h, streamBytes_succ bits j h]

/-- PutBit with room for its bit moves it from the stream to come to the pending bits (R141). -/
theorem putBit_pendingBits {w : Writer} (b : Bool) (hclean : PendingClean w) (hcount : w.pendingBitCount ≠ 7#3) :
    ∃ u, putBit b w = .done u ∧ PendingClean u ∧ pendingBits u = pendingBits w ++ [b] ∧ u.sink = w.sink ∧
      ∀ stream j answers, atEmit stream j answers u = atEmit stream j answers w := by
  have hdone := putBit_room b hcount
  have hgrow : ∀ c : BitVec 3, c ≠ 7#3 → (c + 1#3).toNat = c.toNat + 1 := by decide
  refine ⟨_, hdone, putBit_clean hclean hdone, ?_, rfl, fun _ _ _ => rfl⟩
  rw [← placeBit_bits b hclean, ← hgrow _ hcount]
  rfl

/-- PutBit of a byte's last bit is the emit of the byte that the pending bits and this one make (R141). -/
theorem putBit_fullByte {w : Writer} (b : Bool) (hclean : PendingClean w) (hcount : w.pendingBitCount = 7#3) :
    (pendingBits w ++ [b]).length = 8 ∧
      putBit b w = emitPending { w with pendingByte := packByte (pendingBits w ++ [b]) } := by
  have hbyte : byteBits (placeBit b w) = pendingBits w ++ [b] := by
    rw [← placeBit_bits b hclean, hcount]
    exact (List.take_of_length_le (by simp [byteBits])).symm
  refine ⟨by simp [← hbyte, byteBits], ?_⟩
  rw [putBit_full b hcount, ← hbyte, packByte_byteBits]

/-- A body that places enough bits comes to emit number j of its stream, once the sink has accepted j bytes. -/
theorem PlacesBits.comes_to_emit {f : Writer → WriteRun} {bits : List Bool} (h : PlacesBits f bits) {w : Writer}
    {j : Nat} {answers : List SinkAnswer} (hclean : PendingClean w) (hj : j < (pendingBits w ++ bits).length / 8)
    (hsink : w.sink = List.replicate j .accepted ++ answers) :
    ∃ k later, f w = andThenW (emitPending (atEmit (pendingBits w ++ bits) j answers w)) k later := by
  induction h generalizing w j with
  | nil =>
    have hc : w.pendingBitCount.toNat < 8 := w.pendingBitCount.isLt
    rw [List.append_nil, pendingBits_length, Nat.div_eq_of_lt hc] at hj
    exact absurd hj (Nat.not_lt_zero j)
  | @cons k bits b later _ ih =>
    rw [List.append_cons] at hj ⊢
    by_cases hcount : w.pendingBitCount = 7#3
    · obtain ⟨hlength, hput⟩ := putBit_fullByte b hclean hcount
      simp only [hput]
      cases j with
      | zero =>
        refine ⟨k, later, ?_⟩
        rw [atEmit_zero bits answers w hlength, ← hcount, ← show w.sink = answers from hsink]
      | succ j =>
        rw [emitPending_accepted (answers := List.replicate j .accepted ++ answers) hsink]
        have hnone : pendingBits (afterEmit (List.replicate j .accepted ++ answers)
            { w with pendingByte := packByte (pendingBits w ++ [b]) }) = [] := rfl
        have hfew : j < bits.length / 8 := by
          rw [List.length_append, hlength] at hj
          omega
        obtain ⟨k', later', hrun⟩ := ih (clean_of_empty rfl) (by rw [hnone]; exact hfew) rfl
        rw [hnone, List.nil_append, ← atEmit_succ bits j answers _ w hlength] at hrun
        exact ⟨k', later', hrun⟩
    · obtain ⟨u, hput, hu, hpending, hsame, hat⟩ := putBit_pendingBits b hclean hcount
      simp only [hput]
      rw [← hat, ← hpending]
      exact ih hu (hpending ▸ hj) (hsame.trans hsink)

/-! ### A writer command that waits (R315) -/

/-- A legal command at a READY writer goes BUSY and runs its body (R268). -/
theorem exec_starts_writer {s : State} {i : Instr} (hport : portOf i = .writer) (hlegal : legal i)
    (hstate : s.writer.state = .ready) (hresponse : s.writer.response = none) :
    exec i s =
      .next { s with writer := settleWriter i (runWOps (writerBody i) { s.writer with state := .busy }) } := by
  rw [exec_writer hport, (precondition_iff_legal i).2 hlegal]
  simp [writerCommand, cmdReady, writerCmdReady, cycleWriter, hstate, hresponse]

/-- FlushPending with bits pending is the emit, with none it does nothing (R142). -/
theorem runWOps_flush_cons (later : List WOp) (w : Writer) :
    runWOps (.flush :: later) w =
      if w.pendingBitCount = 0#3 then runWOps later w else runWOps (.emit :: later) w := by
  rw [runWOps_cons, runWOps_cons, runWOp, runWOp, flushPending]
  split <;> simp_all [andThenW]

/-- Settles O28: the command waits at its first transfer without an answer (R72, R75, R77, R315). -/
theorem writerWaitsForTheSink : Obligations.WriterWaitsForTheSink := by
  refine ⟨fun s i j hplaces hlegal hstate hresponse hclean hj hsink => ?_,
    fun s i hi hstate hresponse hcount hsink => ?_,
    fun s flushed rest hstate hresponse hcloses hflush => ?_⟩
  · obtain ⟨k, later, hrun⟩ := (writerBody_places hplaces).comes_to_emit (w := { s.writer with state := .busy })
      (answers := []) hclean hj (by simpa using hsink)
    refine ⟨_, exec_starts_writer (portOf_of_placesBits hplaces) hlegal hstate hresponse, ?_⟩
    rw [hrun]
    exact ⟨rfl, hresponse, rfl, rfl, rfl, rfl, rfl, rfl, rfl, rfl⟩
  · obtain ⟨later, hport, hlegal, hbody⟩ :
        ∃ later, portOf i = .writer ∧ legal i ∧ writerBody i = .flush :: later := by
      rcases hi with rfl | rfl
      · exact ⟨[], by decide, trivial, rfl⟩
      · exact ⟨[.close], by decide, trivial, rfl⟩
    have hrun : runWOps (writerBody i) { s.writer with state := .busy } =
        .wait { s.writer with state := .busy } (.emit :: later) := by
      rw [hbody, runWOps_flush_cons, if_neg hcount]
      exact runWOps_emit_unanswered later hsink
    refine ⟨_, exec_starts_writer hport hlegal hstate hresponse, ?_⟩
    rw [hrun]
    exact ⟨rfl, hresponse, hsink, rfl, rfl, rfl, rfl, rfl, rfl, rfl⟩
  · have hexec := exec_starts_writer (i := .wClose) (by decide) trivial hstate hresponse
    rw [show writerBody .wClose = [.flush, .close] from rfl, runWOps_flush_cons] at hexec
    rcases hflush with ⟨hcount, hsink, rfl⟩ | ⟨hcount, hsink, rfl⟩
    · rw [if_pos hcount, runWOps_close_unanswered (w := { s.writer with state := .busy }) [] hcloses] at hexec
      exact ⟨_, hexec, rfl, hresponse, hsink, hcloses, rfl, rfl, (List.append_nil _).symm, rfl, rfl, rfl⟩
    · rw [if_neg hcount, runWOps_cons, runWOp,
        emitPending_accepted (w := { s.writer with state := .busy }) hsink] at hexec
      have hrun := runWOps_close_unanswered (w := afterEmit rest { s.writer with state := .busy }) [] hcloses
      rw [andThenW, hrun] at hexec
      exact ⟨_, hexec, rfl, hresponse, rfl, hcloses, rfl, rfl, rfl, rfl, rfl, rfl⟩

end Sys2Proof.Machine
end

section
/-! SUPPORT. A reader body as a reader of bits (R42, R81, R201): it takes one bit after another, ends, raises, or waits
for the fetch of the next one, and a body that waits is the body that is left. What follows for every body is proved
once, by induction on `ReadsBits`. -/

namespace Sys2Proof.Machine

open Sys2Proof.Safety

/-! ### Bodies that read bits (R201, R203, R207) -/

/-- At least one more bit is needed, and N says for each bit whether those after it suffice. -/
def needsBit (N : Bool → List Bool → Prop) : List Bool → Prop
  | [] => True
  | b :: bits => N b bits

/-- The body f runs on the bits to come, one GetBit after another, and N holds of the bits that do not suffice for it. A
wait keeps a rest that is the body itself (R48). -/
inductive ReadsBits : (Reader → ReadRun Word RRest) → (List Bool → Prop) → Prop
  | ends (v : Word) : ReadsBits (.done v) fun _ => False
  | aligns : ReadsBits (runRest .align) fun _ => False
  | raises (e : Err) : ReadsBits (.raise e) fun _ => False
  | bit {f : Reader → ReadRun Word RRest} {k : Bool → Reader → ReadRun Word RRest} {N : Bool → List Bool → Prop}
      (rest : RRest) (hrun : ∀ r, f r = andThenR (getBit r) k fun _ => rest) (hrest : ∀ r, runRest rest r = f r)
      (hk : ∀ b, ReadsBits (k b) (N b)) : ReadsBits f (needsBit N)

theorem andThenR_assoc {α β γ δ ε ζ : Type} (x : ReadRun α β) (k : α → Reader → ReadRun γ δ) (f : β → δ)
    (k' : γ → Reader → ReadRun ε ζ) (f' : δ → ζ) :
    andThenR (andThenR x k f) k' f' = andThenR x (fun a r => andThenR (k a r) k' f') fun p => f' (f p) := by
  cases x <;> rfl

/-- The bits that do not suffice for a field of n bits and then M. -/
def fieldNeeds (M : List Bool → Prop) : Nat → List Bool → Prop
  | 0 => M
  | n + 1 => needsBit fun _ => fieldNeeds M n

/-- The bits that do not suffice for a scan that may read n zero bits and then M. -/
def scanNeeds (M : List Bool → Prop) : Nat → List Bool → Prop
  | 0 => fun _ => False
  | n + 1 => needsBit fun b => cond b M (scanNeeds M n)

theorem readBits_reads {k : Word → Reader → ReadRun Word RRest} {g : Nat × Word → RRest} {M : List Bool → Prop}
    {n : Nat} (hrest : ∀ i v r, runRest (g (i, v)) r = andThenR (readBits (n - i) i v r) k g)
    (hk : ∀ v, ReadsBits (k v) M) (m i : Nat) (v : Word) (hm : m = n - i) :
    ReadsBits (fun r => andThenR (readBits m i v r) k g) (fieldNeeds M m) := by
  induction m generalizing i v with
  | zero => exact hk v
  | succ m ih =>
    refine .bit (g (i, v)) (fun r => andThenR_assoc _ _ _ _ _) (fun r => ?_) fun b => ih (i + 1) _ (by omega)
    rw [hrest, ← hm]

theorem scanUnary_reads {k : Nat → Reader → ReadRun Word RRest} {g : Nat → RRest} {M : List Bool → Prop}
    (hrest : ∀ c r, runRest (g c) r = andThenR (scanUnary (scanFuel c) c r) k g) (hk : ∀ q, ReadsBits (k q) M)
    (fuel c : Nat) (hfuel : fuel = scanFuel c) :
    ReadsBits (fun r => andThenR (scanUnary fuel c r) k g) (scanNeeds M fuel) := by
  induction fuel generalizing c with
  | zero => exact .raises .codeRange
  | succ fuel ih =>
    refine .bit (g c) (fun r => andThenR_assoc _ _ _ _ _) (fun r => ?_) fun b => ?_
    · rw [hrest, ← hfuel]
    · cases b with
      | true => exact hk c
      | false => exact ih (c + 1) (by unfold scanFuel at hfuel ⊢; omega)

theorem riceValue_reads (k q : Nat) (v : Word) : ReadsBits (riceValue k q v) fun _ => False := by
  by_cases h : q * 2 ^ k + v.toNat > Config.riceMax
  · rw [show riceValue k q v = .raise .codeRange from funext fun r => if_pos h]
    exact .raises .codeRange
  · rw [show riceValue k q v = .done (BitVec.ofNat 32 (q * 2 ^ k + v.toNat)) from funext fun r => if_neg h]
    exact .ends _

theorem readRemainder_reads (k q i : Nat) (v : Word) :
    ReadsBits (readRemainder k q i v) (fieldNeeds (fun _ => False) (k - i)) :=
  readBits_reads (fun _ _ _ => rfl) (riceValue_reads k q) (k - i) i v rfl

/-- The bits that do not suffice for the rest of a body. -/
def restNeeds : RRest → List Bool → Prop
  | .field n i _ => fieldNeeds (fun _ => False) (n - i)
  | .unary c => scanNeeds (fun _ => False) (scanFuel c)
  | .riceQuotient k c => scanNeeds (fieldNeeds (fun _ => False) k) (scanFuel c)
  | .riceRemainder k _ i _ => fieldNeeds (fun _ => False) (k - i)
  | .align => fun _ => False

/-- Every body reads bits (R205 to R211). -/
theorem runRest_reads (rest : RRest) : ReadsBits (runRest rest) (restNeeds rest) := by
  cases rest with
  | field n i v => exact readBits_reads (fun _ _ _ => rfl) .ends (n - i) i v rfl
  | unary c => exact scanUnary_reads (fun _ _ => rfl) (fun q => .ends (BitVec.ofNat 32 q)) (scanFuel c) c rfl
  | riceQuotient k c =>
    exact scanUnary_reads (fun _ _ => rfl) (fun q => readRemainder_reads k q 0 0#32) (scanFuel c) c rfl
  | riceRemainder k q i v => exact readRemainder_reads k q i v
  | align => exact .aligns

/-! ### The answers used (R80, R81) -/

/-- The answers used from the front of the source are the events added to the history, in order (R80). -/
def Fetched (r r' : Reader) : Prop :=
  ∃ used : List SourcePins, r.source = used ++ r'.source ∧
    r'.history = r.history ++ used.map fun pins => .fetch (sourceAnswer pins)

theorem Fetched.of_same {r r' : Reader} (hsource : r'.source = r.source) (hhistory : r'.history = r.history) :
    Fetched r r' :=
  ⟨[], by simp [hsource], by simp [hhistory]⟩

theorem Fetched.trans {a b c : Reader} (h : Fetched a b) (k : Fetched b c) : Fetched a c := by
  obtain ⟨xs, hxs, hxh⟩ := h
  obtain ⟨ys, hys, hyh⟩ := k
  exact ⟨xs ++ ys, by rw [hxs, hys, List.append_assoc], by rw [hyh, hxh, List.map_append, List.append_assoc]⟩

/-- GetBit leaves the positions that occur only from a position that does not (R41, log 11). -/
theorem getBit_legal {r : Reader} (h : getBit r ≠ .stuck) : r.bitPosition.toNat ≤ 8 := by
  by_contra hp
  have h8 : r.bitPosition ≠ 8#4 := fun e => hp (by simp [e])
  exact h (by simp [getBit, h8, nextBit, show ¬ r.bitPosition.toNat < 8 by omega])

theorem getBit_fetched {r r' : Reader} (h : readerAt (getBit r) = some r') : Fetched r r' := by
  have hp : r.bitPosition.toNat ≤ 8 := getBit_legal fun e => by simp [e, readerAt] at h
  rcases getBit_cases r hp with ⟨_, e⟩ | ⟨_, _, e⟩ | ⟨_, pins, later, hs, ha, e⟩ | ⟨_, pins, later, hs, ha, e⟩ |
      ⟨_, pins, later, b, hs, ha, e⟩ <;> rw [e] at h <;> cases h
  · exact .of_same rfl rfl
  · exact .of_same rfl rfl
  · exact ⟨[pins], hs, by simp [ha]⟩
  · exact ⟨[pins], hs, by simp [ha]⟩
  · exact ⟨[pins], hs, by simp [ha]⟩

/-- A body uses the source's answers from the front, each for one event. -/
theorem ReadsBits.fetched {f : Reader → ReadRun Word RRest} {N : List Bool → Prop} (h : ReadsBits f N) {r r' : Reader}
    (hr : readerAt (f r) = some r') : Fetched r r' := by
  induction h generalizing r with
  | ends v => cases hr; exact .of_same rfl rfl
  | aligns => cases hr; exact .of_same rfl rfl
  | raises e => cases hr; exact .of_same rfl rfl
  | bit rest hrun _ _ ih =>
    rw [hrun] at hr
    cases hget : getBit r with
    | done b u =>
      rw [hget] at hr
      exact (getBit_fetched (by rw [hget]; rfl)).trans (ih b hr)
    | wait p u => rw [hget] at hr; exact getBit_fetched (by rw [hget]; exact hr)
    | raise e u => rw [hget] at hr; exact getBit_fetched (by rw [hget]; exact hr)
    | stuck => rw [hget] at hr; cases hr

/-- A body that waits has used every answer and goes on, when asked again, to wait (R81, R315). -/
theorem ReadsBits.waits {f : Reader → ReadRun Word RRest} {N : List Bool → Prop} (h : ReadsBits f N) {r u : Reader}
    {rest : RRest} (hr : f r = .wait rest u) :
    u.bitPosition = 8#4 ∧ u.source = [] ∧
      ∀ v : Reader, v.bitPosition = 8#4 → v.source = [] → runRest rest v = .wait rest v := by
  induction h generalizing r with
  | ends v => cases hr
  | aligns => cases hr
  | raises e => cases hr
  | bit rest' hrun hrest _ ih =>
    rw [hrun] at hr
    rcases andThenR_wait hr with ⟨b, v, _, hk⟩ | ⟨p, hget, rfl⟩
    · exact ih b hk
    · obtain ⟨rfl, h8, hs⟩ := getBit_wait hget
      refine ⟨h8, hs, fun v hv8 hvs => ?_⟩
      rw [hrest, hrun]
      simp [getBit, hv8, sourceRead, hvs, andThenR]

/-- A body that needs a bit it has not got uses the answer at hand (R81, R201). -/
theorem ReadsBits.uses_answer {f : Reader → ReadRun Word RRest} {N : List Bool → Prop} (h : ReadsBits f N)
    {r u : Reader} {pins : SourcePins} (hneeds : N []) (h8 : r.bitPosition = 8#4) (hsource : r.source = [pins])
    (hr : readerAt (f r) = some u) :
    u.source = [] ∧ u.history = r.history ++ [.fetch (sourceAnswer pins)] := by
  obtain ⟨used, hused, hhistory⟩ := h.fetched hr
  suffices hempty : u.source = [] by
    have hone : used = [pins] := by simpa [hsource, hempty] using hused.symm
    exact ⟨hempty, by simp [hhistory, hone]⟩
  cases h with
  | ends v => exact hneeds.elim
  | aligns => exact hneeds.elim
  | raises e => exact hneeds.elim
  | bit rest hrun _ hk =>
    have hgot : ∀ v, readerAt (getBit r) = some v → v.source = [] := by
      intro v hv
      rcases getBit_cases r (by simp [h8]) with ⟨hlt, _⟩ | ⟨_, hs, _⟩ | ⟨_, _, _, hs, _, e⟩ | ⟨_, _, _, hs, _, e⟩ |
          ⟨_, _, _, _, hs, _, e⟩
      · simp [h8] at hlt
      · simp [hsource] at hs
      all_goals
        rw [e] at hv
        cases hv
        exact (List.cons.inj (hsource.symm.trans hs)).2.symm
    rw [hrun] at hr
    cases hget : getBit r with
    | done b v =>
      rw [hget] at hr hgot
      obtain ⟨more, hmore, -⟩ := (hk b).fetched hr
      rw [hgot v rfl] at hmore
      exact (List.append_eq_nil_iff.1 hmore.symm).2
    | wait p v => rw [hget] at hr hgot; exact hgot u hr
    | raise e v => rw [hget] at hr hgot; exact hgot u hr
    | stuck => rw [hget] at hr; cases hr

/-! ### The bits in hand and those to come (R42, R91) -/

theorem upcomingBits_in_hand {r : Reader} (bytes : List Byte) (h : r.bitPosition.toNat < 8) :
    upcomingBits r bytes =
      r.currentByte.getLsbD r.bitPosition.toNat ::
        upcomingBits { r with bitPosition := r.bitPosition + 1#4 } bytes := by
  have hnext : (r.bitPosition + 1#4).toNat = r.bitPosition.toNat + 1 := by
    have hmod : (r.bitPosition + 1#4).toNat = (r.bitPosition.toNat + 1) % 16 := BitVec.toNat_add _ _
    omega
  have hlength : r.bitPosition.toNat < (byteBits r.currentByte).length := by simpa [byteBits] using h
  have hbit : (byteBits r.currentByte)[r.bitPosition.toNat] = r.currentByte.getLsbD r.bitPosition.toNat := by
    simp [byteBits]
  rw [upcomingBits, upcomingBits, unreadBits, unreadBits, hnext, List.drop_eq_getElem_cons hlength, hbit]
  rfl

theorem upcomingBits_aligned {r : Reader} (bytes : List Byte) (h : r.bitPosition = 8#4) :
    upcomingBits r bytes = bytes.flatMap byteBits := by
  simp [upcomingBits, unreadBits, byteBits, h]

/-- GetBit takes the first of the bits to come (R42, R201). -/
theorem getBit_takes {r r' : Reader} {b : Bool} {bytes : List Byte} (h : getBit r = .done b r')
    (hsource : r.source = bytes.map bytePins) :
    ∃ bytes' : List Byte, r'.source = bytes'.map bytePins ∧ upcomingBits r bytes = b :: upcomingBits r' bytes' := by
  rcases getBit_cases r (getBit_legal fun e => by simp [e] at h) with ⟨hlt, e⟩ | ⟨_, _, e⟩ | ⟨_, _, _, _, _, e⟩ |
      ⟨_, _, _, _, _, e⟩ | ⟨h8, pins, later, c, hs, ha, e⟩ <;> rw [e] at h <;> cases h
  · exact ⟨bytes, hsource, upcomingBits_in_hand bytes hlt⟩
  · cases bytes with
    | nil => simp [hs] at hsource
    | cons d bytes =>
      rw [hs] at hsource
      obtain ⟨rfl, rfl⟩ := List.cons.inj hsource
      cases ha
      exact ⟨bytes, rfl, upcomingBits_aligned _ h8⟩

/-- From a source of bytes alone no GetBit raises (R80). -/
theorem getBit_bytes_not_raise {r r' : Reader} {e : Err} {bytes : List Byte}
    (hsource : r.source = bytes.map bytePins) : getBit r ≠ .raise e r' := by
  intro h
  have hbyte : ∀ pins later, r.source = pins :: later → ∃ b, sourceAnswer pins = .byte b := by
    intro pins later hs
    obtain ⟨b, -, rfl⟩ := List.mem_map.1 (show pins ∈ bytes.map bytePins by simp [← hsource, hs])
    exact ⟨b, rfl⟩
  rcases getBit_cases r (getBit_legal fun e => by simp [e] at h) with ⟨_, e⟩ | ⟨_, _, e⟩ | ⟨_, pins, later, hs, ha, e⟩ |
      ⟨_, pins, later, hs, ha, e⟩ | ⟨_, _, _, _, _, _, e⟩ <;> rw [e] at h <;> cases h
  all_goals
    obtain ⟨b, hb⟩ := hbyte pins later hs
    rw [ha] at hb
    cases hb

/-- On a source of bytes alone a body waits exactly when the bits to come do not suffice (R81, R218). -/
theorem ReadsBits.waits_iff {f : Reader → ReadRun Word RRest} {N : List Bool → Prop} (h : ReadsBits f N) {r : Reader}
    {bytes : List Byte} (hsource : r.source = bytes.map bytePins) (hlegal : f r ≠ .stuck) :
    (∃ rest u, f r = .wait rest u) ↔ N (upcomingBits r bytes) := by
  induction h generalizing r bytes with
  | ends v => exact ⟨fun ⟨_, _, e⟩ => (by cases e), False.elim⟩
  | aligns => exact ⟨fun ⟨_, _, e⟩ => (by cases e), False.elim⟩
  | raises e => exact ⟨fun ⟨_, _, e⟩ => (by cases e), False.elim⟩
  | @bit f k N rest hrun _ _ ih =>
    rw [hrun] at hlegal ⊢
    cases hget : getBit r with
    | done b u =>
      obtain ⟨bytes', hs, hup⟩ := getBit_takes hget hsource
      rw [hget] at hlegal
      rw [hup]
      exact ih b hs hlegal
    | wait p u =>
      obtain ⟨-, h8, hs⟩ := getBit_wait hget
      have hnone : bytes = [] := List.map_eq_nil_iff.1 (hsource.symm.trans hs)
      rw [upcomingBits_aligned bytes h8, hnone]
      exact ⟨fun _ => trivial, fun _ => ⟨rest, u, rfl⟩⟩
    | raise e u => exact absurd hget (getBit_bytes_not_raise hsource)
    | stuck => rw [hget] at hlegal; exact absurd rfl hlegal

/-! ### More answers (R79, R80, log 1) -/

/-- The reader with more answers settled, and with another in-command state, which a run does not read. -/
def withSource (more : List SourcePins) (body : Option RBody) (r : Reader) : Reader :=
  { r with source := r.source ++ more, body := body }

/-- A run that has ended stays as it is but for the change f of the reader; one that waits goes on with its rest. -/
def resumeRead (f : Reader → Reader) : ReadRun Word RRest → ReadRun Word RRest
  | .done v r => .done v (f r)
  | .wait rest r => runRest rest (f r)
  | .raise e r => .raise e (f r)
  | .stuck => .stuck

/-- GetBit with more answers settled differs only where it had none (R201). -/
theorem getBit_withSource (more : List SourcePins) (body : Option RBody) (r : Reader) :
    (∃ b u, getBit r = .done b u ∧ getBit (withSource more body r) = .done b (withSource more body u)) ∨
      getBit r = .wait () r ∨
      (∃ e u, getBit r = .raise e u ∧ getBit (withSource more body r) = .raise e (withSource more body u)) ∨
      (getBit r = .stuck ∧ getBit (withSource more body r) = .stuck) := by
  by_cases hp : r.bitPosition.toNat ≤ 8
  · rcases getBit_cases r hp with ⟨hlt, e⟩ | ⟨_, _, e⟩ | ⟨h8, pins, later, hs, ha, e⟩ | ⟨h8, pins, later, hs, ha, e⟩ |
        ⟨h8, pins, later, b, hs, ha, e⟩
    · have h8 : r.bitPosition ≠ 8#4 := fun h => by simp [h] at hlt
      exact .inl ⟨_, _, e, by simp [getBit, withSource, h8, nextBit, hlt]⟩
    · exact .inr (.inl e)
    · exact .inr (.inr (.inl ⟨_, _, e, by simp [getBit, withSource, h8, sourceRead, hs, ha]⟩))
    · exact .inr (.inr (.inl ⟨_, _, e, by simp [getBit, withSource, h8, sourceRead, hs, ha]⟩))
    · exact .inl ⟨_, _, e, by simp [getBit, withSource, h8, sourceRead, hs, ha, nextBit]⟩
  · refine .inr (.inr (.inr ⟨?_, ?_⟩))
    · exact not_not.1 fun h => hp (getBit_legal h)
    · exact not_not.1 fun h => hp (getBit_legal (r := withSource more body r) h)

/-- A body with more answers settled is the body without them, resumed with them where it waits (R80). -/
theorem ReadsBits.run_withSource {f : Reader → ReadRun Word RRest} {N : List Bool → Prop} (h : ReadsBits f N)
    (more : List SourcePins) (body : Option RBody) (r : Reader) :
    f (withSource more body r) = resumeRead (withSource more body) (f r) := by
  induction h generalizing r with
  | ends v => rfl
  | aligns => rfl
  | raises e => rfl
  | bit rest hrun hrest _ ih =>
    rcases getBit_withSource more body r with ⟨b, u, hget, hmore⟩ | hget | ⟨e, u, hget, hmore⟩ | ⟨hget, hmore⟩
    · rw [hrun, hrun, hget, hmore]
      exact ih b u
    · rw [hrun r, hget]
      exact (hrest _).symm
    · rw [hrun, hrun, hget, hmore]
      rfl
    · rw [hrun, hrun, hget, hmore]
      rfl

/-- The settled reader does not show which in-command state the run began with (R48). -/
theorem settleReader_runRest_body (cmd : Instr) (rest : RRest) (r : Reader) (body : Option RBody) :
    settleReader cmd (runRest rest { r with body := body }) = settleReader cmd (runRest rest r) := by
  have hr : { r with body := body } = withSource [] body r := by simp [withSource]
  rw [hr, (runRest_reads rest).run_withSource]
  cases hx : runRest rest r with
  | done v u => simp [resumeRead, withSource, settleReader]
  | raise e u => simp [resumeRead, withSource, settleReader, enterReader, failReader]
  | stuck => rfl
  | wait p u =>
    obtain ⟨h8, hs, hagain⟩ := (runRest_reads rest).waits hx
    rw [resumeRead, hagain (withSource [] body u) h8 (by simp [withSource, hs])]
    simp [settleReader, withSource]

theorem resumeReader_idle {r : Reader} (h : r.state ≠ .busy) : resumeReader r = some r := by
  unfold resumeReader
  split
  next hb _ => exact absurd hb h
  next => rfl

theorem resumeReader_busy {r : Reader} {cmd : Instr} {rest : RRest} (hstate : r.state = .busy)
    (hbody : r.body = some ⟨cmd, rest⟩) : resumeReader r = settleReader cmd (runRest rest r) := by
  simp [resumeReader, hstate, hbody]

/-- Settling a run and then giving more answers is settling the run with those answers (R80). -/
theorem resumeReader_settleReader (more : List SourcePins) (body : Option RBody) {cmd : Instr}
    {x : ReadRun Word RRest} {r : Reader} (hwait : ∀ rest u, x = .wait rest u → u.state = .busy)
    (h : settleReader cmd x = some r) :
    resumeReader (withSource more r.body r) = settleReader cmd (resumeRead (withSource more body) x) := by
  cases x with
  | done v u =>
    cases h
    exact resumeReader_idle (by simp [withSource])
  | raise e u =>
    cases h
    exact resumeReader_idle (by cases e <;> simp [withSource, stateAfterError])
  | wait rest u =>
    cases h
    exact (resumeReader_busy (r := withSource more (some ⟨cmd, rest⟩) u) (hwait rest u rfl) rfl).trans
      (settleReader_runRest_body cmd rest (withSource more body u) (some ⟨cmd, rest⟩))
  | stuck => cases h

/-- The command cycle with more answers settled is the cycle without them, its unit resumed with them (R268). -/
theorem cycleReader_withSource (more : List SourcePins) (cmd : Instr) (pre : Bool) {r u : Reader}
    (hidle : r.state ≠ .busy) (h : cycleReader cmd pre (readerBody cmd) r = some u) :
    cycleReader cmd pre (readerBody cmd) (withSource more r.body r) = resumeReader (withSource more u.body u) := by
  unfold cycleReader at h ⊢
  by_cases hruns : runsReader cmd r.state = false
  · rw [if_pos hruns] at h
    cases h
    rw [resumeReader_idle (by simpa [withSource] using hidle)]
    simp [hruns, withSource, failReader]
  · rw [if_neg hruns] at h
    cases pre with
    | false =>
      cases h
      rw [resumeReader_idle (by simpa [withSource] using hidle)]
      simp [hruns, withSource, failReader]
    | true =>
      have hbusy : ∀ rest v, runRest (readerBody cmd) { r with state := .busy } = .wait rest v → v.state = .busy :=
        fun rest v hx => (runRest_ran (by rw [hx]; rfl)).state
      have hlate := resumeReader_settleReader more r.body hbusy (by simpa using h)
      rw [← (runRest_reads (readerBody cmd)).run_withSource] at hlate
      simpa [hruns, withSource] using hlate.symm

/-- Settles O40: the answer settled beforehand and the one given later make one run. -/
theorem lateSourceAnswersGiveTheSameRun : Obligations.LateSourceAnswersGiveTheSameRun := by
  intro s t i pins hport hready h
  refine ⟨?_, fun hrequest => (sourceEdge_fetch hrequest pins).symm⟩
  have hidle : s.reader.state ≠ .busy := by
    intro hbusy
    simp [cmdReady, readerCmdReady, hbusy] at hready
  have hready' : cmdReady .reader { s with reader := withSource [pins] s.reader.body s.reader } = true := hready
  rw [exec_reader hport, readerCommand, if_pos hready] at h
  obtain ⟨u, hu, rfl⟩ := withReader_next h
  have hlate := cycleReader_withSource [pins] i (precondition i) hidle hu
  change exec i { s with reader := withSource [pins] s.reader.body s.reader } =
    withReader { s with reader := u } (resumeReader (withSource [pins] u.body u))
  rw [exec_reader hport, readerCommand, if_pos hready', hlate]
  cases resumeReader (withSource [pins] u.body u) <;> rfl

end Sys2Proof.Machine
end

section
/-! SUPPORT. The fetches of a reader command (R79 to R81): it waits exactly where the bits of the bytes at hand do not
suffice (`needsMore`), a waiting one goes on with its own fetch alone, and a loopback delivery is such a fetch
(R92). -/

namespace Sys2Proof.Machine

open Sys2Proof.Safety

/-! ### The bits a command needs (R81, R218) -/

theorem fieldNeeds_iff (n : Nat) (bits : List Bool) : fieldNeeds (fun _ => False) n bits ↔ bits.length < n := by
  induction n generalizing bits with
  | zero => simp [fieldNeeds]
  | succ n ih =>
    cases bits with
    | nil => simp [fieldNeeds, needsBit]
    | cons b bits => simpa [fieldNeeds, needsBit] using ih bits

/-- A scan is short of a bit among zeros that are not too many, or after its end where what follows is. -/
theorem scanNeeds_iff (M : List Bool → Prop) (n : Nat) (bits : List Bool) :
    scanNeeds M n bits ↔
      (bits = List.replicate bits.length false ∧ bits.length < n) ∨
        ∃ q rest, bits = unaryBits q ++ rest ∧ q < n ∧ M rest := by
  induction n generalizing bits with
  | zero => simp [scanNeeds]
  | succ n ih =>
    cases bits with
    | nil => simp [scanNeeds, needsBit]
    | cons b bits =>
      cases b with
      | true =>
        constructor
        · exact fun h => .inr ⟨0, bits, rfl, Nat.succ_pos n, h⟩
        · rintro (⟨hzeros, -⟩ | ⟨q, rest, hsplit, -, hM⟩)
          · simp [List.replicate_succ] at hzeros
          · cases q with
            | zero =>
              cases hsplit
              exact hM
            | succ q => simp [unaryBits, List.replicate_succ] at hsplit
      | false =>
        refine (ih bits).trans (or_congr ?_ ⟨?_, ?_⟩)
        · simp [List.replicate_succ]
        · rintro ⟨q, rest, rfl, hq, hM⟩
          exact ⟨q + 1, rest, by simp [unaryBits, List.replicate_succ], Nat.succ_lt_succ hq, hM⟩
        · rintro ⟨q, rest, hsplit, hq, hM⟩
          cases q with
          | zero => simp [unaryBits] at hsplit
          | succ q =>
            have hrest : bits = unaryBits q ++ rest := by simpa [unaryBits, List.replicate_succ] using hsplit
            exact ⟨q, rest, hrest, Nat.lt_of_succ_lt_succ hq, hM⟩

theorem scanFuel_zero : scanFuel 0 = 2147483647 + 1 := rfl

/-- A legal command's body needs the bits the command needs. -/
theorem restNeeds_readerBody {i : Instr} (hport : portOf i = .reader) (hlegal : legal i) (bits : List Bool) :
    restNeeds (readerBody i) bits ↔ needsMore i bits := by
  cases i with
  | rBit => exact fieldNeeds_iff 1 bits
  | rUnary =>
    refine (scanNeeds_iff _ (scanFuel 0) bits).trans ?_
    simp [needsMore, scanFuel_zero, Nat.lt_succ_iff]
  | rBinary n =>
    refine (fieldNeeds_iff n bits).trans ?_
    exact (and_iff_right hlegal).symm
  | rRice k =>
    refine (scanNeeds_iff _ (scanFuel 0) bits).trans ?_
    simp only [scanFuel_zero, Nat.lt_succ_iff, fieldNeeds_iff]
    exact (and_iff_right hlegal).symm
  | rByte => exact fieldNeeds_iff 8 bits
  | rRealign => exact Iff.rfl
  | rReset => exact Iff.rfl
  | _ => simp [portOf, opPort, opcode] at hport

theorem reader_of_needsMore {i : Instr} {bits : List Bool} (h : needsMore i bits) : portOf i = .reader ∧ legal i := by
  cases i with
  | rBit => exact ⟨by decide, trivial⟩
  | rUnary => exact ⟨by decide, trivial⟩
  | rBinary n => exact ⟨by simp [portOf, opPort, opcode], h.1⟩
  | rRice k => exact ⟨by simp [portOf, opPort, opcode], h.1⟩
  | rByte => exact ⟨by decide, trivial⟩
  | _ => exact h.elim

/-! ### A reader command's fetches (R81) -/

theorem settleReader_transfers {cmd : Instr} {x : ReadRun Word RRest} {r : Reader} (h : settleReader cmd x = some r) :
    ∃ u, readerAt x = some u ∧ r.history = u.history ∧ r.source = u.source := by
  cases x with
  | stuck => cases h
  | _ => cases h; exact ⟨_, rfl, rfl, rfl⟩

/-- A reader command makes no transfer, or it is legal and runs its body. -/
theorem exec_reader_runs {i : Instr} {s t : State} (hport : portOf i = .reader) (h : exec i s = .next t) :
    (t.reader.history = s.reader.history ∧ t.reader.source = s.reader.source) ∨
      (legal i ∧ settleReader i (runRest (readerBody i) { s.reader with state := .busy }) = some t.reader) := by
  rw [exec_reader hport] at h
  rcases readerCommand_cases i (precondition i) (readerBody i) s with
    ⟨_, e⟩ | ⟨_, _, e⟩ | ⟨_, _, _, e⟩ | ⟨_, _, hpre, e⟩ <;> rw [e] at h
  · cases h; exact .inl ⟨rfl, rfl⟩
  · cases h; exact .inl ⟨rfl, rfl⟩
  · cases h; exact .inl ⟨rfl, rfl⟩
  · obtain ⟨r, hr, rfl⟩ := withReader_next h
    exact .inr ⟨(precondition_iff_legal i).1 hpre, hr⟩

/-- A reader command uses its source's answers from the front, each for one event (R80). -/
theorem exec_fetched {i : Instr} {s t : State} (hport : portOf i = .reader) (h : exec i s = .next t) :
    Fetched s.reader t.reader := by
  rcases exec_reader_runs hport h with ⟨hh, hs⟩ | ⟨-, hrun⟩
  · exact .of_same hs hh
  · obtain ⟨u, hu, hh, hs⟩ := settleReader_transfers hrun
    exact ((runRest_reads _).fetched hu).trans (.of_same hs hh)

/-- A body that would not wait on the first bytes alone leaves the answers after them (R81). -/
theorem settleReader_leaves {cmd : Instr} {rest : RRest} {r u : Reader} {bytes : List Byte} {later : List SourcePins}
    (hsource : r.source = bytes.map bytePins ++ later)
    (hends : ∀ p v, runRest rest { r with source := bytes.map bytePins } ≠ .wait p v)
    (h : settleReader cmd (runRest rest r) = some u) : later <:+ u.source := by
  have hr : r = withSource later r.body { r with source := bytes.map bytePins } := by simp [withSource, ← hsource]
  rw [hr, (runRest_reads rest).run_withSource] at h
  cases hx : runRest rest { r with source := bytes.map bytePins } with
  | done v w =>
    rw [hx] at h
    cases h
    exact List.suffix_append _ _
  | wait p v => exact absurd hx (hends p v)
  | raise e w =>
    rw [hx] at h
    cases h
    exact List.suffix_append _ _
  | stuck => rw [hx] at h; cases h

/-- A legal command for which the bits at hand suffice does not wait (R81). -/
theorem runRest_ends {i : Instr} {r : Reader} {bytes : List Byte} (hport : portOf i = .reader) (hlegal : legal i)
    (hsource : r.source = bytes.map bytePins) (hmore : ¬ needsMore i (upcomingBits r bytes)) :
    ∀ p v, runRest (readerBody i) r ≠ .wait p v := by
  intro p v hx
  refine hmore ((restNeeds_readerBody hport hlegal _).1 ?_)
  exact ((runRest_reads _).waits_iff hsource (by simp [hx])).1 ⟨p, v, hx⟩

/-- R_BIT waits only at the end of the byte (R201, R205). -/
theorem rBit_waits {r u : Reader} {p : RRest} (h : runRest (readerBody .rBit) r = .wait p u) :
    r.bitPosition = 8#4 := by
  rcases andThenR_wait h with ⟨_, _, _, hdone⟩ | ⟨_, hbits, -⟩
  · cases hdone
  rcases andThenR_wait hbits with ⟨_, _, _, hdone⟩ | ⟨_, hget, -⟩
  · cases hdone
  exact (getBit_wait hget).2.1

/-- A command that does not wait on the bits in hand makes no fetch. -/
theorem fetches_nothing {i : Instr} {s t : State} (hport : portOf i = .reader) (h : exec i s = .next t)
    (hends : legal i → ∀ p v, runRest (readerBody i) { s.reader with state := .busy, source := [] } ≠ .wait p v) :
    t.reader.history = s.reader.history ∧ t.reader.source = s.reader.source := by
  obtain ⟨used, hused, hhistory⟩ := exec_fetched hport h
  have hsuffix : s.reader.source <:+ t.reader.source := by
    rcases exec_reader_runs hport h with ⟨-, hs⟩ | ⟨hlegal, hrun⟩
    · rw [hs]
    · exact settleReader_leaves (bytes := []) (r := { s.reader with state := .busy }) rfl (hends hlegal) hrun
  have hnone : used = [] := by
    have hlength := hsuffix.length_le
    rw [hused, List.length_append] at hlength
    exact List.eq_nil_of_length_eq_zero (by omega)
  subst hnone
  exact ⟨by simpa using hhistory, hused.symm⟩

/-- Settles O45: what a command needs bounds what it fetches (R81). -/
theorem fetchesAreLazy : Obligations.FetchesAreLazy := by
  intro s t i hport h
  refine ⟨?_, fun bytes later hsource hmore => ?_, fun hfew => fetches_nothing hport h fun hlegal => ?_⟩
  · obtain ⟨used, hused, hhistory⟩ := exec_fetched hport h
    rw [hused, hhistory]
    simp only [List.length_append, List.length_map]
    omega
  · rcases exec_reader_runs hport h with ⟨-, hs⟩ | ⟨hlegal, hrun⟩
    · rw [hs, hsource]
      exact List.suffix_append _ _
    · exact settleReader_leaves (r := { s.reader with state := .busy }) hsource
        (runRest_ends hport hlegal rfl hmore) hrun
  · have hends (hmore : ¬ needsMore i (unreadBits s.reader)) :
        ∀ p v, runRest (readerBody i) { s.reader with state := .busy, source := [] } ≠ .wait p v :=
      runRest_ends (bytes := []) hport hlegal rfl (by simpa [upcomingBits, unreadBits] using hmore)
    rcases hfew with hmore | ⟨rfl, h8⟩ | rfl | rfl | rfl
    · exact hends hmore
    · exact fun p v hx => h8 (rBit_waits (r := { s.reader with state := .busy, source := [] }) hx)
    · exact hends (by simp [needsMore])
    · exact hends id
    · exact hends id

/-! ### A reader that waits (R79, R315) -/

theorem exec_starts_reader {s : State} {i : Instr} (hport : portOf i = .reader) (hlegal : legal i)
    (hstate : s.reader.state = .ready) (hresponse : s.reader.response = none) :
    exec i s = withReader s (settleReader i (runRest (readerBody i) { s.reader with state := .busy })) := by
  rw [exec_reader hport, (precondition_iff_legal i).2 hlegal]
  simp [readerCommand, cmdReady, readerCmdReady, cycleReader, runsReader, hstate, hresponse]

/-- A waiting reader's body needs a bit (R48, R81). -/
theorem restNeeds_of_readerWaits {r : Reader} {b : RBody} (hbody : r.body = some b) (h : readerWaits r = true) :
    restNeeds b.rest [] := by
  have hfield : ∀ {n i : Nat}, i < n → fieldNeeds (fun _ => False) (n - i) [] :=
    fun hi => (fieldNeeds_iff _ []).2 (Nat.sub_pos_of_lt hi)
  have hscan : ∀ {M : List Bool → Prop} {c : Nat}, c ≤ Config.unaryMax → scanNeeds M (scanFuel c) [] :=
    fun hc => (scanNeeds_iff _ _ []).2 (.inl ⟨rfl, Nat.sub_pos_of_lt (Nat.lt_succ_of_le hc)⟩)
  unfold readerWaits at h
  rw [hbody] at h
  split at h
  case h_1 e =>
    cases e
    simp only [Bool.and_eq_true, decide_eq_true_eq] at h
    obtain ⟨⟨-, hi⟩, -⟩ := h
    exact hfield hi
  case h_2 e =>
    cases e
    simp only [Bool.and_eq_true, decide_eq_true_eq] at h
    obtain ⟨⟨-, hi⟩, -⟩ := h
    exact hfield hi
  case h_3 e =>
    cases e
    simp only [Bool.and_eq_true, decide_eq_true_eq] at h
    obtain ⟨⟨-, hi⟩, -⟩ := h
    exact hfield hi
  case h_4 e =>
    cases e
    exact hscan (by simpa using h)
  case h_5 e =>
    cases e
    simp only [Bool.and_eq_true, decide_eq_true_eq] at h
    obtain ⟨-, hc⟩ := h
    exact hscan hc
  case h_6 e =>
    cases e
    simp only [Bool.and_eq_true, decide_eq_true_eq] at h
    obtain ⟨⟨-, hi⟩, -⟩ := h
    exact hfield hi
  case h_7 => cases h

theorem settleReader_some {cmd : Instr} {x : ReadRun Word RRest} (h : x ≠ .stuck) :
    ∃ r, settleReader cmd x = some r := by
  cases x with
  | stuck => exact absurd rfl h
  | _ => exact ⟨_, rfl⟩

/-- The fetch of a waiting reader uses the answer at hand and no other (R80, R81). -/
theorem resumeReader_fetches {r : Reader} (hinv : ReaderInv r) (hbusy : r.state = .busy) (pins : SourcePins) :
    ∃ u, resumeReader { r with source := r.source ++ [pins] } = some u ∧ u.source = [] ∧
      u.history = r.history ++ [.fetch (sourceAnswer pins)] := by
  obtain ⟨-, -, -, hwaiting, -, -⟩ := hinv
  obtain ⟨h8, -, hsource, hwaits⟩ := hwaiting hbusy
  obtain ⟨⟨cmd, rest⟩, hbody⟩ : ∃ b, r.body = some b := by
    cases hb : r.body with
    | none => simp [readerWaits, hb] at hwaits
    | some b => exact ⟨b, rfl⟩
  have hone : ({ r with source := r.source ++ [pins] } : Reader).source = [pins] := by simp [hsource]
  have hneeds := restNeeds_of_readerWaits hbody hwaits
  rw [resumeReader_busy (r := { r with source := r.source ++ [pins] }) hbusy hbody]
  obtain ⟨u, hu⟩ := settleReader_some (cmd := cmd) (x := runRest rest { r with source := r.source ++ [pins] })
    (runRest_not_stuck (by simp [h8]))
  obtain ⟨v, hv, hhistory, hempty⟩ := settleReader_transfers hu
  obtain ⟨hsource', hhistory'⟩ := (runRest_reads rest).uses_answer
    (r := { r with source := r.source ++ [pins] }) hneeds h8 hone hv
  exact ⟨u, hu, hempty.trans hsource', hhistory.trans hhistory'⟩

/-- Nothing but a reset and a fetch moves a BUSY reader (R315). -/
theorem readerAfter_waiting {b : Option Byte} {x : Input} {r : Reader} (hbusy : r.state = .busy) (hrst : x ≠ .rst)
    (hloop : x ≠ .loop) (hsource : ∀ pins, x ≠ .source true pins) :
    ∃ response taken source, readerAfter b x r =
      some { r with response := response, taken := taken, source := source } := by
  have stay : ∃ response taken source,
      some r = some { r with response := response, taken := taken, source := source } :=
    ⟨r.response, r.taken, r.source, rfl⟩
  cases x with
  | rst => exact absurd rfl hrst
  | command p word =>
    cases p with
    | writer => exact stay
    | reader =>
      have hsame : readerAfter b (.command .reader word) r = some r := if_neg (by simp [readerCmdReady, hbusy])
      rwa [hsame]
  | take p =>
    cases p with
    | writer => exact stay
    | reader => exact ⟨none, r.taken ++ r.response.toList, r.source, rfl⟩
  | sink pins => exact stay
  | close pins => exact stay
  | source ack pins =>
    cases ack with
    | true => exact absurd rfl (hsource pins)
    | false =>
      have hsame : readerAfter b (.source false pins) r = some r := if_neg (by simp)
      rwa [hsame]
  | reposition => exact ⟨r.response, r.taken, [], rfl⟩
  | loop => exact absurd rfl hloop

/-- Settles O39: a reader waits where its bits end, and goes on with its fetch alone (R79, R81, R315). -/
theorem readerWaitsForTheSource : Obligations.ReaderWaitsForTheSource := by
  refine ⟨fun s i bytes hstate hresponse hposition hmore hsource => ?_, fun s later pins hinv hrequest => ?_,
    fun s later ack pins hrequest hin => ?_⟩
  · obtain ⟨hport, hlegal⟩ := reader_of_needsMore hmore
    have hreads := runRest_reads (readerBody i)
    obtain ⟨rest, u, hx⟩ :=
      (hreads.waits_iff (r := { s.reader with state := .busy }) hsource (runRest_not_stuck hposition)).2
        ((restNeeds_readerBody hport hlegal _).2 hmore)
    obtain ⟨h8, hempty, -⟩ := hreads.waits hx
    have hran := runRest_ran (by rw [hx]; rfl : readerAt (runRest (readerBody i) _) = some u)
    obtain ⟨used, hused, hhistory⟩ := hreads.fetched (by rw [hx]; rfl : readerAt (runRest (readerBody i) _) = some u)
    rw [hempty, List.append_nil] at hused
    refine ⟨{ s with reader := { u with body := some ⟨i, rest⟩ } }, ?_, hran.state, hran.response.trans hresponse,
      hempty, ?_, h8, hran.fault, ?_, rfl⟩
    · rw [exec_starts_reader hport hlegal hstate hresponse, hx]
      rfl
    · simp [sourceRequest, hran.state]
    · refine hhistory.trans ?_
      rw [← hused]
      simp [hsource, sourceAnswer, bytePins]
  · have hbusy : s.reader.state = .busy := by simpa [sourceRequest] using hrequest
    refine ⟨fun hin => ?_, fun hin => ?_, fun x t hin hrst hloop hother h => ?_⟩
    · simp [step_applyInput hin, applyInput, sourceEdge]
    · obtain ⟨u, hu, hempty, hhistory⟩ := resumeReader_fetches hinv.2.1 hbusy pins
      refine ⟨{ s with inputs := later, clock := s.clock + 1, reader := u }, ?_, hhistory, hempty, rfl⟩
      rw [step_applyInput hin, applyInput, sourceEdge_fetch (by simpa [sourceRequest] using hbusy), postSource]
      simp only [hu, withReader]
    · obtain ⟨-, hr, -⟩ := step_units hin h
      obtain ⟨response, taken, source, hsame⟩ :=
        readerAfter_waiting (b := undelivered s) hbusy hrst hloop hother
      rw [hsame] at hr
      have hr := Option.some.inj hr
      exact ⟨by simp [sourceRequest, ← hr, hbusy], by rw [← hr]⟩
  · have hidle : sourceRequest { s with inputs := later, clock := s.clock + 1 } = false := hrequest
    rw [step_applyInput hin, applyInput, sourceEdge_idle hidle]

/-! ### Loopback (R92) -/

/-- Settles O55: the delivery is the source's next answer (R92). -/
theorem loopbackDeliversTheOutputStreamInOrder : Obligations.LoopbackDeliversTheOutputStreamInOrder := by
  intro s later hin
  refine ⟨fun b hb => ?_, fun hnone => ?_⟩
  · have hdrop : (outputStream s.writer.history).drop s.looped =
        b :: (outputStream s.writer.history).drop (s.looped + 1) := by
      obtain ⟨hlt, rfl⟩ := List.getElem?_eq_some_iff.1 hb
      exact List.drop_eq_getElem_cons hlt
    have hstep : step s = withReader { s with inputs := later, clock := s.clock + 1, looped := s.looped + 1 }
        (resumeReader { s.reader with source := s.reader.source ++ [bytePins b] }) := by
      rw [step_applyInput hin, applyInput, loopByte]
      simp only [hdrop]
      rfl
    refine ⟨fun hidle => ?_, fun hbusy hinv => ?_⟩
    · rw [hstep, resumeReader_idle (r := { s.reader with source := s.reader.source ++ [bytePins b] }) hidle]
      rfl
    · obtain ⟨u, hu, hempty, hhistory⟩ := resumeReader_fetches hinv.2.1 hbusy (bytePins b)
      rw [hu] at hstep
      refine ⟨_, { s with reader := u }, hstep, hhistory, hempty, rfl, rfl, rfl, ?_, rfl⟩
      change withReader s (resumeReader { s.reader with source := s.reader.source ++ [bytePins b] }) = _
      rw [hu]
      rfl
  · have hdrop : (outputStream s.writer.history).drop s.looped = [] :=
      List.drop_eq_nil_iff.2 (List.getElem?_eq_none_iff.1 hnone)
    rw [step_applyInput hin, applyInput, loopByte]
    simp only [hdrop]

end Sys2Proof.Machine
end

section
/-! SUPPORT. Proofs of the statements about the encoding (30_encoding.md R101 to R107). A word decodes exactly when its
fields pass the five checks of R107, `decode_ok_iff`; the round trips and the masks of R105 are then facts about the
fields of a word. -/

namespace Sys2Proof

open Sys2Proof.Safety

/-! ### Decoding as checks on the fields (R101, R103, R107) -/

/-- The operand fields of a word with this opcode hold nothing where its command has no such operand (R105). -/
def UnusedZero (op : BitVec 4) (n : BitVec 6) (v : Word) : Prop :=
  (usesN op = false → n = 0#6) ∧ (usesV op = false → v = 0#32)

theorem commandOf_reserved (n : Nat) (v : Word) : commandOf 0xF#4 n v = .error .reservedOp := rfl

/-- Every opcode but the reserved one names a command (R103, R106). -/
theorem commandOf_ok_of_ne {op : BitVec 4} (h : op ≠ 0xF#4) (n : Nat) (v : Word) : ∃ i, commandOf op n v = .ok i := by
  have hlt : op.toNat < 15 := by
    have hne : op.toNat ≠ 15 := fun e => h (BitVec.eq_of_toNat_eq e)
    have hle := op.isLt
    omega
  unfold commandOf
  generalize op.toNat = k at hlt ⊢
  interval_cases k <;> exact ⟨_, rfl⟩

/-- A word decodes on a port to the command its fields name, when OP is of that port, RSV is zero and so are the fields
its command does not use (R107). -/
theorem decode_ok_iff {p : Port} {w : CommandWord} {i : Instr} :
    decode p w = .ok i ↔
      opPort (opField w) = p ∧ rsvField w = 0#6 ∧ UnusedZero (opField w) (nField w) (vField w) ∧
        commandOf (opField w) (nField w).toNat (vField w) = .ok i := by
  unfold decode UnusedZero
  split
  next h => simp [h, commandOf_reserved]
  split
  next h => simp [h]
  next hport =>
  split
  next h => simp [h]
  next hrsv =>
  split
  next h => simp [h]
  next hn =>
  split
  next h => simp [h]
  next hv =>
  simp only [not_and, not_not] at hport hrsv hn hv
  exact ⟨fun h => ⟨hport, hrsv, ⟨hn, hv⟩, h⟩, fun h => h.2.2.2⟩

/-- A command has an encoding exactly when its N fits six bits (R102). -/
theorem wellFormed_iff (i : Instr) : wellFormed i = true ↔ operandN i < 64 := by
  cases i <;> simp [wellFormed, fitsN, operandN]

/-- A command is the one its opcode names with its operands (R103). -/
theorem commandOf_opcode (i : Instr) : commandOf (opcode i) (operandN i) (operandV i) = .ok i := by
  cases i <;> rfl

/-- A decoded command has the operands it was decoded from, where the fields it does not use are zero (R103, R105). -/
theorem operands_of_commandOf {op : BitVec 4} {n : BitVec 6} {v : Word} {i : Instr} (hz : UnusedZero op n v)
    (h : commandOf op n.toNat v = .ok i) : operandN i = n.toNat ∧ operandV i = v := by
  have hop : opcode i = op := Machine.opcode_of_commandOf h
  subst hop
  obtain ⟨hn, hv⟩ := hz
  cases i <;> cases h <;> simp_all [operandN, operandV, usesN, usesV, opcode]

/-! ### The round trips (R107) -/

/-- Settles O4: the encoded word passes the checks, and its fields name the command (R101, R103). -/
theorem decodeReadsBackEveryEncodedCommand : Obligations.DecodeReadsBackEveryEncodedCommand := by
  intro i hi
  have hn : (nField (encode i)).toNat = operandN i := by
    rw [nField_encode, BitVec.toNat_ofNat]
    exact Nat.mod_eq_of_lt ((wellFormed_iff i).1 hi)
  rw [decode_ok_iff, hn, opField_encode, vField_encode]
  refine ⟨rfl, rsvField_encode i, ⟨fun h => ?_, operandV_of_unused⟩, commandOf_opcode i⟩
  rw [nField_encode, operandN_of_unused h]

/-- Settles O5: opcode and operands of the decoded command are the word's own fields, and RSV is zero. -/
theorem encodeRebuildsEveryDecodedWord : Obligations.EncodeRebuildsEveryDecodedWord := by
  intro p w i h
  obtain ⟨hport, hrsv, hz, hcmd⟩ := decode_ok_iff.1 h
  have hop : opcode i = opField w := Machine.opcode_of_commandOf hcmd
  obtain ⟨hn, hv⟩ := operands_of_commandOf hz hcmd
  refine ⟨(wellFormed_iff i).2 (hn ▸ (nField w).isLt), by rw [portOf, hop, hport], ?_⟩
  calc encode i = opField w ++ nField w ++ rsvField w ++ vField w := by
        rw [encode, hop, hn, hv, hrsv, BitVec.ofNat_toNat, BitVec.setWidth_eq]
    _ = w := word_eq_fields w

/-! ### The rows of the opcode table (R105) -/

/-- Some command is decoded exactly when the fields pass the checks (R107). -/
theorem decodes_iff {p : Port} {w : CommandWord} :
    (∃ i, decode p w = .ok i) ↔
      opField w ≠ 0xF#4 ∧ opPort (opField w) = p ∧ rsvField w = 0#6 ∧
        UnusedZero (opField w) (nField w) (vField w) := by
  constructor
  · rintro ⟨i, h⟩
    obtain ⟨hport, hrsv, hz, hcmd⟩ := decode_ok_iff.1 h
    exact ⟨Machine.opcode_of_commandOf hcmd ▸ opcode_ne_reserved i, hport, hrsv, hz⟩
  · rintro ⟨hop, hport, hrsv, hz⟩
    obtain ⟨i, hi⟩ := commandOf_ok_of_ne hop (nField w).toNat (vField w)
    exact ⟨i, decode_ok_iff.2 ⟨hport, hrsv, hz, hi⟩⟩

/-- The row R105 gives an opcode: OP and RSV fixed, and N and V fixed to zero where they are unused. -/
def rowOf (op : BitVec 4) : OpRow where
  port := opPort op
  mask := BitVec.allOnes 4 ++ (if usesN op then 0#6 else BitVec.allOnes 6) ++ BitVec.allOnes 6 ++
    (if usesV op then 0#32 else BitVec.allOnes 32)
  pattern := op ++ 0#6 ++ 0#6 ++ 0#32

/-- The opcode table has the row of every opcode but the reserved one (R103, R106). -/
theorem opcodeTable_eq : opcodeTable = ((List.range 15).map (BitVec.ofNat 4)).map rowOf := by decide

theorem mem_opcodeTable_iff (row : OpRow) : row ∈ opcodeTable ↔ ∃ op, op ≠ 0xF#4 ∧ rowOf op = row := by
  have hops : ∀ op : BitVec 4, op ∈ (List.range 15).map (BitVec.ofNat 4) ↔ op ≠ 0xF#4 := by decide
  simp only [opcodeTable_eq, List.mem_map (f := rowOf), hops]

/-- The fields of a word under a mask are its fields under the mask's. -/
theorem fields_and_fields {a b c d : Nat} (x x' : BitVec a) (y y' : BitVec b) (z z' : BitVec c) (v v' : BitVec d) :
    (x ++ y ++ z ++ v) &&& (x' ++ y' ++ z' ++ v') = (x &&& x') ++ (y &&& y') ++ (z &&& z') ++ (v &&& v') := by
  rw [BitVec.and_append, BitVec.and_append, BitVec.and_append]

/-- A word under a mask given field by field. -/
theorem and_fields_eq_iff (w : CommandWord) (mop op : BitVec 4) (mn n mrsv rsv : BitVec 6) (mv v : Word) :
    w &&& (mop ++ mn ++ mrsv ++ mv) = op ++ n ++ rsv ++ v ↔
      opField w &&& mop = op ∧ nField w &&& mn = n ∧ rsvField w &&& mrsv = rsv ∧ vField w &&& mv = v := by
  have hw : w &&& (mop ++ mn ++ mrsv ++ mv) =
      (opField w &&& mop) ++ (nField w &&& mn) ++ (rsvField w &&& mrsv) ++ (vField w &&& mv) := by
    conv_lhs => rw [← word_eq_fields w]
    exact fields_and_fields _ _ _ _ _ _ _ _
  rw [hw]
  constructor
  · intro h
    exact ⟨by simpa only [opField_append] using congrArg opField h,
      by simpa only [nField_append] using congrArg nField h,
      by simpa only [rsvField_append] using congrArg rsvField h,
      by simpa only [vField_append] using congrArg vField h⟩
  · rintro ⟨rfl, rfl, rfl, rfl⟩
    rfl

/-- A field under the mask of an unused operand is zero; a used operand is not looked at. -/
theorem and_unused_eq_zero_iff {k : Nat} (x : BitVec k) (used : Bool) :
    x &&& (if used then 0#k else BitVec.allOnes k) = 0#k ↔ (used = false → x = 0#k) := by
  cases used <;> simp

/-- A word matches the row of an opcode when OP is that opcode and the fields the row fixes are zero (R105). -/
theorem rowMatches_rowOf (op : BitVec 4) (p : Port) (w : CommandWord) :
    rowMatches (rowOf op) p w ↔
      opPort op = p ∧ opField w = op ∧ rsvField w = 0#6 ∧ UnusedZero op (nField w) (vField w) := by
  unfold rowMatches rowOf UnusedZero
  rw [and_fields_eq_iff, and_unused_eq_zero_iff, and_unused_eq_zero_iff, BitVec.and_allOnes, BitVec.and_allOnes]
  tauto

/-- Settles O6: the row a word can match is that of its own opcode. -/
theorem decodeAcceptsExactlyTheMaskedRows : Obligations.DecodeAcceptsExactlyTheMaskedRows := by
  intro p w
  rw [decodes_iff]
  constructor
  · rintro ⟨hop, hport, hrsv, hz⟩
    exact ⟨rowOf (opField w), (mem_opcodeTable_iff _).2 ⟨_, hop, rfl⟩,
      (rowMatches_rowOf _ p w).2 ⟨hport, rfl, hrsv, hz⟩⟩
  · rintro ⟨row, hrow, hmatch⟩
    obtain ⟨op, hop, rfl⟩ := (mem_opcodeTable_iff row).1 hrow
    obtain ⟨hport, rfl, hrsv, hz⟩ := (rowMatches_rowOf op p w).1 hmatch
    exact ⟨hop, hport, hrsv, hz⟩

/-! ### Single words (R104) -/

/-- OP[3] is bit 47 of the word, and names the port (R101, R103). -/
theorem opPort_opField (w : CommandWord) : opPort (opField w) = if w.getLsbD 47 then .reader else .writer := by
  rw [opPort, opField, BitVec.getLsbD_extractLsb']
  rfl

/-- A word whose OP names another unit decodes to no command on the port (R104). -/
theorem decode_error_of_opPort_ne {p : Port} {w : CommandWord} (h : opPort (opField w) ≠ p) :
    ∃ e, decode p w = .error e := by
  cases hd : decode p w with
  | ok i => exact absurd (decode_ok_iff.1 hd).1 h
  | error e => exact ⟨e, rfl⟩

/-- Settles O7: bit 47 names the other port. -/
theorem anotherUnitsOpcodeIsIllegal : Obligations.AnotherUnitsOpcodeIsIllegal :=
  fun w => ⟨fun h => decode_error_of_opPort_ne (by rw [opPort_opField, h]; decide),
    fun h => decode_error_of_opPort_ne (by rw [opPort_opField, h]; decide)⟩

/-- Settles O8: each word is decoded by evaluation (95_test_vectors.md). -/
theorem sampleWordsDecode : Obligations.SampleWordsDecode := ⟨rfl, rfl, rfl, rfl, rfl, rfl, rfl⟩

end Sys2Proof
end

section
/-! SUPPORT. Proofs of the statements about the command and response ports (30_encoding.md R100, R120, R122), and that
every input has an answer. How many responses a unit owes or has given is a number of that unit alone, so one step
changes it as `writerAfter` or `readerAfter` does. -/

namespace Sys2Proof.Machine

open Sys2Proof.Safety

/-! ### The response word and the two handshakes (R100, R120) -/

/-- Settles O14: the response word is the code's bits before the data (R120, R261). -/
theorem responseWordCarriesCodeAndData : Obligations.ResponseWordCarriesCodeAndData := by
  refine fun c d => ⟨BitVec.extractLsb'_append_eq_right, BitVec.extractLsb'_append_eq_left.trans ?_⟩
  cases c with
  | ok => rfl
  | err e => cases e <;> rfl

/-- Settles O10: a ready port runs the command its word decodes to (R100, R107). -/
theorem stepRunsTheDecodedCommand : Obligations.StepRunsTheDecodedCommand := by
  intro s p w later i hin hready hdecode
  have hready' : cmdReady p { s with inputs := later, clock := s.clock + 1 } = true := hready
  rw [step_applyInput hin, applyInput, presentCommand, if_pos hready', hdecode]

/-- A writer is ready when it is not BUSY and offers no response (R122). -/
theorem writerCmdReady_iff (w : Writer) : writerCmdReady w = true ↔ w.state ≠ .busy ∧ w.response = none := by
  simp [writerCmdReady]

/-- A reader is ready when it is not BUSY and offers no response (R122). -/
theorem readerCmdReady_iff (r : Reader) : readerCmdReady r = true ↔ r.state ≠ .busy ∧ r.response = none := by
  simp [readerCmdReady]

/-- Settles O11: a port that is not ready accepts no word (R100, R122). -/
theorem noCommandIsAcceptedBeforeTheResponseIsTaken : Obligations.NoCommandIsAcceptedBeforeTheResponseIsTaken := by
  intro s p w later hin hwaits
  have hready : ¬ cmdReady p { s with inputs := later, clock := s.clock + 1 } = true := by
    cases p with
    | writer =>
      intro h
      obtain ⟨hidle, hnone⟩ := (writerCmdReady_iff s.writer).1 h
      exact hwaits.elim hidle fun hoffered => hoffered hnone
    | reader =>
      intro h
      obtain ⟨hidle, hnone⟩ := (readerCmdReady_iff s.reader).1 h
      exact hwaits.elim hidle fun hoffered => hoffered hnone
  rw [step_applyInput hin, applyInput, presentCommand, if_neg hready]

/-- Settles O12: the take moves the response to the record and clears it (R100, R122). -/
theorem takingTheResponseFreesThePort : Obligations.TakingTheResponseFreesThePort := by
  intro s p later rsp hin hoffered
  refine ⟨_, step_applyInput hin, ?_⟩
  cases p with
  | writer =>
    have hrsp : s.writer.response = some rsp := hoffered
    exact ⟨rfl, by simp [hrsp], rfl, fun hidle => (writerCmdReady_iff _).2 ⟨hidle, rfl⟩⟩
  | reader =>
    have hrsp : s.reader.response = some rsp := hoffered
    exact ⟨rfl, by simp [hrsp], rfl, fun hidle => (readerCmdReady_iff _).2 ⟨hidle, rfl⟩⟩

/-! ### Every input has an answer (R107, R268, R278) -/

/-- An answer of the source, to a reader that waits for it or to one that does not, leads to a next reader (R80, R201). -/
theorem resumeReader_some {r : Reader} (hinv : ReaderInv r) (pins : SourcePins) :
    ∃ u, resumeReader { r with source := r.source ++ [pins] } = some u := by
  by_cases hbusy : r.state = .busy
  · obtain ⟨u, hu, -⟩ := resumeReader_fetches hinv hbusy pins
    exact ⟨u, hu⟩
  · exact ⟨_, resumeReader_idle (r := { r with source := r.source ++ [pins] }) hbusy⟩

/-- A word on the reader's port leads to a next reader (R107, R268). -/
theorem presentReader_some {r : Reader} (hinv : ReaderInv r) (word : CommandWord) :
    ∃ u, presentReader word r = some u := by
  obtain ⟨hposition, -⟩ := hinv
  unfold presentReader cycleReader
  split
  · split
    · split
      · exact ⟨_, rfl⟩
      split
      · exact ⟨_, rfl⟩
      · exact settleReader_some (runRest_not_stuck hposition)
    · exact ⟨_, rfl⟩
  · exact ⟨_, rfl⟩

/-- Every input leads to a next reader. -/
theorem readerAfter_some {r : Reader} (hinv : ReaderInv r) (b : Option Byte) (x : Input) :
    ∃ u, readerAfter b x r = some u := by
  cases x with
  | command p word =>
    cases p with
    | writer => exact ⟨_, rfl⟩
    | reader => exact presentReader_some hinv word
  | take p => cases p <;> exact ⟨_, rfl⟩
  | source ack pins =>
    change ∃ u, fetchEdge ack pins r = some u
    unfold fetchEdge
    split
    · exact resumeReader_some hinv pins
    · exact ⟨_, rfl⟩
  | loop =>
    cases b with
    | none => exact ⟨_, rfl⟩
    | some b => exact resumeReader_some hinv (bytePins b)
  | _ => exact ⟨_, rfl⟩

/-- Settles O49: only the reader can stop, and no legal one does. -/
theorem noStepStopsTheMachine : Obligations.NoStepStopsTheMachine := by
  rintro s ⟨-, hreader, -⟩
  cases hin : s.inputs with
  | nil => exact ⟨consumeInput s, by simp [step, runInputs, hin]⟩
  | cons x later =>
    obtain ⟨u, hu⟩ := readerAfter_some hreader (undelivered s) x
    have hu' : readerAfter (undelivered { s with inputs := later, clock := s.clock + 1 }) x s.reader = some u := hu
    rw [step_applyInput hin, applyInput_eq, hu']
    exact ⟨_, rfl⟩

/-! ### One response for each command (R122) -/

/-- The writer's commands: answered and taken, answered, or running. -/
def writerAnswered (w : Writer) : Nat :=
  w.taken.length + w.response.toList.length + (if w.state = .busy then 1 else 0)

/-- The reader's commands: answered and taken, answered, or running. -/
def readerAnswered (r : Reader) : Nat :=
  r.taken.length + r.response.toList.length + (if r.state = .busy then 1 else 0)

theorem answered_writer (s : State) : answered .writer s = writerAnswered s.writer := rfl

theorem answered_reader (s : State) : answered .reader s = readerAnswered s.reader := rfl

/-- A ready writer has every command it counts taken. -/
theorem writerAnswered_of_ready {w : Writer} (h : writerCmdReady w = true) : writerAnswered w = w.taken.length := by
  obtain ⟨hidle, hnone⟩ := (writerCmdReady_iff w).1 h
  simp [writerAnswered, hidle, hnone]

/-- A ready reader has every command it counts taken. -/
theorem readerAnswered_of_ready {r : Reader} (h : readerCmdReady r = true) : readerAnswered r = r.taken.length := by
  obtain ⟨hidle, hnone⟩ := (readerCmdReady_iff r).1 h
  simp [readerAnswered, hidle, hnone]

/-- A refused command has its response (R268). -/
theorem writerAnswered_failWriter {w : Writer} (e : Err) (hready : writerCmdReady w = true) :
    writerAnswered (failWriter e w) = w.taken.length + 1 := by
  obtain ⟨hidle, -⟩ := (writerCmdReady_iff w).1 hready
  simp [writerAnswered, hidle]

/-- A refused command has its response (R268). -/
theorem readerAnswered_failReader {r : Reader} (e : Err) (hready : readerCmdReady r = true) :
    readerAnswered (failReader e r) = r.taken.length + 1 := by
  obtain ⟨hidle, -⟩ := (readerCmdReady_iff r).1 hready
  simp [readerAnswered, hidle]

/-- A run of a body ends with one response, or the command still runs (R268). -/
theorem writerAnswered_settleWriter {w : Writer} {cmd : Instr} {x : WriteRun} (hran : WriterRan w (reached x))
    (hnone : w.response = none) (hinv : WriterInv (settleWriter cmd x)) :
    writerAnswered (settleWriter cmd x) = w.taken.length + 1 := by
  obtain ⟨-, -, hbody, -⟩ := hinv
  have htaken : (reached x).taken = w.taken := hran.taken
  cases x with
  | done u => simp [writerAnswered, settleWriter, writerEndState_ne_busy, ← htaken, reached]
  | wait u rest =>
    have hresponse : u.response = none := hran.response.trans hnone
    have hbusy : u.state = .busy := by
      by_contra hidle
      exact absurd (hbody hidle) nofun
    simp [writerAnswered, settleWriter, hbusy, hresponse, ← htaken, reached]
  | raise u => simp [writerAnswered, settleWriter, ← htaken, reached]

/-- An answer of the sink neither adds nor drops a command (R72, R77). -/
theorem writerAnswered_resumeWriter {w : Writer} (hnone : w.state = .busy → w.response = none)
    (hinv : WriterInv (resumeWriter w)) : writerAnswered (resumeWriter w) = writerAnswered w := by
  by_cases hbusy : w.state = .busy
  · cases hbody : w.body with
    | none => simp [resumeWriter, hbody]
    | some b =>
      rw [resumeWriter_busy hbusy hbody] at hinv ⊢
      rw [writerAnswered_settleWriter (runWOps_ran _ _) (hnone hbusy) hinv]
      simp [writerAnswered, hbusy, hnone hbusy]
  · rw [resumeWriter_idle hbusy]

/-- A run of a body ends with one response, or the command still runs (R268). -/
theorem readerAnswered_settleReader {r u : Reader} {cmd : Instr} {rest : RRest} (hbusy : r.state = .busy)
    (hnone : r.response = none) (h : settleReader cmd (runRest rest r) = some u) :
    readerAnswered u = r.taken.length + 1 := by
  have hran : ∀ v, readerAt (runRest rest r) = some v → ReaderRan r v := fun _ => runRest_ran
  cases hx : runRest rest r with
  | done data v =>
    rw [hx] at h hran
    cases h
    simp [readerAnswered, (hran v rfl).taken]
  | wait p v =>
    rw [hx] at h hran
    cases h
    have hv := hran v rfl
    simp [readerAnswered, hv.taken, hv.response, hv.state, hbusy, hnone]
  | raise e v =>
    rw [hx] at h hran
    cases h
    have hidle : stateAfterError e ≠ .busy := by cases e <;> decide
    simp [readerAnswered, (hran v rfl).taken, hidle]
  | stuck =>
    rw [hx] at h
    cases h

/-- An answer of the source neither adds nor drops a command (R80). -/
theorem readerAnswered_resumeReader {r u : Reader} (hnone : r.state = .busy → r.response = none)
    (h : resumeReader r = some u) : readerAnswered u = readerAnswered r := by
  by_cases hbusy : r.state = .busy
  · cases hbody : r.body with
    | none =>
      obtain rfl : r = u := by simpa [resumeReader, hbody] using h
      rfl
    | some b =>
      rw [resumeReader_busy hbusy hbody] at h
      rw [readerAnswered_settleReader hbusy (hnone hbusy) h]
      simp [readerAnswered, hbusy, hnone hbusy]
  · rw [resumeReader_idle hbusy] at h
    cases h
    rfl

/-- A command the writer accepts is answered or runs (R122, R268). -/
theorem writerAnswered_cycleWriter {w : Writer} {cmd : Instr} (hinv : WriterInv w) (hport : portOf cmd = .writer)
    (hready : writerCmdReady w = true) :
    writerAnswered (cycleWriter cmd (precondition cmd) (writerBody cmd) w) = w.taken.length + 1 := by
  unfold cycleWriter
  split
  · exact writerAnswered_failWriter _ hready
  next hstate =>
    split
    · exact writerAnswered_failWriter _ hready
    · have hstate := not_not.1 hstate
      obtain ⟨-, hnone⟩ := (writerCmdReady_iff w).1 hready
      exact writerAnswered_settleWriter (w := { w with state := .busy }) (runWOps_ran _ _) hnone
        ((WriterMove.start (x := .rst) cmd hport hready hstate).inv hinv)

/-- A command the reader accepts is answered or runs (R122, R268). -/
theorem readerAnswered_cycleReader {r u : Reader} {cmd : Instr} (hready : readerCmdReady r = true)
    (h : cycleReader cmd (precondition cmd) (readerBody cmd) r = some u) :
    readerAnswered u = r.taken.length + 1 := by
  unfold cycleReader at h
  split at h
  · cases h
    exact readerAnswered_failReader _ hready
  split at h
  · cases h
    exact readerAnswered_failReader _ hready
  · obtain ⟨-, hnone⟩ := (readerCmdReady_iff r).1 hready
    exact readerAnswered_settleReader (r := { r with state := .busy }) rfl hnone h

/-- A word adds one command to a ready writer's count and none to another's (R100, R122). -/
theorem writerAnswered_presentWriter {w : Writer} (hinv : WriterInv w) (word : CommandWord) :
    writerAnswered (presentWriter word w) = writerAnswered w + if writerCmdReady w then 1 else 0 := by
  unfold presentWriter
  split
  next hready =>
    rw [writerAnswered_of_ready hready]
    split
    next i hd => exact writerAnswered_cycleWriter hinv (portOf_of_decode hd) hready
    next => exact writerAnswered_failWriter _ hready
  next => rfl

/-- A word adds one command to a ready reader's count and none to another's (R100, R122). -/
theorem readerAnswered_presentReader {r u : Reader} {word : CommandWord} (h : presentReader word r = some u) :
    readerAnswered u = readerAnswered r + if readerCmdReady r then 1 else 0 := by
  unfold presentReader at h
  split at h
  next hready =>
    rw [if_pos hready, readerAnswered_of_ready hready]
    split at h
    next => exact readerAnswered_cycleReader hready h
    next => cases h; exact readerAnswered_failReader _ hready
  next hready => cases h; rw [if_neg hready, Nat.add_zero]

/-- An edge of the sink port adds no command (R75). -/
theorem writerAnswered_sinkEdge {s : State} (hinv : WriterInv s.writer) (pins : SinkPins) :
    writerAnswered (sinkEdge pins s).writer = writerAnswered s.writer := by
  have hnext : WriterInv (sinkEdge pins s).writer := (sinkEdge_move .rst pins s).inv hinv
  rw [sinkEdge_eq] at hnext ⊢
  split
  next h =>
    rw [if_pos h] at hnext
    obtain ⟨-, -, -, hbusy, -⟩ := hinv
    exact writerAnswered_resumeWriter (w := { s.writer with sink := s.writer.sink ++ [_] }) (fun hb => (hbusy hb).1) hnext
  next => rfl

/-- An edge of the close port adds no command (R77). -/
theorem writerAnswered_closeEdge {s : State} (hinv : WriterInv s.writer) (pins : SinkPins) :
    writerAnswered (closeEdge pins s).writer = writerAnswered s.writer := by
  have hnext : WriterInv (closeEdge pins s).writer := (closeEdge_move .rst pins s).inv hinv
  rw [closeEdge_eq] at hnext ⊢
  split
  next h =>
    rw [if_pos h] at hnext
    obtain ⟨-, -, -, hbusy, -⟩ := hinv
    exact writerAnswered_resumeWriter (w := { s.writer with closes := s.writer.closes ++ [_] }) (fun hb => (hbusy hb).1) hnext
  next => rfl

/-- An answer of the source adds no command (R80). -/
theorem readerAnswered_answer {r u : Reader} {pins : SourcePins} (hinv : ReaderInv r)
    (h : resumeReader { r with source := r.source ++ [pins] } = some u) : readerAnswered u = readerAnswered r := by
  obtain ⟨-, -, -, hbusy, -⟩ := hinv
  exact readerAnswered_resumeReader (r := { r with source := r.source ++ [pins] }) (fun hb => (hbusy hb).2.1) h

/-- The number of commands a port accepts with an input: one where the input is a word on it and it is ready (R100). -/
def acceptedBy (p : Port) (x : Input) (ready : Bool) : Nat :=
  match x with
  | .command q _ => if p = q ∧ ready = true then 1 else 0
  | _ => 0

/-- One input outside reset adds the commands the writer's port accepts to the writer's count (R122). -/
theorem writerAnswered_writerAfter {w : Writer} {x : Input} (hinv : WriterInv w) (hx : x ≠ .rst) :
    writerAnswered (writerAfter x w) = writerAnswered w + acceptedBy .writer x (writerCmdReady w) := by
  cases x with
  | rst => exact absurd rfl hx
  | command p word =>
    cases p with
    | writer =>
      change writerAnswered (presentWriter word w) = _
      simpa [acceptedBy] using writerAnswered_presentWriter hinv word
    | reader => exact (Nat.add_zero _).symm
  | take p =>
    cases p with
    | writer =>
      change writerAnswered { w with response := none, taken := w.taken ++ w.response.toList } = _
      simp [writerAnswered, acceptedBy]
    | reader => exact (Nat.add_zero _).symm
  | sink pins => exact writerAnswered_sinkEdge (s := writerAlone w) hinv pins
  | close pins => exact writerAnswered_closeEdge (s := writerAlone w) hinv pins
  | source ack pins => exact (Nat.add_zero _).symm
  | reposition => exact (Nat.add_zero _).symm
  | loop => exact (Nat.add_zero _).symm

/-- One input outside reset adds the commands the reader's port accepts to the reader's count (R122). -/
theorem readerAnswered_readerAfter {b : Option Byte} {x : Input} {r u : Reader} (hinv : ReaderInv r) (hx : x ≠ .rst)
    (h : readerAfter b x r = some u) :
    readerAnswered u = readerAnswered r + acceptedBy .reader x (readerCmdReady r) := by
  cases x with
  | rst => exact absurd rfl hx
  | command p word =>
    cases p with
    | writer => cases h; exact (Nat.add_zero _).symm
    | reader => simpa [acceptedBy] using readerAnswered_presentReader h
  | take p =>
    cases p with
    | writer => cases h; exact (Nat.add_zero _).symm
    | reader => cases h; simp [readerAnswered, acceptedBy]
  | sink pins => cases h; exact (Nat.add_zero _).symm
  | close pins => cases h; exact (Nat.add_zero _).symm
  | source ack pins =>
    change fetchEdge ack pins r = some u at h
    unfold fetchEdge at h
    split at h
    · exact readerAnswered_answer hinv h
    · cases h; rfl
  | reposition => cases h; exact (Nat.add_zero _).symm
  | loop =>
    cases b with
    | none => cases h; exact (Nat.add_zero _).symm
    | some b => exact readerAnswered_answer hinv h

/-- One step outside reset adds the commands a port accepts to its unit's count (R122). -/
theorem answered_step {s t : State} {x : Input} {later : List Input} (p : Port) (hinv : Inv s)
    (hin : s.inputs = x :: later) (hx : x ≠ .rst) (h : step s = .next t) :
    answered p t = answered p s + acceptedBy p x (cmdReady p s) := by
  obtain ⟨hwriter, hreader, -⟩ := hinv
  obtain ⟨hw, hr, -⟩ := step_units hin h
  cases p with
  | writer => rw [answered_writer, hw]; exact writerAnswered_writerAfter hwriter hx
  | reader => rw [answered_reader]; exact readerAnswered_readerAfter hreader hx hr

theorem acceptedBy_of_accepts {p : Port} {x : Input} {ready : Bool} (h : (∃ w, x = .command p w) ∧ ready = true) :
    acceptedBy p x ready = 1 := by
  obtain ⟨⟨w, rfl⟩, hready⟩ := h
  simp [acceptedBy, hready]

theorem acceptedBy_of_not_accepts {p : Port} {x : Input} {ready : Bool}
    (h : ¬ ((∃ w, x = .command p w) ∧ ready = true)) : acceptedBy p x ready = 0 := by
  cases x with
  | command q w =>
    refine if_neg ?_
    rintro ⟨rfl, hready⟩
    exact h ⟨⟨w, rfl⟩, hready⟩
  | _ => rfl

/-- Settles O13: one step adds to a unit's count the commands its port accepts with the input. -/
theorem eachAcceptedCommandIsAnsweredOnce : Obligations.EachAcceptedCommandIsAnsweredOnce := by
  intro s t x later p hinv hin hx h
  rw [answered_step p hinv hin hx h]
  exact ⟨fun haccepts => by rw [acceptedBy_of_accepts haccepts], fun hnot => by rw [acceptedBy_of_not_accepts hnot]; rfl⟩

end Sys2Proof.Machine
end

section
/-! SUPPORT. Proofs of the statements about assembler text (30_encoding.md R110, R111). A command's written line is its
mnemonic and operands, which read as the shape of the command applied to the operands' values; a line that assembles
names a shape, and every shape gives well-formed commands. -/

namespace Sys2Proof.Machine

open Sys2Proof.Safety

/-! ### The line of a command (R110) -/

/-- The command with these operands in the place of its own (R103). -/
def withOperands (i : Instr) (v : Word) (n : Nat) : Instr :=
  match i with
  | .wBit _ => .wBit v
  | .wZeroes _ => .wZeroes v
  | .wUnary _ => .wUnary v
  | .wBinary _ _ => .wBinary v n
  | .wByte _ => .wByte v
  | .wRice _ _ => .wRice v n
  | .rBinary _ => .rBinary n
  | .rRice _ => .rRice n
  | i => i

theorem withOperands_own (i : Instr) : withOperands i (operandV i) (operandN i) = i := by cases i <;> rfl

/-- The shape of a command's line: the operands its opcode uses (R103, R110). -/
def lineShape (i : Instr) : Shape :=
  match usesV (opcode i), usesN (opcode i) with
  | true, true => .bothVN (withOperands i)
  | true, false => .oneV fun v => withOperands i v (operandN i)
  | false, true => .oneN (withOperands i (operandV i))
  | false, false => .plain i

/-- The values of a command's operands, as they stand in its line (R110). -/
def lineValues (i : Instr) (x : Int) (m : Nat) : List Int :=
  match usesV (opcode i), usesN (opcode i) with
  | true, true => [x, m]
  | true, false => [x]
  | false, true => [m]
  | false, false => []

theorem shapeOf_mnemonic (i : Instr) : shapeOf (mnemonic i) = some (lineShape i) := by
  cases i <;> rfl

/-- The operands a command's line has are those its opcode uses, v before n (R110). -/
theorem writtenOperands_eq (i : Instr) (v n : List Char) :
    writtenOperands i v n =
      match usesV (opcode i), usesN (opcode i) with
      | true, true => ' ' :: v ++ [',', ' '] ++ n
      | true, false => ' ' :: v
      | false, true => ' ' :: n
      | false, false => [] := by
  cases i <;> rfl

theorem mnemonic_isName (i : Instr) :
    (mnemonic i).all (fun c => !isBlank c && c != ';') = true ∧ mnemonic i ≠ [] := by
  cases i <;> exact ⟨rfl, nofun⟩

/-- Written operands read as their values. -/
theorem writtenOperands_reads {i : Instr} {v n : List Char} {x : Int} {m : Nat}
    (hv : usesV (opcode i) = true → WrittenInt v x) (hn : usesN (opcode i) = true → WrittenNat n m) :
    FollowsName (writtenOperands i v n) ∧ readOperands (writtenOperands i v n) = some (lineValues i x m) := by
  rw [writtenOperands_eq, lineValues]
  cases hV : usesV (opcode i) <;> cases hN : usesN (opcode i)
  case true.true =>
    have hm := writtenNat_int (hn hN)
    exact ⟨followsName_two (hv hV) hm, readOperands_two (hv hV) hm⟩
  case true.false => exact ⟨followsName_one (hv hV), readOperands_one (hv hV)⟩
  case false.true =>
    have hm := writtenNat_int (hn hN)
    exact ⟨followsName_one hm, readOperands_one hm⟩
  case false.false => exact ⟨followsName_nil, rfl⟩

/-- The line of a command assembles as its shape says of the operands' values. -/
theorem assembleLine_writtenLine {i : Instr} {v n comment : List Char} {x : Int} {m : Nat}
    (hv : usesV (opcode i) = true → WrittenInt v x) (hn : usesN (opcode i) = true → WrittenNat n m)
    (hc : CommentOrNothing comment) :
    assembleLine (writtenLine i v n ++ comment) = (applyShape (lineShape i) (lineValues i x m)).map some := by
  obtain ⟨hfollows, hreads⟩ := writtenOperands_reads hv hn
  obtain ⟨hname, hne⟩ := mnemonic_isName i
  exact assembleLine_named hname hne hfollows (shapeOf_mnemonic i) hreads hc

/-! ### Operands in and out of range (R110) -/

/-- A value from −2^31 to 2^32−1, the numbers a V field can carry (R110). -/
abbrev EncodableV (x : Int) : Prop := -2147483648 ≤ x ∧ x < 4294967296

theorem operandAsV_of_encodable {x : Int} (h : EncodableV x) : operandAsV x = .ok (BitVec.ofInt 32 x) := if_pos h

theorem operandAsV_of_not_encodable {x : Int} (h : ¬ EncodableV x) : operandAsV x = .error .notEncodable := if_neg h

theorem operandAsN_of_le {m : Nat} (h : m ≤ 63) : operandAsN m = .ok m := by simp [operandAsN, h]

theorem operandAsN_of_gt {m : Nat} (h : 63 < m) : operandAsN m = .error .notEncodable := by simp [operandAsN, h]

/-- Operands the command's fields can carry give the command with these operands. -/
theorem applyShape_encodable {i : Instr} {x : Int} {m : Nat}
    (hv : usesV (opcode i) = true → EncodableV x ∧ operandV i = BitVec.ofInt 32 x)
    (hn : usesN (opcode i) = true → m ≤ 63 ∧ operandN i = m) :
    applyShape (lineShape i) (lineValues i x m) = .ok i := by
  have hi := withOperands_own i
  unfold lineShape lineValues
  cases hV : usesV (opcode i) <;> cases hN : usesN (opcode i)
  case true.true =>
    obtain ⟨hx, ev⟩ := hv hV
    obtain ⟨hm, en⟩ := hn hN
    simp only [applyShape, operandAsV_of_encodable hx, operandAsN_of_le hm]
    rw [← ev, ← en, hi]
  case true.false =>
    obtain ⟨hx, ev⟩ := hv hV
    simp only [applyShape, operandAsV_of_encodable hx, Except.map]
    rw [← ev, hi]
  case false.true =>
    obtain ⟨hm, en⟩ := hn hN
    simp only [applyShape, operandAsN_of_le hm, Except.map]
    rw [← en, hi]
  case false.false => rfl

/-- An operand no field can carry is an error (R110). -/
theorem applyShape_unencodable {i : Instr} {x : Int} {m : Nat}
    (h : (usesV (opcode i) = true ∧ ¬ EncodableV x) ∨ (usesN (opcode i) = true ∧ 63 < m)) :
    applyShape (lineShape i) (lineValues i x m) = .error .notEncodable := by
  unfold lineShape lineValues
  cases hV : usesV (opcode i) <;> cases hN : usesN (opcode i) <;>
    simp only [hV, hN, true_and, false_and, or_false, false_or, Bool.false_eq_true] at h
  case true.true =>
    by_cases hx : EncodableV x
    · simp only [applyShape, operandAsV_of_encodable hx, operandAsN_of_gt (h.resolve_left (not_not.2 hx))]
    · simp only [applyShape, operandAsV_of_not_encodable hx]
  case true.false => simp only [applyShape, operandAsV_of_not_encodable h, Except.map]
  case false.true => simp only [applyShape, operandAsN_of_gt h, Except.map]

/-! ### Lines of a mnemonic without operands, and none (R110, R111) -/

/-- A line that is only a comment holds no command (log 18). -/
theorem assembleLine_comment {comment : List Char} (hc : CommentOrNothing comment) :
    assembleLine comment = .ok none := by
  have hu : uncommented comment = [] := uncommented_append (text := []) (by simp) hc
  unfold assembleLine
  rw [hu]
  rfl

/-- A pseudo-command without operands (R111). -/
theorem assembleLine_plain {name comment : List Char} {i : Instr}
    (hname : name.all (fun c => !isBlank c && c != ';') = true) (hne : name ≠ []) (hs : shapeOf name = some (.plain i))
    (hc : CommentOrNothing comment) : assembleLine (name ++ comment) = .ok (some i) := by
  have h := assembleLine_named hname hne followsName_nil hs (xs := []) rfl hc
  rwa [List.append_nil] at h

/-- `R_SKIP n` is `R_BINARY n` (R111). -/
theorem assembleLine_skip {text comment : List Char} {n : Nat} (hn : WrittenNat text n)
    (hc : CommentOrNothing comment) :
    assembleLine (['R', '_', 'S', 'K', 'I', 'P', ' '] ++ text ++ comment) =
      if n ≤ 63 then .ok (some (.rBinary n)) else .error .notEncodable := by
  have hx := writtenNat_int hn
  have h := assembleLine_named (name := ['R', '_', 'S', 'K', 'I', 'P']) (by decide) (by decide) (followsName_one hx)
    (shape := .oneN pseudoRSkip) rfl (readOperands_one hx) hc
  refine h.trans ?_
  split
  next hle => simp only [applyShape, operandAsN_of_le hle]; rfl
  next hgt => simp only [applyShape, operandAsN_of_gt (not_le.1 hgt)]; rfl

/-- Settles O56: a line is read as its mnemonic's shape applied to its operands' values. -/
theorem writtenCommandsAssemble : Obligations.WrittenCommandsAssemble := by
  refine ⟨fun i v n comment hi ⟨hv, hn⟩ hc => ?_, fun i v n comment ⟨x, m, hv, hn, hout⟩ hc => ?_,
    fun comment hc => ⟨assembleLine_comment hc, ?_, ?_, fun text n hn => assembleLine_skip hn hc⟩⟩
  · obtain ⟨x, hx⟩ :
        ∃ x, usesV (opcode i) = true → WrittenInt v x ∧ EncodableV x ∧ operandV i = BitVec.ofInt 32 x := by
      by_cases hV : usesV (opcode i) = true
      · obtain ⟨x, hw, hlo, hhi, e⟩ := hv hV
        exact ⟨x, fun _ => ⟨hw, ⟨hlo, hhi⟩, e⟩⟩
      · exact ⟨0, fun h => absurd h hV⟩
    rw [assembleLine_writtenLine (fun h => (hx h).1) hn hc,
      applyShape_encodable (fun h => (hx h).2) fun _ => ⟨Nat.le_of_lt_succ ((wellFormed_iff i).1 hi), rfl⟩]
    rfl
  · have hout' : (usesV (opcode i) = true ∧ ¬ EncodableV x) ∨ (usesN (opcode i) = true ∧ 63 < m) :=
      hout.imp_left (And.imp_right fun h hx => by omega)
    rw [assembleLine_writtenLine hv hn hc, applyShape_unencodable hout']
    rfl
  · exact assembleLine_plain (by decide) (by decide) rfl hc
  · exact assembleLine_plain (by decide) (by decide) rfl hc

/-! ### Programs (R107, R110) -/

/-- The commands of this shape have an encoding, whatever operands an operand field can carry (R102). -/
def ShapeFits : Shape → Prop
  | .plain i => wellFormed i = true
  | .oneV f => ∀ v, wellFormed (f v) = true
  | .oneN f => ∀ n < 64, wellFormed (f n) = true
  | .bothVN f => ∀ v, ∀ n < 64, wellFormed (f v n) = true

/-- One line of the list of mnemonics: its shape fits, and so do those after it. -/
theorem shapeFits_ite {c : Prop} [Decidable c] {a : Shape} {o : Option Shape} (ha : ShapeFits a)
    (ho : ∀ shape, o = some shape → ShapeFits shape) :
    ∀ shape, (if c then some a else o) = some shape → ShapeFits shape := by
  intro shape h
  split at h
  · cases h
    exact ha
  · exact ho shape h

/-- Every mnemonic of R103 and R111 has a shape that fits. -/
theorem shapeOf_fits (name : List Char) : ∀ shape, shapeOf name = some shape → ShapeFits shape := by
  unfold shapeOf
  iterate 18
    refine shapeFits_ite (by simp [ShapeFits, wellFormed, fitsN, pseudoWOne, pseudoWZero, pseudoRSkip]) ?_
  exact nofun

theorem operandAsN_lt {x : Int} {n : Nat} (h : operandAsN x = .ok n) : n < 64 := by
  unfold operandAsN at h
  split at h
  · cases h
    omega
  · cases h

theorem exceptMap_eq_ok {ε α β : Type} {f : α → β} {y : Except ε α} {b : β} (h : y.map f = .ok b) :
    ∃ a, y = .ok a ∧ f a = b := by
  cases y with
  | error e => cases h
  | ok a => cases h; exact ⟨a, rfl, rfl⟩

/-- A shape applied to operands gives a well-formed command or an error (R102, R110). -/
theorem wellFormed_of_applyShape {shape : Shape} {xs : List Int} {i : Instr} (hs : ShapeFits shape)
    (h : applyShape shape xs = .ok i) : wellFormed i = true := by
  unfold applyShape at h
  split at h
  · cases h
    exact hs
  · obtain ⟨v, -, rfl⟩ := exceptMap_eq_ok h
    exact hs v
  · obtain ⟨n, hn, rfl⟩ := exceptMap_eq_ok h
    exact hs n (operandAsN_lt hn)
  · split at h
    next v n _ hn => cases h; exact hs v n (operandAsN_lt hn)
    next => cases h
    next => cases h
  · cases h

/-- A line that assembles to a command names a shape and has operands that give the command (R110). -/
theorem wellFormed_of_assembleLine {line : List Char} {i : Instr} (h : assembleLine line = .ok (some i)) :
    wellFormed i = true := by
  unfold assembleLine at h
  dsimp only at h
  split at h
  · cases h
  split at h
  · cases h
  · cases h
  next shape xs hs _ =>
    obtain ⟨j, hj, hji⟩ := exceptMap_eq_ok h
    cases hji
    exact wellFormed_of_applyShape (shapeOf_fits _ shape hs) hj

/-- Lines that assemble give the words of their commands, in order (R110). -/
theorem assemble_of_lines {lines : List (List Char)} {commands : List (Option Instr)}
    (h : lines.map assembleLine = commands.map .ok) : assemble lines = .ok ((commands.filterMap id).map encode) := by
  induction lines generalizing commands with
  | nil =>
    obtain rfl : commands = [] := by simpa using h.symm
    rfl
  | cons line rest ih =>
    match commands, h with
    | command :: later, h =>
      simp only [List.map_cons, List.cons.injEq] at h
      obtain ⟨hline, hrest⟩ := h
      rw [assemble, hline, ih hrest]
      cases command <;> rfl

/-- Settles O57: the words are those of the lines' commands, each well formed and so read back by the decoder. -/
theorem assembledProgramIsItsEncodedCommands : Obligations.AssembledProgramIsItsEncodedCommands :=
  ⟨fun _ _ h => assemble_of_lines h, fun _ i h =>
    have hi := wellFormed_of_assembleLine h
    ⟨hi, decodeReadsBackEveryEncodedCommand i hi⟩⟩

end Sys2Proof.Machine
end

section
/-! SUPPORT. Proofs of the statements about what a writer command emits and keeps (40_write_path.md R141 to R152). A run
whose emits are all accepted leaves the closed form of its bit stream (R155), `PlacesBits.packs`; the flush and the
close are single transfers. -/

namespace Sys2Proof.Machine

open Sys2Proof.Safety

/-! ### Bit sequences as numbers (R84, R85) -/

theorem bitsValue_append (xs ys : List Bool) :
    bitsValue (xs ++ ys) = bitsValue xs + 2 ^ xs.length * bitsValue ys := by
  induction xs with
  | nil => simp [bitsValue]
  | cons b xs ih =>
    rw [List.cons_append, bitsValue, bitsValue, ih, List.length_cons, pow_succ]
    ring

theorem bitsValue_take (xs : List Bool) (n : Nat) : bitsValue (xs.take n) = bitsValue xs % 2 ^ n := by
  induction xs generalizing n with
  | nil => simp [bitsValue]
  | cons b xs ih =>
    cases n with
    | zero => simp [bitsValue, Nat.mod_one]
    | succ n =>
      have hb : (b.toNat + 2 * bitsValue xs) % 2 = b.toNat ∧ (b.toNat + 2 * bitsValue xs) / 2 = bitsValue xs := by
        have := Bool.toNat_le b
        omega
      rw [List.take_succ_cons, bitsValue, bitsValue, ih, pow_succ', Nat.mod_mul, hb.1, hb.2]

theorem bitsValue_drop (xs : List Bool) (n : Nat) : bitsValue (xs.drop n) = bitsValue xs >>> n := by
  induction xs generalizing n with
  | nil => simp [bitsValue]
  | cons b xs ih =>
    cases n with
    | zero => simp
    | succ n =>
      have hb : (b.toNat + 2 * bitsValue xs) / 2 = bitsValue xs := by
        have := Bool.toNat_le b
        omega
      rw [List.drop_succ_cons, ih, bitsValue, Nat.add_comm n, Nat.shiftRight_add, Nat.shiftRight_one, hb]

theorem bitsValue_replicate_false (n : Nat) : bitsValue (List.replicate n false) = 0 := by
  induction n with
  | zero => rfl
  | succ n ih => simp [List.replicate_succ, bitsValue, ih]

theorem fieldBits_length (v : Word) (n : Nat) : (fieldBits v n).length = n := by simp [fieldBits]

theorem bitsValue_fieldBits (v : Word) (n : Nat) : bitsValue (fieldBits v n) = v.toNat % 2 ^ n :=
  bitsValue_testBits v.toNat n

/-- Byte j of a bit sequence is bits 8j+7:8j of its number (R85, R155). -/
theorem streamByte_eq (bits : List Bool) (j : Nat) :
    streamByte bits j = BitVec.ofNat 8 (bitsValue bits >>> (8 * j)) := by
  rw [streamByte, packByte, bitsValue_take, bitsValue_drop]
  exact BitVec.eq_of_toNat_eq (by simp)

/-- A clean accumulator is the number of its pending bits (R34). -/
theorem bitsValue_pendingBits {w : Writer} (hclean : PendingClean w) :
    bitsValue (pendingBits w) = w.pendingByte.toNat := by
  have hc : w.pendingBitCount.toNat < 8 := w.pendingBitCount.isLt
  rw [pendingBits, bitsValue_take, byteBits, show w.pendingByte.getLsbD = w.pendingByte.toNat.testBit from rfl,
    bitsValue_testBits, Nat.mod_eq_of_lt (a := w.pendingByte.toNat) w.pendingByte.isLt, Nat.mod_eq_of_lt hclean]

/-! ### A run with every emit accepted (R141, R155) -/

/-- The writer after the whole bytes of a bit stream, its rest pending (R155). -/
def afterStream (stream : List Bool) (answers : List SinkAnswer) (w : Writer) : Writer :=
  { atEmit stream (stream.length / 8) answers w with pendingBitCount := BitVec.ofNat 3 (stream.length % 8) }

/-- Short of a byte, the stream is what is pending. -/
theorem afterStream_pendingBits {w : Writer} (hclean : PendingClean w) : afterStream (pendingBits w) w.sink w = w := by
  have hc : w.pendingBitCount.toNat < 8 := w.pendingBitCount.isLt
  have hbyte : streamByte (pendingBits w) 0 = w.pendingByte := by
    rw [streamByte_eq, bitsValue_pendingBits hclean]
    simp
  simp [afterStream, atEmit, pendingBits_length, Nat.div_eq_of_lt hc, Nat.mod_eq_of_lt hc, hbyte, streamBytes]

theorem afterStream_emit {front : List Bool} (bits : List Bool) (answers used : List SinkAnswer) (w : Writer)
    (h : front.length = 8) :
    afterStream (front ++ bits) answers w =
      afterStream bits answers (afterEmit used { w with pendingByte := packByte front }) := by
  have hlength : (front ++ bits).length = bits.length + 8 := by rw [List.length_append, h, Nat.add_comm]
  rw [afterStream, afterStream, hlength, Nat.add_div_right _ (by decide), Nat.add_mod_right,
    atEmit_succ bits _ answers used w h]

/-- A body that places bits ends with the whole bytes of its stream emitted and the rest pending (R155). -/
theorem PlacesBits.packs {f : Writer → WriteRun} {bits : List Bool} (h : PlacesBits f bits) {w : Writer}
    {answers : List SinkAnswer} (hclean : PendingClean w)
    (hsink : w.sink = List.replicate ((pendingBits w ++ bits).length / 8) .accepted ++ answers) :
    f w = .done (afterStream (pendingBits w ++ bits) answers w) := by
  induction h generalizing w with
  | nil =>
    have hc : w.pendingBitCount.toNat < 8 := w.pendingBitCount.isLt
    rw [List.append_nil, pendingBits_length, Nat.div_eq_of_lt hc] at hsink
    rw [List.append_nil, ← show w.sink = answers from hsink, afterStream_pendingBits hclean]
  | @cons k bits b later _ ih =>
    rw [List.append_cons] at hsink ⊢
    by_cases hcount : w.pendingBitCount = 7#3
    · obtain ⟨hlength, hput⟩ := putBit_fullByte b hclean hcount
      have hbytes : ((pendingBits w ++ [b]) ++ bits).length / 8 = bits.length / 8 + 1 := by
        rw [List.length_append, hlength]
        omega
      rw [hbytes, List.replicate_succ, List.cons_append] at hsink
      simp only [hput]
      rw [emitPending_accepted (answers := List.replicate (bits.length / 8) .accepted ++ answers) hsink,
        afterStream_emit bits answers (List.replicate (bits.length / 8) .accepted ++ answers) w hlength]
      exact ih (clean_of_empty rfl) rfl
    · obtain ⟨u, hput, hu, hpending, hsame, hat⟩ := putBit_pendingBits b hclean hcount
      have hafter : ∀ stream, afterStream stream answers u = afterStream stream answers w := fun stream => by
        rw [afterStream, hat, afterStream]
      simp only [hput]
      rw [← hafter, ← hpending]
      exact ih hu (by rw [hpending, hsame, hsink])

theorem ne_wClose_of_placesBits {i : Instr} (h : placesBits i = true) : i ≠ .wClose := by
  rintro rfl
  cases h

theorem writerEndState_of_placesBits {i : Instr} (h : placesBits i = true) : writerEndState i = .ready :=
  if_neg (ne_wClose_of_placesBits h)

/-- A command that places bits, with every emit accepted, answers OK in READY with its stream packed (R155). -/
theorem exec_packs {s : State} {i : Instr} {answers : List SinkAnswer} (hplaces : placesBits i = true)
    (hlegal : legal i) (hstate : s.writer.state = .ready) (hresponse : s.writer.response = none)
    (hclean : PendingClean s.writer)
    (hsink : s.writer.sink =
      List.replicate ((pendingBits s.writer ++ placedBits i).length / 8) .accepted ++ answers) :
    exec i s = .next
      { s with writer :=
        { afterStream (pendingBits s.writer ++ placedBits i) answers s.writer with
          body := none
          response := some ⟨.ok, 0#32⟩ } } := by
  rw [exec_starts_writer (portOf_of_placesBits hplaces) hlegal hstate hresponse,
    (writerBody_places hplaces).packs (w := { s.writer with state := .busy }) hclean hsink]
  simp only [settleWriter, writerEndState_of_placesBits hplaces, ← hstate]
  rfl

/-- Settles O18: the packed stream, and for W_BINARY its number (R84, R155). -/
theorem bitRunPacksLeastSignificantBitFirst : Obligations.BitRunPacksLeastSignificantBitFirst := by
  refine ⟨fun s i later hplaces hlegal hstate hresponse hclean hsink =>
    exec_packs hplaces hlegal hstate hresponse hclean hsink, fun s v n later hn hstate hresponse hclean hsink => ?_⟩
  have hlength : (pendingBits s.writer ++ fieldBits v n).length = s.writer.pendingBitCount.toNat + n := by
    rw [List.length_append, pendingBits_length, fieldBits_length]
  have hvalue : bitsValue (pendingBits s.writer ++ fieldBits v n) =
      s.writer.pendingByte.toNat + v.toNat % 2 ^ n * 2 ^ s.writer.pendingBitCount.toNat := by
    rw [bitsValue_append, bitsValue_pendingBits hclean, bitsValue_fieldBits, pendingBits_length, Nat.mul_comm]
  have hexec := exec_packs (i := .wBinary v n) (answers := later) rfl hn hstate hresponse hclean
    (by rw [show placedBits (.wBinary v n) = fieldBits v n from rfl, hlength, hsink])
  rw [hexec]
  simp [afterStream, atEmit, placedBits, hlength, streamBytes, streamByte_eq, hvalue]

/-- Settles O19: the number of the stream is the old partial byte, so every byte but the first is zero (R146). -/
theorem zeroesEmitThePartialByteThenZeroBytes : Obligations.ZeroesEmitThePartialByteThenZeroBytes := by
  intro s v e later hv hstate hresponse hclean he hsink
  have hlength : (pendingBits s.writer ++ placedBits (.wZeroes v)).length =
      s.writer.pendingBitCount.toNat + v.toNat := by
    simp [placedBits, pendingBits_length]
  have hvalue : bitsValue (pendingBits s.writer ++ placedBits (.wZeroes v)) = s.writer.pendingByte.toNat := by
    rw [bitsValue_append, bitsValue_pendingBits hclean, placedBits, bitsValue_replicate_false, Nat.mul_zero,
      Nat.add_zero]
  have hfirst : streamByte (pendingBits s.writer ++ placedBits (.wZeroes v)) 0 = s.writer.pendingByte := by
    simp [streamByte_eq, hvalue]
  have hothers : ∀ j, streamByte (pendingBits s.writer ++ placedBits (.wZeroes v)) (j + 1) = 0x00#8 := fun j => by
    rw [streamByte_eq, hvalue, Nat.shiftRight_eq_div_pow, Nat.div_eq_of_lt]
    exact lt_of_lt_of_le s.writer.pendingByte.isLt (Nat.pow_le_pow_right (by decide) (by omega))
  have hexec := exec_packs (i := .wZeroes v) rfl hv hstate hresponse hclean (by rw [hlength, ← he, hsink])
  rw [hexec]
  simp only [afterStream, atEmit, hlength, ← he, streamBytes]
  cases e with
  | zero => simp [hfirst]
  | succ e => simp [List.range_succ_eq_map, Function.comp_def, hfirst, hothers, List.map_const']

/-- Settles O20: the number of the stream is the byte above the pending bits (R149). -/
theorem byteSplitsAcrossTheTwoBytes : Obligations.ByteSplitsAcrossTheTwoBytes := by
  intro s v later hv hstate hresponse hclean hsink
  have hc : s.writer.pendingBitCount.toNat < 8 := s.writer.pendingBitCount.isLt
  have hlength : (pendingBits s.writer ++ placedBits (.wByte v)).length = s.writer.pendingBitCount.toNat + 8 := by
    simp [placedBits, pendingBits_length, fieldBits_length]
  have hdiv : (s.writer.pendingBitCount.toNat + 8) / 8 = 1 := by omega
  have hmod : (s.writer.pendingBitCount.toNat + 8) % 8 = s.writer.pendingBitCount.toNat := by omega
  have hvalue : bitsValue (pendingBits s.writer ++ placedBits (.wByte v)) =
      v.toNat <<< s.writer.pendingBitCount.toNat ||| s.writer.pendingByte.toNat := by
    rw [bitsValue_append, bitsValue_pendingBits hclean, placedBits, bitsValue_fieldBits, pendingBits_length,
      Nat.mod_eq_of_lt (by omega : v.toNat < 2 ^ 8), Nat.add_comm, Nat.two_pow_add_eq_or_of_lt hclean,
      Nat.shiftLeft_eq, Nat.mul_comm]
  have hemitted : streamByte (pendingBits s.writer ++ placedBits (.wByte v)) 0 =
      s.writer.pendingByte ||| BitVec.ofNat 8 (v.toNat <<< s.writer.pendingBitCount.toNat) := by
    rw [streamByte_eq, hvalue, BitVec.or_comm]
    exact BitVec.eq_of_toNat_eq (by simp)
  have hkept : streamByte (pendingBits s.writer ++ placedBits (.wByte v)) 1 =
      BitVec.ofNat 8 (v.toNat >>> (8 - s.writer.pendingBitCount.toNat)) := by
    have hshift : v.toNat <<< s.writer.pendingBitCount.toNat >>> 8 =
        v.toNat >>> (8 - s.writer.pendingBitCount.toNat) := by
      conv_lhs => rw [← Nat.add_sub_of_le hc.le, Nat.shiftRight_add, Nat.shiftLeft_shiftRight]
    rw [streamByte_eq, hvalue, Nat.shiftRight_or_distrib, Nat.mul_one, hshift,
      Nat.shiftRight_eq_zero s.writer.pendingByte.toNat 8 s.writer.pendingByte.isLt, Nat.or_zero]
  have hexec := exec_packs (i := .wByte v) rfl hv hstate hresponse hclean (by rw [hlength, hdiv, hsink]; rfl)
  rw [hexec]
  simp [afterStream, atEmit, hlength, hdiv, hmod, streamBytes, hemitted, hkept]

/-! ### A failed emit (R143, R263, R270) -/

/-- Settles O26: the command comes to its emit number j, and the failure ends it (R73, R143). -/
theorem failedEmitBreaksTheWriter : Obligations.FailedEmitBreaksTheWriter := by
  intro s i j later hplaces hlegal hstate hresponse hclean hj hsink
  obtain ⟨k, rest, hrun⟩ := (writerBody_places hplaces).comes_to_emit (w := { s.writer with state := .busy })
    hclean hj hsink
  refine ⟨_, exec_starts_writer (portOf_of_placesBits hplaces) hlegal hstate hresponse, ?_⟩
  rw [hrun]
  refine ⟨rfl, rfl, rfl, rfl, rfl, rfl, rfl, ?_, rfl, rfl, rfl, rfl⟩
  exact List.append_assoc _ _ _

/-! ### The flush and the close (R142, R151, R152) -/

theorem runWOps_flush_empty {w : Writer} (later : List WOp) (hcount : w.pendingBitCount = 0#3) :
    runWOps (.flush :: later) w = runWOps later w := by
  rw [runWOps_flush_cons, if_pos hcount]

theorem runWOps_flush_accepted {w : Writer} {answers : List SinkAnswer} (later : List WOp)
    (hcount : w.pendingBitCount ≠ 0#3) (hsink : w.sink = .accepted :: answers) :
    runWOps (.flush :: later) w = runWOps later (afterEmit answers w) := by
  rw [runWOps_flush_cons, if_neg hcount, ← runWOps_emit_accepted later answers w, ← hsink]

theorem runWOps_flush_failed {w : Writer} {answers : List SinkAnswer} (later : List WOp)
    (hcount : w.pendingBitCount ≠ 0#3) (hsink : w.sink = .failed :: answers) :
    runWOps (.flush :: later) w =
      .raise { w with sink := answers, history := w.history ++ [.emit w.pendingByte .failed] } := by
  rw [runWOps_flush_cons, if_neg hcount, ← runWOps_emit_failed later answers w, ← hsink]

theorem runWOps_close_accepted {w : Writer} {answers : List SinkAnswer} (h : w.closes = .accepted :: answers) :
    runWOps [.close] w =
      .done { w with closes := answers, history := w.history ++ [.close .accepted], state := .closed } := by
  simp [runWOps_singleton, runWOp, closeSink, sinkClose, h]

theorem runWOps_close_failed {w : Writer} {answers : List SinkAnswer} (h : w.closes = .failed :: answers) :
    runWOps [.close] w = .raise { w with closes := answers, history := w.history ++ [.close .failed] } := by
  simp [runWOps_singleton, runWOp, closeSink, sinkClose, h]

/-- W_FLUSH and W_CLOSE have no operands to refuse (R151, R152, R264). -/
theorem exec_of_run {s : State} {i : Instr} {x : WriteRun} (hi : i = .wFlush ∨ i = .wClose)
    (hstate : s.writer.state = .ready) (hresponse : s.writer.response = none)
    (hrun : runWOps (writerBody i) { s.writer with state := .busy } = x) :
    exec i s = .next { s with writer := settleWriter i x } := by
  rw [← hrun]
  rcases hi with rfl | rfl <;> exact exec_starts_writer (by decide) trivial hstate hresponse

/-- Settles O24: the flush is nothing, or one accepted emit (R142, R151). -/
theorem flushEmitsThePartialByte : Obligations.FlushEmitsThePartialByte := by
  intro s hstate hresponse
  refine ⟨fun hcount => ?_, fun hcount later hsink => ?_⟩
  · rw [exec_of_run (.inl rfl) hstate hresponse (runWOps_flush_empty [] hcount)]
    simp [runWOps, settleWriter, writerEndState, okResponse, hstate]
  · rw [exec_of_run (.inl rfl) hstate hresponse (runWOps_flush_accepted [] hcount hsink)]
    simp [runWOps, settleWriter, writerEndState, okResponse, afterEmit, hstate]

/-- Settles O25: after the flush the close is accepted on its own handshake (R77, R152). -/
theorem closeFlushesAndClosesTheSink : Obligations.CloseFlushesAndClosesTheSink := by
  intro s later hstate hresponse
  refine ⟨fun hcount hcloses => ?_, fun hcount rest hsink hcloses => ?_⟩
  · have hflush := runWOps_flush_empty (w := { s.writer with state := .busy }) [.close] hcount
    rw [exec_of_run (.inr rfl) hstate hresponse (hflush.trans (runWOps_close_accepted hcloses))]
    rfl
  · have hflush := runWOps_flush_accepted (w := { s.writer with state := .busy }) [.close] hcount hsink
    rw [exec_of_run (.inr rfl) hstate hresponse (hflush.trans (runWOps_close_accepted hcloses))]
    simp [settleWriter, writerEndState, okResponse, afterEmit]

/-- Settles O27: the failed transfer raises IOFailure, and nothing follows it (R142, R143, R152). -/
theorem failedFlushOrCloseBreaksTheWriter : Obligations.FailedFlushOrCloseBreaksTheWriter := by
  intro s later hstate hresponse
  refine ⟨fun i hi hcount hsink => ?_, fun hcount hcloses => ?_, fun hcount rest hsink hcloses => ?_⟩
  · obtain ⟨rest, hbody⟩ : ∃ rest, writerBody i = .flush :: rest := by
      rcases hi with rfl | rfl
      · exact ⟨[], rfl⟩
      · exact ⟨[.close], rfl⟩
    have hflush := runWOps_flush_failed (w := { s.writer with state := .busy }) rest hcount hsink
    exact ⟨_, exec_of_run hi hstate hresponse (hbody ▸ hflush), rfl, rfl, rfl, rfl, rfl, rfl⟩
  · have hflush := runWOps_flush_empty (w := { s.writer with state := .busy }) [.close] hcount
    exact ⟨_, exec_of_run (.inr rfl) hstate hresponse (hflush.trans (runWOps_close_failed hcloses)),
      rfl, rfl, rfl, rfl, rfl, rfl⟩
  · have hflush := runWOps_flush_accepted (w := { s.writer with state := .busy }) [.close] hcount hsink
    exact ⟨_, exec_of_run (.inr rfl) hstate hresponse (hflush.trans (runWOps_close_failed hcloses)),
      rfl, rfl, rfl, rfl, rfl, List.append_assoc _ _ _⟩

end Sys2Proof.Machine
end

section
/-! SUPPORT. Writer commands that do the same (40_write_path.md R156 to R158): what a run that does not wait comes to is
settled by the bits it places, `PlacesBits.same_end`, so a command whose bits are those of two others is the two run
one after the other. -/

namespace Sys2Proof.Machine

open Sys2Proof.Safety

/-! ### Ends of runs -/

/-- Only a wait shows in the settled writer which command it was (R38, R268). -/
theorem settleWriter_congr {a b : Instr} {x : WriteRun} (hend : writerEndState a = writerEndState b)
    (hx : ∀ u rest, x ≠ .wait u rest) : settleWriter a x = settleWriter b x := by
  cases x with
  | done u => simp only [settleWriter, hend]
  | wait u rest => exact absurd rfl (hx u rest)
  | raise u => rfl

/-- A settled command that is not BUSY has not waited. -/
theorem not_wait_of_settled {cmd : Instr} {w : Writer}
    (h : (settleWriter cmd (runWOps (writerBody cmd) { w with state := .busy })).state ≠ .busy) :
    ∀ u rest, runWOps (writerBody cmd) { w with state := .busy } ≠ .wait u rest := by
  intro u rest hwait
  rw [hwait] at h
  exact h (writerBody_wait_state hwait)

/-- Commands with one precondition and one body have one command cycle, where it does not wait (R268). -/
theorem cycleWriter_congr {a b : Instr} {w : Writer} (hpre : precondition a = precondition b)
    (hbody : writerBody a = writerBody b) (hend : writerEndState a = writerEndState b)
    (hidle : (cycleWriter a (precondition a) (writerBody a) w).state ≠ .busy) :
    cycleWriter a (precondition a) (writerBody a) w = cycleWriter b (precondition b) (writerBody b) w := by
  unfold cycleWriter at hidle ⊢
  rw [← hpre, ← hbody]
  by_cases hstate : w.state ≠ .ready
  · rw [if_pos hstate, if_pos hstate]
  rw [if_neg hstate] at hidle ⊢
  rw [if_neg hstate]
  by_cases hlegal : precondition a = false
  · rw [if_pos hlegal, if_pos hlegal]
  rw [if_neg hlegal] at hidle ⊢
  rw [if_neg hlegal]
  exact settleWriter_congr hend (not_wait_of_settled hidle)

/-- Settles O22: the two commands have one body (R148, R149). -/
theorem byteIsBinaryEight : Obligations.ByteIsBinaryEight := by
  intro s t v hv h hidle
  have hpre : precondition (.wByte v) = precondition (.wBinary v 8) :=
    (precondition_iff_legal (.wByte v)).2 hv
  rw [exec_writer (by simp [portOf, opPort, opcode]), writerCommand] at h ⊢
  split at h
  next hready =>
    cases h
    rw [if_pos hready, ← cycleWriter_congr hpre rfl rfl hidle]
  next hready =>
    cases h
    rw [if_neg hready]

/-! ### Bits settle a run (R141) -/

/-- Two bodies that place the same bits come to one end, or both wait. -/
theorem PlacesBits.same_end {f g : Writer → WriteRun} {bits : List Bool} (hf : PlacesBits f bits)
    (hg : PlacesBits g bits) (w : Writer) :
    f w = g w ∨ ((∃ u rest, f w = .wait u rest) ∧ ∃ u rest, g w = .wait u rest) := by
  induction hf generalizing g w with
  | nil =>
    cases hg
    exact .inl rfl
  | cons b later _ ih =>
    cases hg with
    | cons _ later' hk =>
      cases hput : putBit b w with
      | done u =>
        simp only [hput]
        exact ih hk u
      | wait u rest =>
        simp only [hput]
        exact .inr ⟨⟨u, _, rfl⟩, u, _, rfl⟩
      | raise u =>
        simp only [hput]
        exact .inl rfl

theorem PlacesBits.same_run {f g : Writer → WriteRun} {bits : List Bool} (hf : PlacesBits f bits)
    (hg : PlacesBits g bits) {w : Writer} (hw : ∀ u rest, g w ≠ .wait u rest) : f w = g w := by
  rcases hf.same_end hg w with h | ⟨-, u, rest, h⟩
  · exact h
  · exact absurd h (hw u rest)

/-- The writer with another record of responses taken and no in-command state, neither of which a run reads. -/
def withTaken (taken : List Response) (w : Writer) : Writer := { w with taken := taken, body := none }

/-- The run with its writer changed, at the point it has reached. -/
def mapRun (f : Writer → Writer) : WriteRun → WriteRun
  | .done w => .done (f w)
  | .wait w rest => .wait (f w) rest
  | .raise w => .raise (f w)

theorem mapRun_andThenW {f : Writer → Writer} {k : Writer → WriteRun} (later : List WOp) (x : WriteRun)
    (hk : ∀ u, k (f u) = mapRun f (k u)) : andThenW (mapRun f x) k later = mapRun f (andThenW x k later) := by
  cases x with
  | done u => exact hk u
  | wait u rest => rfl
  | raise u => rfl

theorem putBit_withTaken (taken : List Response) (b : Bool) (w : Writer) :
    putBit b (withTaken taken w) = mapRun (withTaken taken) (putBit b w) := by
  by_cases hcount : w.pendingBitCount = 7#3
  · rw [putBit_full b hcount, putBit_full (w := withTaken taken w) b hcount]
    rcases emitPending_cases { w with pendingByte := placeBit b w } with ⟨hs, e⟩ | ⟨later, hs, e⟩ | ⟨later, hs, e⟩ <;>
      rw [e] <;> simp [emitPending, sinkWrite, withTaken, show w.sink = _ from hs, placeBit, mapRun]
  · rw [putBit_room b hcount, putBit_room (w := withTaken taken w) b hcount]
    rfl

/-- A run that places bits does not read the responses taken. -/
theorem PlacesBits.run_withTaken {f : Writer → WriteRun} {bits : List Bool} (h : PlacesBits f bits)
    (taken : List Response) (w : Writer) : f (withTaken taken w) = mapRun (withTaken taken) (f w) := by
  induction h generalizing w with
  | nil => rfl
  | cons b later _ ih =>
    change andThenW (putBit b (withTaken taken w)) _ later = _
    rw [putBit_withTaken, mapRun_andThenW later _ ih]

/-- A settled command shows the responses taken, but not from which record it began. -/
theorem settleWriter_withTaken {i b : Instr} (taken : List Response) {x : WriteRun}
    (hend : writerEndState i = writerEndState b) (hx : ∀ u rest, x ≠ .wait u rest) :
    { settleWriter b (mapRun (withTaken taken) x) with taken := (reached x).taken } = settleWriter i x := by
  cases x with
  | done u => simp [mapRun, settleWriter, withTaken, reached, hend]
  | wait u rest => exact absurd rfl (hx u rest)
  | raise u => rfl

/-! ### One command for two (R156, R158) -/

/-- The command after one that has ended goes on from the writer that one came to, its response taken (R122, R268). -/
theorem exec_after_taken {s : State} {a b : Instr} {u : Writer} (ha : placesBits a = true) (hb : placesBits b = true)
    (hlegal : legal b) (hbusy : u.state = .busy) (hresponse : u.response = none) :
    exec b (takeResponse .writer { s with writer := settleWriter a (.done u) }) =
      .next { s with writer := settleWriter b (
        mapRun (withTaken (u.taken ++ [okResponse 0#32])) (runWOps (writerBody b) u)) } := by
  have hstart : ({ (takeResponse .writer { s with writer := settleWriter a (.done u) }).writer with
      state := .busy } : Writer) = withTaken (u.taken ++ [okResponse 0#32]) u := by
    simp [settleWriter, withTaken, hresponse, hbusy]
  rw [exec_starts_writer (portOf_of_placesBits hb) hlegal (writerEndState_of_placesBits ha) rfl, hstart,
    (writerBody_places hb).run_withTaken]
  rfl

/-- A command that places the bits of a and then those of b is a and then b, the responses apart; where a fails, it is
a alone. -/
theorem exec_of_two {s t : State} {i a b : Instr} (hi : placesBits i = true) (ha : placesBits a = true)
    (hb : placesBits b = true) (hlegal : legal i ∧ legal a ∧ legal b)
    (hbits : placedBits i = placedBits a ++ placedBits b) (hstate : s.writer.state = .ready)
    (hresponse : s.writer.response = none) (h : exec a s = .next t) :
    (t.writer.response = some ⟨.ok, 0#32⟩ →
      ∀ u, exec b (takeResponse .writer t) = .next u → u.writer.state ≠ .busy →
        exec i s = .next { u with writer := { u.writer with taken := s.writer.taken } }) ∧
    (t.writer.response = some ⟨.err .ioFailure, 0#32⟩ → exec i s = .next t) := by
  obtain ⟨hli, hla, hlb⟩ := hlegal
  have hrun := (writerBody_places hi).same_run (w := { s.writer with state := .busy })
    (hbits ▸ (writerBody_places ha).append (writerBody b) (writerBody_places hb))
  have hran := runWOps_ran (writerBody a) { s.writer with state := .busy }
  have hbusy := runWOps_state (close_notMem_writerBody (ne_wClose_of_placesBits ha)) { s.writer with state := .busy }
  rw [exec_starts_writer (portOf_of_placesBits ha) hla hstate hresponse] at h
  rw [exec_starts_writer (portOf_of_placesBits hi) hli hstate hresponse]
  cases h
  cases hx : runWOps (writerBody a) { s.writer with state := .busy } with
  | wait u rest =>
    rw [hx] at hran
    have hnone : u.response = none := hran.response.trans hresponse
    simp [settleWriter, hnone]
  | raise u =>
    refine ⟨fun hok => (nomatch hok), fun _ => ?_⟩
    rw [hx] at hrun
    rw [hrun fun _ _ e => nomatch e]
    rfl
  | done u =>
    refine ⟨fun _ t' ht' hidle => ?_, fun hfail => nomatch hfail⟩
    rw [hx] at hran hbusy hrun
    rw [exec_after_taken (u := u) ha hb hlb hbusy (hran.response.trans hresponse)] at ht'
    cases ht'
    have hended : ∀ z rest, runWOps (writerBody b) u ≠ .wait z rest := by
      intro z rest hz
      rw [hz] at hidle
      exact hidle ((writerBody_wait_state hz).trans hbusy)
    have htaken : (reached (runWOps (writerBody b) u)).taken = s.writer.taken :=
      (runWOps_ran (writerBody b) u).taken.trans hran.taken
    have hend : writerEndState i = writerEndState b :=
      (writerEndState_of_placesBits hi).trans (writerEndState_of_placesBits hb).symm
    rw [hrun hended, ← htaken, andThenW, ← settleWriter_withTaken _ hend hended]

/-- Settles O21: the bits of W_UNARY are those of W_ZEROES and a one (R147). -/
theorem unaryIsZeroesThenOne : Obligations.UnaryIsZeroesThenOne := by
  intro s t v hv hstate hresponse h
  exact exec_of_two (i := .wUnary v) (a := .wZeroes v) (b := .wBit 1#32) rfl rfl rfl ⟨hv, hv, le_refl 1⟩ rfl
    hstate hresponse h

/-- The k-bit remainder of a Rice code is the low k bits of its value (R87, R150). -/
theorem fieldBits_remainder {v : Word} {k : Nat} (hk : k ≤ 31) :
    fieldBits (BitVec.ofNat 32 (v.toNat % 2 ^ k)) k = fieldBits v k := by
  refine List.map_congr_left fun i hi => ?_
  have hi : i < k := List.mem_range.1 hi
  rw [BitVec.getLsbD_ofNat, Nat.testBit_mod_two_pow]
  simp [hi, show i < 32 by omega, BitVec.getLsbD]

/-- Settles O23: the bits of W_RICE are the quotient in unary and the low k bits (R150). -/
theorem riceIsUnaryThenBinary : Obligations.RiceIsUnaryThenBinary := by
  intro s t v k hk hv hstate hresponse h
  have hquotient : (v >>> k).toNat = v.toNat / 2 ^ k := by
    rw [BitVec.toNat_ushiftRight, Nat.shiftRight_eq_div_pow]
  have hlegal : legal (.wUnary (v >>> k)) := by
    have hle : v.toNat / 2 ^ k ≤ v.toNat := Nat.div_le_self _ _
    rw [BitVec.toInt_pos_iff] at hv
    rw [legal, BitVec.toInt_pos_iff]
    omega
  have hbits : placedBits (.wRice v k) = placedBits (.wUnary (v >>> k)) ++ placedBits (.wBinary v k) := by
    rw [placedBits, placedBits, placedBits, riceBits, fieldBits_remainder hk, hquotient]
  exact exec_of_two rfl rfl rfl ⟨⟨hk, hv⟩, hlegal, le_trans hk (by decide)⟩
    hbits hstate hresponse h

end Sys2Proof.Machine
end

section
/-! SUPPORT. The bits a writer has written (20_memory.md R85, 40_write_path.md R141 to R152), those of the output
stream and those pending: `writtenBits`. A command adds its own bits at their end, a flush the padding of the byte. -/

namespace Sys2Proof.Machine

open Sys2Proof.Safety

/-! ### The bits written (R85, R141, R142) -/

/-- All the bits a writer has placed: those of the output stream, then those pending (R72, R85). -/
def writtenBits (w : Writer) : List Bool := (outputStream w.history).flatMap byteBits ++ pendingBits w

theorem outputStream_emit (history : List WEvent) (b : Byte) :
    outputStream (history ++ [.emit b .accepted]) = outputStream history ++ [b] := by
  simp [outputStream]

theorem flatMap_byteBits_length (bytes : List Byte) : (bytes.flatMap byteBits).length = 8 * bytes.length := by
  induction bytes with
  | nil => rfl
  | cons b bytes ih =>
    rw [List.flatMap_cons, List.length_append, ih, List.length_cons]
    simp [byteBits]
    omega

/-- The pending count is the number of bits written, modulo 8 (R32). -/
theorem writtenBits_length_mod (w : Writer) : (writtenBits w).length % 8 = w.pendingBitCount.toNat := by
  have hc : w.pendingBitCount.toNat < 8 := w.pendingBitCount.isLt
  rw [writtenBits, List.length_append, flatMap_byteBits_length, pendingBits_length]
  omega

/-- A PutBit that ends has written its bit (R141). -/
theorem putBit_written {w u : Writer} {b : Bool} (hclean : PendingClean w) (h : putBit b w = .done u) :
    writtenBits u = writtenBits w ++ [b] := by
  have hplaced := placeBit_bits b hclean
  by_cases hcount : w.pendingBitCount = 7#3
  · have hbyte : byteBits (placeBit b w) = pendingBits w ++ [b] := by
      rw [← hplaced, hcount]
      exact (List.take_of_length_le (by simp [byteBits])).symm
    rw [putBit_full b hcount] at h
    rcases emitPending_cases { w with pendingByte := placeBit b w } with ⟨_, e⟩ | ⟨_, _, e⟩ | ⟨_, _, e⟩ <;>
      rw [e] at h <;> cases h
    simp [writtenBits, outputStream_emit, hbyte, pendingBits]
  · have hgrow : ∀ c : BitVec 3, c ≠ 7#3 → (c + 1#3).toNat = c.toNat + 1 := by decide
    rw [putBit_room b hcount] at h
    cases h
    rw [writtenBits, writtenBits, List.append_assoc, ← hplaced, ← hgrow _ hcount]
    rfl

/-- A body that places bits and ends has written them. -/
theorem PlacesBits.written {f : Writer → WriteRun} {bits : List Bool} (h : PlacesBits f bits) {w u : Writer}
    (hclean : PendingClean w) (hrun : f w = .done u) : writtenBits u = writtenBits w ++ bits := by
  induction h generalizing w with
  | nil =>
    cases hrun
    exact (List.append_nil _).symm
  | cons b later _ ih =>
    obtain ⟨v, hput, hrest⟩ := andThenW_done hrun
    rw [ih (putBit_clean hclean hput) hrest, putBit_written hclean hput, List.append_assoc]
    rfl

/-- The bits a flush adds to those pending, up to the end of the byte (R142). -/
def padding (w : Writer) : List Bool :=
  if w.pendingBitCount = 0#3 then [] else (byteBits w.pendingByte).drop w.pendingBitCount.toNat

theorem padding_length (w : Writer) :
    (padding w).length < 8 ∧ (w.pendingBitCount.toNat + (padding w).length) % 8 = 0 := by
  have hc : w.pendingBitCount.toNat < 8 := w.pendingBitCount.isLt
  unfold padding
  split
  next hcount => simp [hcount]
  next hcount =>
    have hpos : w.pendingBitCount.toNat ≠ 0 := fun h => hcount (BitVec.eq_of_toNat_eq h)
    simp [byteBits]
    omega

/-! ### Writer commands to their responses (R122, R215) -/

/-- A writer ready for a command, whose sink will accept this many writes and a close. -/
structure Accepting (m : Nat) (w : Writer) : Prop where
  ready : w.state = .ready
  response : w.response = none
  clean : PendingClean w
  sink : ∃ k, w.sink = List.replicate (m + k) .accepted
  closes : ∃ later, w.closes = .accepted :: later

theorem Accepting.mono {m n : Nat} {w : Writer} (h : Accepting n w) (hm : m ≤ n) : Accepting m w := by
  obtain ⟨k, hk⟩ := h.sink
  exact { h with sink := ⟨n - m + k, by rw [hk]; congr 1; omega⟩ }

/-- Of the answers settled, the first e are taken and m are still there. -/
theorem Accepting.split {e m n : Nat} {w : Writer} (h : Accepting n w) (hn : e + m ≤ n) :
    ∃ k, w.sink = List.replicate e .accepted ++ List.replicate (m + k) .accepted := by
  obtain ⟨k, hk⟩ := h.sink
  refine ⟨n - (e + m) + k, ?_⟩
  rw [hk, ← List.replicate_add]
  congr 1
  omega

theorem runCommands_singleton {i : Instr} {s t : State} {rsp : Response} (hexec : exec i s = .next t)
    (hoffer : offered (portOf i) t = some rsp) : runCommands [i] s = some (takeResponse (portOf i) t, [rsp]) := by
  simp [runCommands, hexec, hoffer]

theorem runCommands_append {cs ds : List Instr} {s t u : State} {xs ys : List Response}
    (hcs : runCommands cs s = some (t, xs)) (hds : runCommands ds t = some (u, ys)) :
    runCommands (cs ++ ds) s = some (u, xs ++ ys) := by
  induction cs generalizing s xs with
  | nil =>
    cases hcs
    exact hds
  | cons i cs ih =>
    rw [runCommands] at hcs
    rw [List.cons_append, runCommands]
    split at hcs
    next v hexec =>
      split at hcs
      next rsp hoffer =>
        obtain ⟨⟨t', zs⟩, hrest, he⟩ := Option.map_eq_some_iff.1 hcs
        cases he
        simp [ih hrest]
      next => cases hcs
    next => cases hcs

/-- A command that places bits answers OK and has written them (R141, R155). -/
theorem runCommands_places {s : State} {i : Instr} {m : Nat} (hplaces : placesBits i = true) (hlegal : legal i)
    (hw : Accepting ((placedBits i).length + m) s.writer) :
    ∃ u, runCommands [i] s = some (u, [⟨.ok, 0#32⟩]) ∧ Accepting m u.writer ∧
      writtenBits u.writer = writtenBits s.writer ++ placedBits i := by
  have hport := portOf_of_placesBits hplaces
  have hc : s.writer.pendingBitCount.toNat < 8 := s.writer.pendingBitCount.isLt
  have hfew : (pendingBits s.writer ++ placedBits i).length / 8 ≤ (placedBits i).length := by
    rw [List.length_append, pendingBits_length]
    omega
  obtain ⟨k, hsink⟩ := hw.split (Nat.add_le_add_right hfew m)
  have hrun := (writerBody_places hplaces).packs hw.clean hsink
  have hclean := runWOps_clean hw.clean hrun
  have hwritten := (writerBody_places hplaces).written hw.clean hrun
  have hexec := exec_packs hplaces hlegal hw.ready hw.response hw.clean hsink
  refine ⟨_, runCommands_singleton hexec (by rw [hport]; rfl), ?_⟩
  rw [hport]
  exact ⟨⟨hw.ready, rfl, hclean, ⟨k, rfl⟩, hw.closes⟩, hwritten⟩

/-- A flush, by emitting the byte that is pending, has written its padding (R142). -/
theorem flush_written {w u : Writer} (hempty : u.pendingBitCount = 0#3)
    (hstream : outputStream u.history =
      outputStream w.history ++ if w.pendingBitCount = 0#3 then [] else [w.pendingByte]) :
    writtenBits u = writtenBits w ++ padding w := by
  by_cases hcount : w.pendingBitCount = 0#3
  · simp [writtenBits, hstream, padding, pendingBits, hcount, hempty]
  · simp [writtenBits, hstream, padding, pendingBits, hcount, hempty]

/-- W_FLUSH answers OK and has written the padding of the last byte (R142, R151). -/
theorem runCommands_wFlush {s : State} {m : Nat} (hw : Accepting (m + 1) s.writer) :
    ∃ u, runCommands [.wFlush] s = some (u, [⟨.ok, 0#32⟩]) ∧ Accepting m u.writer ∧ u.writer.pendingBitCount = 0#3 ∧
      writtenBits u.writer = writtenBits s.writer ++ padding s.writer := by
  obtain ⟨hnothing, hemit⟩ := flushEmitsThePartialByte s hw.ready hw.response
  obtain ⟨k, hsink⟩ := hw.split (e := 1) (m := m) (Nat.add_comm 1 m).le
  by_cases hcount : s.writer.pendingBitCount = 0#3
  · refine ⟨_, runCommands_singleton (hnothing hcount) rfl, ?_, hcount, flush_written hcount ?_⟩
    · exact ⟨hw.ready, rfl, hw.clean, (hw.mono (Nat.le_succ m)).sink, hw.closes⟩
    · simp [hcount, portOf, opPort, opcode]
  · refine ⟨_, runCommands_singleton (hemit hcount _ hsink) rfl, ?_, rfl, flush_written rfl ?_⟩
    · exact ⟨hw.ready, rfl, clean_of_empty rfl, ⟨k, rfl⟩, hw.closes⟩
    · simp [hcount, portOf, opPort, opcode, outputStream]

/-- W_CLOSE answers OK and has written the padding of the last byte (R142, R152). -/
theorem runCommands_wClose {s : State} (hw : Accepting 1 s.writer) :
    ∃ u, runCommands [.wClose] s = some (u, [⟨.ok, 0#32⟩]) ∧ u.writer.pendingBitCount = 0#3 ∧
      writtenBits u.writer = writtenBits s.writer ++ padding s.writer := by
  obtain ⟨later, hcloses⟩ := hw.closes
  obtain ⟨hnothing, hemit⟩ := closeFlushesAndClosesTheSink s later hw.ready hw.response
  obtain ⟨k, hsink⟩ := hw.split (e := 1) (m := 0) le_rfl
  by_cases hcount : s.writer.pendingBitCount = 0#3
  · refine ⟨_, runCommands_singleton (hnothing hcount hcloses) rfl, hcount, flush_written hcount ?_⟩
    simp [hcount, portOf, opPort, opcode, outputStream]
  · refine ⟨_, runCommands_singleton (hemit hcount _ hsink hcloses) rfl, rfl, flush_written rfl ?_⟩
    simp [hcount, portOf, opPort, opcode, outputStream]

end Sys2Proof.Machine
end

section
/-! SUPPORT. The bits a reader has before it (41_read_path.md R201 to R211), those in hand and those of the bytes to
come: `BitsAhead`. A read command takes its own bits off their front, whatever the source does after its bytes. -/

namespace Sys2Proof.Machine

open Sys2Proof.Safety

/-! ### The bits to come (R42, R91) -/

/-- The reader is at a legal position, and its source holds bytes, and later whatever it does, so that these are the
bits to come (R41, R42, R91). -/
structure BitsAhead (later : List SourcePins) (r : Reader) (bits : List Bool) : Prop where
  position : 1 ≤ r.bitPosition.toNat ∧ r.bitPosition.toNat ≤ 8
  bytes : ∃ bytes : List Byte, r.source = bytes.map bytePins ++ later ∧ upcomingBits r bytes = bits

variable {later : List SourcePins}

theorem unreadBits_length (r : Reader) : (unreadBits r).length = 8 - r.bitPosition.toNat := by
  simp [unreadBits, byteBits]

/-- The bits to come end with a byte. -/
theorem BitsAhead.length_mod {r : Reader} {bits : List Bool} (h : BitsAhead later r bits) :
    (r.bitPosition.toNat + bits.length) % 8 = 0 := by
  obtain ⟨bytes, -, rfl⟩ := h.bytes
  have hp := h.position
  rw [upcomingBits, List.length_append, unreadBits_length, flatMap_byteBits_length]
  omega

/-- GetBit takes the first of the bits to come (R201). -/
theorem getBit_ahead {r : Reader} {b : Bool} {bits : List Bool} (h : BitsAhead later r (b :: bits)) :
    ∃ r', getBit r = .done b r' ∧ BitsAhead later r' bits := by
  obtain ⟨bytes, hsource, hbits⟩ := h.bytes
  by_cases h8 : r.bitPosition = 8#4
  · rw [upcomingBits_aligned bytes h8] at hbits
    cases bytes with
    | nil => cases hbits
    | cons c bytes =>
      have hfirst := upcomingBits_in_hand (r := { r with currentByte := c, bitPosition := 0#4 }) bytes
        (Nat.zero_lt_succ 7)
      have hbyte : upcomingBits { r with currentByte := c, bitPosition := 0#4 } bytes =
          (c :: bytes).flatMap byteBits := by
        simp [upcomingBits, unreadBits]
      rw [← hbyte, hfirst] at hbits
      obtain ⟨rfl, rfl⟩ := List.cons.inj hbits
      refine ⟨{ r with
          source := bytes.map bytePins ++ later
          history := r.history ++ [.fetch (.byte c)]
          currentByte := c
          bitPosition := 1#4 }, ?_, ⟨⟨le_refl 1, Nat.one_le_ofNat⟩, bytes, rfl, rfl⟩⟩
      simp [getBit, h8, sourceRead, hsource, bytePins, sourceAnswer, nextBit]
  · have hlt : r.bitPosition.toNat < 8 := lt_of_le_of_ne h.position.2 fun e => h8 (BitVec.eq_of_toNat_eq e)
    have hget : getBit r = .done (r.currentByte.getLsbD r.bitPosition.toNat)
        { r with bitPosition := r.bitPosition + 1#4 } := by
      simp [getBit, h8, nextBit, hlt]
    rw [upcomingBits_in_hand bytes hlt] at hbits
    obtain ⟨rfl, rfl⟩ := List.cons.inj hbits
    exact ⟨_, hget, getBit_position hget, bytes, hsource, rfl⟩

theorem withBit_toNat {v : Word} {i : Nat} (b : Bool) (hv : v.toNat < 2 ^ i) (hi : i < 32) :
    (withBit v i b).toNat = v.toNat + 2 ^ i * b.toNat := by
  cases b with
  | false => simp [withBit]
  | true =>
    have hor := Nat.two_pow_add_eq_or_of_lt hv 1
    rw [Nat.mul_one] at hor
    simp only [withBit, if_true, BitVec.toNat_or, BitVec.toNat_twoPow, Bool.toNat_true, Nat.mul_one,
      Nat.mod_eq_of_lt (Nat.pow_lt_pow_right (by decide : 1 < 2) hi)]
    rw [Nat.or_comm, ← hor, Nat.add_comm]

/-- A field read takes its bits off those to come, the first the least significant (R84, R207). -/
theorem readBits_ahead {xs rest : List Bool} {i : Nat} {v : Word} {r : Reader} (h : BitsAhead later r (xs ++ rest))
    (hi : i + xs.length ≤ 32) (hv : v.toNat < 2 ^ i) :
    ∃ a r', readBits xs.length i v r = .done a r' ∧ a.toNat = v.toNat + 2 ^ i * bitsValue xs ∧
      BitsAhead later r' rest := by
  induction xs generalizing i v r with
  | nil => exact ⟨v, r, rfl, by simp [bitsValue], h⟩
  | cons b xs ih =>
    rw [List.length_cons] at hi
    obtain ⟨u, hget, hu⟩ := getBit_ahead h
    obtain ⟨a, r', hread, ha, hr'⟩ := ih hu (i := i + 1) (by omega) (withBit_lt b hv (by omega))
    refine ⟨a, r', ?_, ?_, hr'⟩
    · rw [List.length_cons, readBits, hget]
      exact hread
    · rw [ha, withBit_toNat b hv (by omega), bitsValue]
      ring

/-- A body that reads a field takes its number off the bits to come (R205, R207, R209). -/
theorem runRest_field_ahead {xs rest : List Bool} {n : Nat} {r : Reader} (h : BitsAhead later r (xs ++ rest))
    (hxs : xs.length = n) (hn : n ≤ 32) :
    ∃ r', runRest (.field n 0 0#32) r = .done (BitVec.ofNat 32 (bitsValue xs)) r' ∧ BitsAhead later r' rest := by
  subst hxs
  obtain ⟨a, r', hread, ha, hr'⟩ := readBits_ahead (i := 0) (v := 0#32) h (by omega) (by decide)
  have hvalue : bitsValue xs = a.toNat := by simpa using ha.symm
  refine ⟨r', ?_, hr'⟩
  rw [runRest, Nat.sub_zero, hread, hvalue, BitVec.ofNat_toNat, BitVec.setWidth_eq]
  rfl

/-- A scan takes a unary code off the bits to come (R86, R203). -/
theorem scanUnary_ahead {q fuel c : Nat} {rest : List Bool} {r : Reader}
    (h : BitsAhead later r (unaryBits q ++ rest)) (hq : q < fuel) :
    ∃ r', scanUnary fuel c r = .done (c + q) r' ∧ BitsAhead later r' rest := by
  induction q generalizing fuel c r with
  | zero =>
    cases fuel with
    | zero => exact absurd hq (Nat.not_lt_zero 0)
    | succ fuel =>
      obtain ⟨u, hget, hu⟩ := getBit_ahead (b := true) h
      exact ⟨u, by rw [scanUnary, hget]; rfl, hu⟩
  | succ q ih =>
    cases fuel with
    | zero => exact absurd hq (Nat.not_lt_zero _)
    | succ fuel =>
      obtain ⟨u, hget, hu⟩ := getBit_ahead (b := false) (bits := unaryBits q ++ rest) h
      obtain ⟨r', hscan, hr'⟩ := ih (c := c + 1) hu (Nat.lt_of_succ_lt_succ hq)
      refine ⟨r', ?_, hr'⟩
      rw [scanUnary, hget, Nat.add_comm q, ← Nat.add_assoc, ← hscan]
      rfl

/-- A body that reads a Rice code takes it off the bits to come (R87, R208). -/
theorem runRest_rice_ahead {v : Word} {k : Nat} {rest : List Bool} {r : Reader}
    (h : BitsAhead later r (riceBits v.toNat k ++ rest)) (hk : k ≤ 31) (hv : 0 ≤ v.toInt) :
    ∃ r', runRest (.riceQuotient k 0) r = .done v r' ∧ BitsAhead later r' rest := by
  rw [BitVec.toInt_pos_iff] at hv
  rw [riceBits, fieldBits_remainder hk, List.append_assoc] at h
  have hquotient : v.toNat / 2 ^ k < scanFuel 0 := by
    rw [scanFuel_zero]
    exact lt_of_le_of_lt (Nat.div_le_self _ _) (by omega)
  obtain ⟨u, hscan, hu⟩ := scanUnary_ahead (c := 0) h hquotient
  have hk32 : 0 + (fieldBits v k).length ≤ 32 := by rw [fieldBits_length]; omega
  obtain ⟨a, r', hread, ha, hr'⟩ := readBits_ahead (i := 0) (v := 0#32) hu hk32 (by decide)
  have hvalue : v.toNat / 2 ^ k * 2 ^ k + a.toNat = v.toNat := by
    rw [ha, bitsValue_fieldBits]
    simpa using Nat.div_add_mod' v.toNat (2 ^ k)
  have hrange : ¬ v.toNat > Config.riceMax := by
    rw [Config.riceMax]
    omega
  refine ⟨r', ?_, hr'⟩
  rw [fieldBits_length] at hread
  rw [runRest, hscan, andThenR, Nat.zero_add, readRemainder, Nat.sub_zero, hread, andThenR, riceValue, hvalue,
    if_neg hrange, BitVec.ofNat_toNat, BitVec.setWidth_eq]

/-- A body that scans a unary code takes it off the bits to come (R203, R206). -/
theorem runRest_unary_ahead {v : Word} {rest : List Bool} {r : Reader}
    (h : BitsAhead later r (unaryBits v.toNat ++ rest)) (hv : 0 ≤ v.toInt) :
    ∃ r', runRest (.unary 0) r = .done v r' ∧ BitsAhead later r' rest := by
  rw [BitVec.toInt_pos_iff] at hv
  obtain ⟨r', hscan, hr'⟩ := scanUnary_ahead (c := 0) (fuel := scanFuel 0) h (by rw [scanFuel_zero]; omega)
  refine ⟨r', ?_, hr'⟩
  rw [runRest, hscan, andThenR, Nat.zero_add, BitVec.ofNat_toNat, BitVec.setWidth_eq]

/-- R_REALIGN takes the rest of the byte in hand off the bits to come (R210). -/
theorem runRest_align_ahead {xs rest : List Bool} {r : Reader} (h : BitsAhead later r (xs ++ rest))
    (hxs : xs.length = 8 - r.bitPosition.toNat) :
    BitsAhead later { r with bitPosition := 8#4 } rest := by
  obtain ⟨bytes, hsource, hbits⟩ := h.bytes
  obtain ⟨-, hrest⟩ := List.append_inj hbits (by rw [unreadBits_length, hxs])
  refine ⟨⟨by simp, by simp⟩, bytes, hsource, ?_⟩
  rw [upcomingBits_aligned bytes rfl, hrest]

end Sys2Proof.Machine
end

section
/-! SUPPORT. Proof of the statement that reading back returns what was written (R215). Each command of a list and its
match make a `RoundTrip`: the bits the one adds to those written are the bits the other takes off those ahead, so that
reader and writer stay in step; round trips compose. -/

namespace Sys2Proof.Machine

open Sys2Proof.Safety

variable {later : List SourcePins}

/-! ### Pairs of commands -/

/-- The matching read command returns the value written, off the bits its writer command placed. -/
theorem runRest_matching {c m : Instr} {rest : List Bool} {r : Reader} (hc : roundTrips c)
    (hplaces : placesBits c = true) (hm : matching c = some m) (h : BitsAhead later r (placedBits c ++ rest)) :
    ∃ r', runRest (readerBody m) r = .done (writtenValue c) r' ∧ BitsAhead later r' rest := by
  have hfield {v : Word} {n : Nat} (hn : n ≤ 32) (h : BitsAhead later r (fieldBits v n ++ rest)) :
      ∃ r', runRest (.field n 0 0#32) r = .done (BitVec.ofNat 32 (v.toNat % 2 ^ n)) r' ∧ BitsAhead later r' rest :=
    bitsValue_fieldBits v n ▸ runRest_field_ahead h (fieldBits_length v n) hn
  have hsmall {v : Word} {n : Nat} (hv : v.toNat < 2 ^ n) : BitVec.ofNat 32 (v.toNat % 2 ^ n) = v := by
    rw [Nat.mod_eq_of_lt hv, BitVec.ofNat_toNat, BitVec.setWidth_eq]
  cases c with
  | wBit v =>
    cases hm
    exact hsmall (n := 1) (Nat.lt_succ_of_le hc) ▸ hfield (by decide) h
  | wZeroes v =>
    cases hm
    have hzeros := runRest_field_ahead (xs := List.replicate v.toNat false) h List.length_replicate hc
    rwa [bitsValue_replicate_false] at hzeros
  | wUnary v =>
    cases hm
    exact runRest_unary_ahead h hc
  | wBinary v n =>
    cases hm
    exact hfield hc h
  | wByte v =>
    cases hm
    exact hsmall (n := 8) (Nat.lt_succ_of_le hc) ▸ hfield (by decide) h
  | wRice v k =>
    cases hm
    exact runRest_rice_ahead h hc.1 hc.2
  | _ => cases hplaces

/-- A command that places bits has legal operands and a legal match. -/
theorem matching_legal {c : Instr} (hc : roundTrips c) (hplaces : placesBits c = true) :
    legal c ∧ ∃ m, matching c = some m ∧ portOf m = .reader ∧ legal m := by
  cases c with
  | wBit v => exact ⟨hc, .rBit, rfl, rfl, trivial⟩
  | wZeroes v =>
    have hv : v.toNat ≤ 32 := hc
    exact ⟨BitVec.toInt_pos_iff.2 (by omega), .rBinary v.toNat, rfl, by simp [portOf, opPort, opcode], hv⟩
  | wUnary v => exact ⟨hc, .rUnary, rfl, rfl, trivial⟩
  | wBinary v n => exact ⟨hc, .rBinary n, rfl, by simp [portOf, opPort, opcode], hc⟩
  | wByte v => exact ⟨hc, .rByte, rfl, rfl, trivial⟩
  | wRice v k => exact ⟨hc, .rRice k, rfl, by simp [portOf, opPort, opcode], hc.1⟩
  | _ => cases hplaces

/-- A reader ready for a command, with these bits to come. -/
structure ReadyFor (later : List SourcePins) (r : Reader) (bits : List Bool) : Prop where
  ready : r.state = .ready
  response : r.response = none
  ahead : BitsAhead later r bits

/-- The matches of the commands cs, run by a reader whose position is count modulo 8, take these bits off those to come
and return the values written (R215). -/
def ReadsBack (later : List SourcePins) (cs : List Instr) (count : Nat) (bits : List Bool) : Prop :=
  ∀ (q : State) (rest : List Bool), q.reader.bitPosition.toNat % 8 = count → ReadyFor later q.reader (bits ++ rest) →
    ∃ r, runCommands (cs.filterMap matching) q = some (r, cs.map fun c => ⟨.ok, writtenValue c⟩) ∧
      ReadyFor later r.reader rest

/-- A read command whose body ends is answered with its value (R200). -/
theorem runCommands_reads {q : State} {m : Instr} {bits rest : List Bool} {data : Word} {r : Reader}
    (hport : portOf m = .reader) (hlegal : legal m) (hq : ReadyFor later q.reader bits)
    (hrun : runRest (readerBody m) { q.reader with state := .busy } = .done data r) (hr : BitsAhead later r rest) :
    ∃ u, runCommands [m] q = some (u, [⟨.ok, data⟩]) ∧ ReadyFor later u.reader rest := by
  have hexec := exec_starts_reader hport hlegal hq.ready hq.response
  rw [hrun] at hexec
  refine ⟨_, runCommands_singleton hexec (by rw [hport]; rfl), ?_⟩
  rw [hport]
  exact ⟨rfl, rfl, hr.position, hr.bytes⟩

/-- The match of a command that places bits reads them back (R205 to R209). -/
theorem readsBack_places {c : Instr} (count : Nat) (hc : roundTrips c) (hplaces : placesBits c = true) :
    ReadsBack later [c] count (placedBits c) := by
  intro q rest _ hq
  obtain ⟨-, m, hm, hport, hlegal⟩ := matching_legal hc hplaces
  obtain ⟨r, hrun, hr⟩ := runRest_matching (r := { q.reader with state := .busy }) hc hplaces hm
    ⟨hq.ahead.position, hq.ahead.bytes⟩
  simpa [hm] using runCommands_reads hport hlegal hq hrun hr

/-- R_REALIGN reads back what fills up the byte, whatever bits those are (R210). -/
theorem readsBack_wFlush {bits : List Bool} {count : Nat} (hlt : bits.length < 8)
    (hbyte : (count + bits.length) % 8 = 0) :
    ReadsBack later [.wFlush] count bits := by
  intro q rest hcount hq
  have hp := hq.ahead.position
  have halign := runRest_align_ahead hq.ahead (by omega)
  exact runCommands_reads (m := .rRealign) (by decide) trivial hq rfl ⟨halign.position, halign.bytes⟩

/-! ### Lists of commands -/

/-- The commands cs run from s to u with OK answers, write these bits, and their matches read them back (R215). -/
structure RoundTrip (later : List SourcePins) (cs : List Instr) (s u : State) (bits : List Bool) : Prop where
  runs : runCommands cs s = some (u, List.replicate cs.length ⟨.ok, 0#32⟩)
  written : writtenBits u.writer = writtenBits s.writer ++ bits
  reads : ReadsBack later cs s.writer.pendingBitCount.toNat bits

/-- Reader and writer stay in step: the bits read are those written since (R215). -/
theorem RoundTrip.in_step {cs : List Instr} {s u : State} {bits rest : List Bool} {q r : Reader}
    (h : RoundTrip later cs s u bits) (hcount : q.bitPosition.toNat % 8 = s.writer.pendingBitCount.toNat)
    (hq : BitsAhead later q (bits ++ rest)) (hr : BitsAhead later r rest) :
    r.bitPosition.toNat % 8 = u.writer.pendingBitCount.toNat := by
  have hs := writtenBits_length_mod s.writer
  have hu := writtenBits_length_mod u.writer
  have hqmod := hq.length_mod
  have hrmod := hr.length_mod
  rw [h.written, List.length_append] at hu
  rw [List.length_append] at hqmod
  omega

theorem RoundTrip.append {cs ds : List Instr} {s t u : State} {xs ys : List Bool} (h : RoundTrip later cs s t xs)
    (k : RoundTrip later ds t u ys) : RoundTrip later (cs ++ ds) s u (xs ++ ys) where
  runs := by
    rw [List.length_append, List.replicate_add]
    exact runCommands_append h.runs k.runs
  written := by rw [k.written, h.written, List.append_assoc]
  reads := by
    intro q rest hcount hq
    rw [List.append_assoc] at hq
    obtain ⟨v, hv, hvready⟩ := h.reads q (ys ++ rest) hcount hq
    obtain ⟨r, hr, hrready⟩ := k.reads v rest (h.in_step hcount hq.ahead hvready.ahead) hvready
    refine ⟨r, ?_, hrready⟩
    rw [List.filterMap_append, List.map_append]
    exact runCommands_append hv hr

theorem eq_wFlush_of_roundTrips {c : Instr} (hc : roundTrips c) (hplaces : placesBits c = false) : c = .wFlush := by
  cases c with
  | wFlush => rfl
  | _ => simp_all [placesBits, roundTrips]

/-- Answers that suffice for one command, as `enoughAnswers` counts them. -/
def answersFor (c : Instr) : Nat := (placedBits c).length + 1

/-- A command of R215 and its match make a round trip. -/
theorem roundTrip_command {c : Instr} {s : State} {m : Nat} (hc : roundTrips c)
    (hw : Accepting (answersFor c + m) s.writer) :
    ∃ u bits, RoundTrip later [c] s u bits ∧ Accepting m u.writer := by
  rw [answersFor] at hw
  cases hplaces : placesBits c with
  | true =>
    obtain ⟨u, hruns, hu, hwritten⟩ := runCommands_places (m := m) hplaces (matching_legal hc hplaces).1
      (hw.mono (by omega))
    exact ⟨u, placedBits c, ⟨hruns, hwritten, readsBack_places _ hc hplaces⟩, hu⟩
  | false =>
    obtain rfl := eq_wFlush_of_roundTrips hc hplaces
    obtain ⟨u, hruns, hu, -, hwritten⟩ := runCommands_wFlush (m := m) (hw.mono (by omega))
    obtain ⟨hlt, hbyte⟩ := padding_length s.writer
    exact ⟨u, padding s.writer, ⟨hruns, hwritten, readsBack_wFlush hlt hbyte⟩, hu⟩

/-- So does a list of them, one after another. -/
theorem roundTrip_commands {cs : List Instr} {s : State} {m : Nat} (hcs : ∀ c ∈ cs, roundTrips c)
    (hw : Accepting ((cs.map answersFor).sum + m) s.writer) :
    ∃ u bits, RoundTrip later cs s u bits ∧ Accepting m u.writer := by
  induction cs generalizing s with
  | nil =>
    refine ⟨s, [], ⟨rfl, (List.append_nil _).symm, fun q rest _ hq => ⟨q, rfl, hq⟩⟩, hw.mono (by omega)⟩
  | cons c cs ih =>
    rw [List.map_cons, List.sum_cons, Nat.add_assoc] at hw
    obtain ⟨t, xs, hc, ht⟩ := roundTrip_command (later := later) (hcs c List.mem_cons_self) hw
    obtain ⟨u, ys, hrest, hu⟩ := ih (fun d hd => hcs d (List.mem_cons_of_mem c hd)) ht
    exact ⟨u, xs ++ ys, hc.append hrest, hu⟩

/-- After a flush the bits written are those of the output stream (R142, R152). -/
theorem outputStream_bits {w : Writer} (h : w.pendingBitCount = 0#3) :
    (outputStream w.history).flatMap byteBits = writtenBits w := by
  simp [writtenBits, pendingBits, h]

/-- From reset, with enough answers settled, every command and the last flush find theirs. -/
theorem writerFrom_accepting {cs ds : List Instr} {n : Nat} (hn : enoughAnswers (cs ++ ds) ≤ n) :
    Accepting ((cs.map answersFor).sum + ((ds.map answersFor).sum + 1)) (writerFrom n).writer where
  ready := rfl
  response := rfl
  clean := clean_of_empty rfl
  sink := by
    refine ⟨n - ((cs.map answersFor).sum + ((ds.map answersFor).sum + 1)), ?_⟩
    rw [enoughAnswers, List.map_append, List.sum_append] at hn
    rw [Nat.add_sub_of_le (by unfold answersFor; omega)]
    rfl
  closes := by
    have hpos : n ≠ 0 := by
      rintro rfl
      exact absurd hn (by simp [enoughAnswers])
    obtain ⟨k, rfl⟩ := Nat.exists_eq_succ_of_ne_zero hpos
    exact ⟨List.replicate k .accepted, rfl⟩

/-- Settles O46: the reader takes the bits back one command after another, in step with the writer (R215). -/
theorem readingBackReturnsWhatWasWritten : Obligations.ReadingBackReturnsWhatWasWritten := by
  intro cs ds last n later htrips hlast hn
  obtain ⟨u, xs, hcs, hu⟩ := roundTrip_commands (later := later) (m := (ds.map answersFor).sum + 1)
    (fun c hc => htrips c (List.mem_append_left ds hc)) (writerFrom_accepting hn)
  obtain ⟨v, ys, hds, hv⟩ := roundTrip_commands (later := later)
    (fun c hc => htrips c (List.mem_append_right cs hc)) hu
  obtain ⟨t, hend, hempty, hwritten⟩ : ∃ t, runCommands [last] v = some (t, [⟨.ok, 0#32⟩]) ∧
      t.writer.pendingBitCount = 0#3 ∧ writtenBits t.writer = writtenBits v.writer ++ padding v.writer := by
    rcases hlast with rfl | rfl
    · obtain ⟨t, hruns, -, hempty, hwritten⟩ := runCommands_wFlush (m := 0) hv
      exact ⟨t, hruns, hempty, hwritten⟩
    · exact runCommands_wClose hv
  have hall := runCommands_append (hcs.append hds).runs hend
  have hstream : (outputStream t.writer.history).flatMap byteBits = xs ++ (ys ++ padding v.writer) := by
    rw [outputStream_bits hempty, hwritten, hds.written, hcs.written]
    simp [writtenBits, outputStream, writerFrom, Writer.reset, pendingBits]
  have hreader : ReadyFor later (readerFrom (outputStream t.writer.history) later).reader
      (xs ++ (ys ++ padding v.writer)) :=
    ⟨rfl, rfl, ⟨(by decide : 1 ≤ (8#4).toNat), (by decide : (8#4).toNat ≤ 8)⟩, _, rfl,
      (upcomingBits_aligned _ rfl).trans hstream⟩
  have hcount : (readerFrom (outputStream t.writer.history) later).reader.bitPosition.toNat % 8 =
      (writerFrom n).writer.pendingBitCount.toNat := by
    simp [readerFrom, Reader.reset, writerFrom, Writer.reset]
  obtain ⟨r, hreads, hr⟩ := hcs.reads _ _ hcount hreader
  refine ⟨t, u, ?_, hcs.runs, r, hreads, hcs.in_step hcount hreader.ahead hr.ahead⟩
  rw [hall, List.length_append, ← List.replicate_succ']

end Sys2Proof.Machine
end

section
/-! SUPPORT. A reader run in closed form (41_read_path.md R216): a body that takes bits (`TakesBits`), on a source whose
first bytes supply exactly those (`Supplies`), leaves the reader `afterBits`, whatever the body is. -/

namespace Sys2Proof.Machine

open Sys2Proof.Safety

/-! ### Fetches and positions (R216) -/

theorem fetchCount_zero (p : Nat) : fetchCount p 0 = 0 := by simp [fetchCount]

theorem fetchCount_succ_in_hand {p : Nat} (m : Nat) (hp : p < 8) : fetchCount p (m + 1) = fetchCount (p + 1) m := by
  unfold fetchCount
  omega

theorem fetchCount_succ_aligned (m : Nat) : fetchCount 8 (m + 1) = fetchCount 1 m + 1 := by
  unfold fetchCount
  omega

theorem positionAfter_zero (p : Nat) : positionAfter p 0 = p := by simp [positionAfter]

theorem positionAfter_succ_in_hand {p : Nat} (m : Nat) (hp : p < 8) :
    positionAfter p (m + 1) = positionAfter (p + 1) m := by
  unfold positionAfter
  split <;> split <;> omega

theorem positionAfter_succ_aligned (m : Nat) : positionAfter 8 (m + 1) = positionAfter 1 m := by
  unfold positionAfter
  split <;> split <;> omega

theorem lastByte_cons (r : Reader) (c : Byte) (bytes : List Byte) :
    lastByte r (c :: bytes) = lastByte { r with currentByte := c } bytes := by
  simp [lastByte, List.getLast?_cons]

theorem upcomingBits_length (r : Reader) (bytes : List Byte) :
    (upcomingBits r bytes).length = 8 - r.bitPosition.toNat + 8 * bytes.length := by
  rw [upcomingBits, List.length_append, unreadBits_length, flatMap_byteBits_length]

/-- As many bytes as R216 counts hold the bits they are fetched for. -/
theorem upcomingBits_take_length {r : Reader} {bytes : List Byte} {m : Nat}
    (hbytes : bytes.length = fetchCount r.bitPosition.toNat m) : ((upcomingBits r bytes).take m).length = m := by
  rw [List.length_take, upcomingBits_length, hbytes, fetchCount]
  omega

/-! ### Bits off exactly their bytes (R81, R201, R216) -/

/-- The bits in hand and those of these bytes begin with these bits, no byte is fetched too many, and the source holds
the bytes, and later whatever it does. -/
structure Supplies (later : List SourcePins) (bytes : List Byte) (r : Reader) (bits : List Bool) : Prop where
  position : r.bitPosition.toNat ≤ 8
  fetches : bytes.length = fetchCount r.bitPosition.toNat bits.length
  upcoming : (upcomingBits r bytes).take bits.length = bits
  source : r.source = bytes.map bytePins ++ later

/-- The reader after m bits for which it has fetched these bytes (R216). -/
def afterBits (m : Nat) (later : List SourcePins) (bytes : List Byte) (r : Reader) : Reader :=
  { r with
    currentByte := lastByte r bytes
    bitPosition := BitVec.ofNat 4 (positionAfter r.bitPosition.toNat m)
    source := later
    history := r.history ++ bytes.map fun b => .fetch (.byte b) }

variable {later : List SourcePins} {bytes : List Byte}

theorem Supplies.afterBits_nil {r : Reader} (h : Supplies later bytes r []) : afterBits 0 later bytes r = r := by
  obtain rfl : bytes = [] := List.eq_nil_of_length_eq_zero (h.fetches.trans (fetchCount_zero _))
  have hsource : later = r.source := h.source.symm
  simp [afterBits, lastByte, positionAfter_zero, hsource]

theorem upcomingBits_fetched {r : Reader} (c : Byte) (more : List Byte) (h : r.bitPosition = 8#4) :
    upcomingBits r (c :: more) =
      c.getLsbD 0 :: upcomingBits { r with currentByte := c, bitPosition := 1#4 } more := by
  have hbyte : upcomingBits r (c :: more) = upcomingBits { r with currentByte := c, bitPosition := 0#4 } more := by
    rw [upcomingBits_aligned _ h]
    simp [upcomingBits, unreadBits]
  rw [hbyte, upcomingBits_in_hand (r := { r with currentByte := c, bitPosition := 0#4 }) more (Nat.zero_lt_succ 7)]
  rfl

/-- GetBit fetches a byte when none is in hand, and returns its bit 0 (R201). -/
theorem getBit_fetches {r : Reader} {c : Byte} {more : List SourcePins} (h8 : r.bitPosition = 8#4)
    (hsource : r.source = bytePins c :: more) :
    getBit r = .done (c.getLsbD 0)
      { r with currentByte := c, bitPosition := 1#4, source := more, history := r.history ++ [.fetch (.byte c)] } := by
  simp [getBit, h8, sourceRead, hsource, bytePins, sourceAnswer, nextBit]

theorem getBit_in_hand {r : Reader} (h : r.bitPosition.toNat < 8) :
    getBit r = .done (r.currentByte.getLsbD r.bitPosition.toNat) { r with bitPosition := r.bitPosition + 1#4 } := by
  have h8 : r.bitPosition ≠ 8#4 := fun e => by simp [e] at h
  rw [getBit, if_neg h8, nextBit, if_pos h]

/-- GetBit takes the first bit, from the byte in hand or from the next of the bytes (R201). -/
theorem Supplies.getBit_takes {r : Reader} {b : Bool} {bits : List Bool} (h : Supplies later bytes r (b :: bits)) :
    ∃ bytes' u, getBit r = .done b u ∧ Supplies later bytes' u bits ∧
      afterBits bits.length later bytes' u = afterBits (b :: bits).length later bytes r := by
  obtain ⟨hposition, hfetches, hupcoming, hsource⟩ := h
  rw [List.length_cons] at hfetches hupcoming ⊢
  rcases Nat.lt_or_eq_of_le hposition with hlt | h8
  · have hget := getBit_in_hand hlt
    have hnext : (r.bitPosition + 1#4).toNat = r.bitPosition.toNat + 1 := by
      have hmod : (r.bitPosition + 1#4).toNat = (r.bitPosition.toNat + 1) % 16 := BitVec.toNat_add _ _
      omega
    rw [upcomingBits_in_hand bytes hlt, List.take_succ_cons] at hupcoming
    obtain ⟨rfl, hbits⟩ := List.cons.inj hupcoming
    rw [fetchCount_succ_in_hand _ hlt, ← hnext] at hfetches
    refine ⟨bytes, _, hget, ⟨(getBit_position hget).2, hfetches, hbits, hsource⟩, ?_⟩
    rw [afterBits, afterBits, positionAfter_succ_in_hand _ hlt, ← hnext]
    rfl
  · rw [h8, fetchCount_succ_aligned] at hfetches
    obtain ⟨c, bytes, rfl⟩ := List.exists_cons_of_length_eq_add_one hfetches
    have haligned : r.bitPosition = 8#4 := BitVec.eq_of_toNat_eq h8
    rw [upcomingBits_fetched c bytes haligned, List.take_succ_cons] at hupcoming
    obtain ⟨rfl, hbits⟩ := List.cons.inj hupcoming
    refine ⟨bytes, _, getBit_fetches haligned hsource, ⟨Nat.one_le_ofNat, Nat.succ.inj hfetches, hbits, rfl⟩, ?_⟩
    rw [afterBits, afterBits, lastByte_cons, h8, positionAfter_succ_aligned, List.append_assoc]
    rfl

/-! ### Bodies that take bits (R201, R203, R207) -/

/-- The body f, one GetBit after another, takes these bits and goes on as k. -/
inductive TakesBits : (Reader → ReadRun Word RRest) → List Bool → (Reader → ReadRun Word RRest) → Prop
  | nil (f : Reader → ReadRun Word RRest) : TakesBits f [] f
  | cons {f k : Reader → ReadRun Word RRest} {g : Bool → Reader → ReadRun Word RRest} {p : Unit → RRest} {b : Bool}
      {bits : List Bool} (hrun : ∀ r, f r = andThenR (getBit r) g p) (hg : TakesBits (g b) bits k) :
      TakesBits f (b :: bits) k

theorem TakesBits.append {f g k : Reader → ReadRun Word RRest} {xs ys : List Bool} (h : TakesBits f xs g)
    (hg : TakesBits g ys k) : TakesBits f (xs ++ ys) k := by
  induction h with
  | nil f => exact hg
  | cons hrun _ ih => exact .cons hrun (ih hg)

/-- What is left to run after the bits runs on the reader after them (R216). -/
theorem TakesBits.run {f k : Reader → ReadRun Word RRest} {bits : List Bool} (h : TakesBits f bits k) {r : Reader}
    (hr : Supplies later bytes r bits) : f r = k (afterBits bits.length later bytes r) := by
  induction h generalizing bytes r with
  | nil f => rw [List.length_nil, hr.afterBits_nil]
  | cons hrun _ ih =>
    obtain ⟨bytes', u, hget, hu, hafter⟩ := hr.getBit_takes
    rw [hrun, hget, ← hafter]
    exact ih hu

/-- A field read takes its bits, the first the least significant (R84, R207). -/
theorem readBits_takes (k : Word → Reader → ReadRun Word RRest) (g : Nat × Word → RRest) (xs : List Bool) (i : Nat)
    (v : Word) (hi : i + xs.length ≤ 32) (hv : v.toNat < 2 ^ i) :
    TakesBits (fun r => andThenR (readBits xs.length i v r) k g) xs
      (k (BitVec.ofNat 32 (v.toNat + 2 ^ i * bitsValue xs))) := by
  induction xs generalizing i v with
  | nil =>
    simp only [bitsValue, Nat.mul_zero, Nat.add_zero, BitVec.ofNat_toNat, BitVec.setWidth_eq]
    exact .nil _
  | cons b xs ih =>
    rw [List.length_cons] at hi
    have hvalue : (withBit v i b).toNat + 2 ^ (i + 1) * bitsValue xs = v.toNat + 2 ^ i * bitsValue (b :: xs) := by
      rw [withBit_toNat b hv (by omega), bitsValue]
      ring
    have hrest := ih (i + 1) (withBit v i b) (by omega) (withBit_lt b hv (by omega))
    rw [hvalue] at hrest
    exact .cons (fun r => andThenR_assoc _ _ _ _ _) hrest

/-- A scan counts the zero bits it takes (R203). -/
theorem scanUnary_takes_zeros (k : Nat → Reader → ReadRun Word RRest) (g : Nat → RRest) (q fuel c : Nat) :
    TakesBits (fun r => andThenR (scanUnary (q + fuel) c r) k g) (List.replicate q false)
      (fun r => andThenR (scanUnary fuel (c + q) r) k g) := by
  induction q generalizing c with
  | zero =>
    rw [Nat.zero_add]
    exact .nil _
  | succ q ih =>
    have hrest := ih (c + 1)
    rw [Nat.add_assoc, Nat.add_comm 1] at hrest
    rw [Nat.add_right_comm, List.replicate_succ]
    exact .cons (fun r => andThenR_assoc _ _ _ _ _) hrest

/-- A scan ends with the one bit of a unary code (R86, R203). -/
theorem scanUnary_takes_unary (k : Nat → Reader → ReadRun Word RRest) (g : Nat → RRest) {q fuel : Nat} (c : Nat)
    (hq : q < fuel) : TakesBits (fun r => andThenR (scanUnary fuel c r) k g) (unaryBits q) (k (c + q)) := by
  obtain ⟨n, rfl⟩ := Nat.exists_eq_add_of_lt hq
  rw [Nat.add_assoc]
  exact (scanUnary_takes_zeros k g q (n + 1) c).append (.cons (fun r => andThenR_assoc _ _ _ _ _) (.nil (k (c + q))))

/-- A scan raises right after the last zero bit it may read (R203). -/
theorem scanUnary_takes_too_many (k : Nat → Reader → ReadRun Word RRest) (g : Nat → RRest) (fuel c : Nat) :
    TakesBits (fun r => andThenR (scanUnary fuel c r) k g) (List.replicate fuel false) (.raise .codeRange) :=
  scanUnary_takes_zeros k g fuel 0 c

/-- A field read from its first bit on takes the bits of its number (R84). -/
theorem field_takes (k : Word → Reader → ReadRun Word RRest) (g : Nat × Word → RRest) {xs : List Bool} {n : Nat}
    (hxs : xs.length = n) (hn : n ≤ 32) :
    TakesBits (fun r => andThenR (readBits n 0 0#32 r) k g) xs (k (BitVec.ofNat 32 (bitsValue xs))) := by
  subst hxs
  have htakes := readBits_takes k g xs 0 0#32 (by omega) (by decide)
  simp only [BitVec.toNat_ofNat, Nat.zero_mod, Nat.zero_add, pow_zero, Nat.one_mul] at htakes
  exact htakes

theorem runRest_field_takes {xs : List Bool} {n : Nat} (hxs : xs.length = n) (hn : n ≤ 32) :
    TakesBits (runRest (.field n 0 0#32)) xs (.done (BitVec.ofNat 32 (bitsValue xs))) :=
  field_takes .done (fun p => .field n p.1 p.2) hxs hn

theorem lt_scanFuel_zero {q : Nat} (hq : q ≤ 2147483647) : q < scanFuel 0 := by
  rw [scanFuel_zero]
  omega

theorem runRest_unary_takes {q : Nat} (hq : q ≤ 2147483647) :
    TakesBits (runRest (.unary 0)) (unaryBits q) (.done (BitVec.ofNat 32 q)) := by
  have htakes := scanUnary_takes_unary (fun q => .done (BitVec.ofNat 32 q)) .unary 0 (lt_scanFuel_zero hq)
  rwa [Nat.zero_add] at htakes

/-- R_RICE takes a unary quotient and its remainder, and then checks the value (R208). -/
theorem runRest_rice_takes {k q : Nat} {rest : List Bool} (hk : k ≤ 31) (hq : q ≤ 2147483647)
    (hrest : rest.length = k) :
    TakesBits (runRest (.riceQuotient k 0)) (unaryBits q ++ rest)
      (riceValue k q (BitVec.ofNat 32 (bitsValue rest))) := by
  have hquotient := scanUnary_takes_unary (fun q => readRemainder k q 0 0#32) (.riceQuotient k) 0
    (lt_scanFuel_zero hq)
  rw [Nat.zero_add] at hquotient
  exact hquotient.append (field_takes (riceValue k q) (fun p => .riceRemainder k q p.1 p.2) hrest (by omega))

theorem bitsValue_lt (xs : List Bool) : bitsValue xs < 2 ^ xs.length := by
  have hmod := bitsValue_take xs xs.length
  rw [List.take_length] at hmod
  rw [hmod]
  exact Nat.mod_lt _ (Nat.two_pow_pos _)

/-- A remainder of at most 31 bits is the number R_RICE adds (R208). -/
theorem toNat_ofNat_bitsValue {rest : List Bool} (h : rest.length ≤ 31) :
    (BitVec.ofNat 32 (bitsValue rest)).toNat = bitsValue rest := by
  rw [BitVec.toNat_ofNat]
  exact Nat.mod_eq_of_lt (lt_of_lt_of_le (bitsValue_lt rest) (Nat.pow_le_pow_right (by decide) (by omega)))

/-! ### Reader commands that take bits (R205 to R209) -/

/-- A command whose body takes these bits goes on with the reader after them (R200, R216). -/
theorem exec_takes {s : State} {i : Instr} {bits : List Bool} {k : Reader → ReadRun Word RRest}
    (hport : portOf i = .reader) (hlegal : legal i) (hstate : s.reader.state = .ready)
    (hresponse : s.reader.response = none) (hbits : Supplies later bytes s.reader bits)
    (htakes : TakesBits (runRest (readerBody i)) bits k) :
    exec i s = withReader s
      (settleReader i (k (afterBits bits.length later bytes { s.reader with state := .busy }))) := by
  obtain ⟨hposition, hfetches, hupcoming, hsource⟩ := hbits
  rw [exec_starts_reader hport hlegal hstate hresponse,
    htakes.run (r := { s.reader with state := .busy }) ⟨hposition, hfetches, hupcoming, hsource⟩]

/-- A command whose body ends with these bits answers OK with its value. -/
theorem exec_answers {s : State} {i : Instr} {bits : List Bool} {data : Word} (hport : portOf i = .reader)
    (hlegal : legal i) (hstate : s.reader.state = .ready) (hresponse : s.reader.response = none)
    (hbits : Supplies later bytes s.reader bits) (htakes : TakesBits (runRest (readerBody i)) bits (.done data)) :
    exec i s = .next
      { s with reader :=
        { afterBits bits.length later bytes s.reader with body := none, response := some ⟨.ok, data⟩ } } := by
  rw [exec_takes hport hlegal hstate hresponse hbits htakes]
  simp only [settleReader, withReader, ← hstate]
  rfl

/-- A command whose body raises after these bits enters the error there (R269). -/
theorem exec_raises {s : State} {i : Instr} {bits : List Bool} {e : Err} (hport : portOf i = .reader)
    (hlegal : legal i) (hstate : s.reader.state = .ready) (hresponse : s.reader.response = none)
    (hbits : Supplies later bytes s.reader bits) (htakes : TakesBits (runRest (readerBody i)) bits (.raise e)) :
    exec i s = .next
      { s with reader := enterReader e (afterBits bits.length later bytes { s.reader with state := .busy }) } :=
  exec_takes hport hlegal hstate hresponse hbits htakes

/-- Settles O32: the three commands take a field off exactly its bytes (R205, R207, R209). -/
theorem fieldReadsReturnTheNextBits : Obligations.FieldReadsReturnTheNextBits := by
  intro s i m bytes later hi hstate hresponse hposition hbytes hsource
  have hlength := upcomingBits_take_length hbytes
  have hbits : Supplies later bytes s.reader ((upcomingBits s.reader bytes).take m) :=
    ⟨hposition, by rw [hlength, hbytes], by rw [hlength], hsource⟩
  suffices hfield : portOf i = .reader ∧ legal i ∧ readerBody i = .field m 0 0#32 ∧ m ≤ 32 by
    obtain ⟨hport, hlegal, hbody, hm⟩ := hfield
    have hexec := exec_answers hport hlegal hstate hresponse hbits (hbody ▸ runRest_field_takes hlength hm)
    rw [hlength] at hexec
    exact hexec
  rcases hi with ⟨rfl, rfl⟩ | ⟨rfl, hm⟩ | ⟨rfl, rfl⟩
  · exact ⟨by decide, trivial, rfl, by decide⟩
  · exact ⟨by simp [portOf, opPort, opcode], hm, rfl, hm⟩
  · exact ⟨by decide, trivial, rfl, by decide⟩

theorem unaryBits_length (q : Nat) : (unaryBits q).length = q + 1 := by simp [unaryBits]

/-- Settles O33: the scan takes a unary code (R203, R206). -/
theorem unaryReadCountsTheZeros : Obligations.UnaryReadCountsTheZeros := by
  intro s q bytes later hstate hresponse hposition hq hbytes hupcoming hsource
  rw [← unaryBits_length q] at hbytes hupcoming ⊢
  exact exec_answers (by decide) trivial hstate hresponse ⟨hposition, hbytes, hupcoming, hsource⟩
    (runRest_unary_takes hq)

theorem riceCode_length {q k : Nat} {rest : List Bool} (hrest : rest.length = k) :
    (unaryBits q ++ rest).length = q + 1 + k := by rw [List.length_append, unaryBits_length, hrest]

/-- Settles O34: the Rice code is taken, and its value is in range (R208). -/
theorem riceReadReturnsQuotientAndRemainder : Obligations.RiceReadReturnsQuotientAndRemainder := by
  intro s k q rest bytes later hstate hresponse hposition hk hvalue hrest hbytes hupcoming hsource
  have hq : q ≤ 2147483647 :=
    (Nat.le_mul_of_pos_right q (Nat.two_pow_pos k)).trans ((Nat.le_add_right _ _).trans hvalue)
  have htakes := runRest_rice_takes hk hq hrest
  have hdone : riceValue k q (BitVec.ofNat 32 (bitsValue rest)) =
      .done (BitVec.ofNat 32 (q * 2 ^ k + bitsValue rest)) := by
    funext r
    rw [riceValue, toNat_ofNat_bitsValue (hrest.trans_le hk), if_neg (Nat.not_lt.2 hvalue)]
  rw [hdone] at htakes
  rw [← riceCode_length hrest] at hbytes hupcoming ⊢
  exact exec_answers (by simp [portOf, opPort, opcode]) hk hstate hresponse ⟨hposition, hbytes, hupcoming, hsource⟩
    htakes

/-- Settles O35: the Rice code is taken to its last bit, and its value is out of range (R208, R267). -/
theorem riceAboveTheRangeRaisesCodeRange : Obligations.RiceAboveTheRangeRaisesCodeRange := by
  intro s k q rest bytes later hstate hresponse hposition hk hq hvalue hrest hbytes hupcoming hsource
  have htakes := runRest_rice_takes hk hq hrest
  have hraise : riceValue k q (BitVec.ofNat 32 (bitsValue rest)) = .raise .codeRange := by
    funext r
    rw [riceValue, toNat_ofNat_bitsValue (hrest.trans_le hk), if_pos hvalue]
  rw [hraise] at htakes
  rw [← riceCode_length hrest] at hbytes hupcoming
  exact ⟨_, exec_raises (by simp [portOf, opPort, opcode]) hk hstate hresponse
    ⟨hposition, hbytes, hupcoming, hsource⟩ htakes, rfl, rfl, rfl, rfl, rfl, rfl, rfl, rfl⟩

/-- The scan of R_UNARY and that of R_RICE raise after 2^31 zero bits (R203, R206, R208). -/
theorem runRest_takes_too_many {i : Instr} (hi : i = .rUnary ∨ ∃ k, k ≤ 31 ∧ i = .rRice k) :
    portOf i = .reader ∧ legal i ∧
      TakesBits (runRest (readerBody i)) (List.replicate (scanFuel 0) false) (.raise .codeRange) := by
  rcases hi with rfl | ⟨k, hk, rfl⟩
  · exact ⟨by decide, trivial, scanUnary_takes_too_many _ _ (scanFuel 0) 0⟩
  · exact ⟨by simp [portOf, opPort, opcode], hk, scanUnary_takes_too_many _ _ (scanFuel 0) 0⟩

/-- Settles O36: the zero bits are all taken, and nothing after them (R203, R267). -/
theorem tooManyZeroBitsRaiseCodeRange : Obligations.TooManyZeroBitsRaiseCodeRange := by
  intro s i bytes later hi hstate hresponse hposition hbytes hupcoming hsource
  obtain ⟨hport, hlegal, htakes⟩ := runRest_takes_too_many hi
  have hfuel : 2147483648 = scanFuel 0 := scanFuel_zero.symm
  have hbits : Supplies later bytes s.reader (List.replicate (scanFuel 0) false) := by
    rw [hfuel] at hbytes hupcoming
    exact ⟨hposition, by rw [List.length_replicate, hbytes], by rw [List.length_replicate, hupcoming], hsource⟩
  exact ⟨_, exec_raises hport hlegal hstate hresponse hbits htakes, rfl, rfl, rfl, rfl, rfl, rfl, rfl⟩

end Sys2Proof.Machine
end

section
/-! SUPPORT. How a reader command ends without its bits (60_exceptions.md R262, R263, R267): a raise is CodeRange or
comes from a fetch that failed, and a failed fetch ends a body exactly where it needs one more bit (R218). Also the
reader commands that need no bit, and those with one body (R210, R211, R217). -/

namespace Sys2Proof.Machine

open Sys2Proof.Safety

/-! ### Failed fetches (R80, R202) -/

/-- The error a fetch's answer raises: IOFailure for ERR, EndOfStream for EOD, none for a byte (R202). -/
def fetchError : SourceAnswer → Option Err
  | .byte _ => none
  | .eod => some .endOfStream
  | .err => some .ioFailure

theorem sourceAnswer_eod_of_fetchError {pins : SourcePins} (h : fetchError (sourceAnswer pins) = some .endOfStream) :
    sourceAnswer pins = .eod := by
  cases ha : sourceAnswer pins <;> simp_all [fetchError]

/-- An answer that raises nothing is a byte's (R79, R80). -/
theorem exists_bytePins {pins : SourcePins} (h : fetchError (sourceAnswer pins) = none) : ∃ b, pins = bytePins b := by
  obtain ⟨err, eod, data⟩ := pins
  cases err <;> cases eod <;> simp_all [sourceAnswer, fetchError, bytePins]

/-- A source's answers are bytes alone, or bytes up to a fetch that fails. -/
theorem source_bytes_then_failure (source : List SourcePins) :
    ∃ bytes : List Byte, source = bytes.map bytePins ∨
      ∃ pins later e, source = bytes.map bytePins ++ pins :: later ∧ fetchError (sourceAnswer pins) = some e := by
  induction source with
  | nil => exact ⟨[], .inl rfl⟩
  | cons pins source ih =>
    cases he : fetchError (sourceAnswer pins) with
    | some e => exact ⟨[], .inr ⟨pins, source, e, rfl, he⟩⟩
    | none =>
      obtain ⟨b, rfl⟩ := exists_bytePins he
      obtain ⟨bytes, rfl | ⟨pins, later, e, rfl, hfail⟩⟩ := ih
      · exact ⟨b :: bytes, .inl rfl⟩
      · exact ⟨b :: bytes, .inr ⟨pins, later, e, rfl, hfail⟩⟩

theorem getBit_failed {r : Reader} {pins : SourcePins} {later : List SourcePins} {e : Err}
    (h8 : r.bitPosition = 8#4) (hsource : r.source = pins :: later) (he : fetchError (sourceAnswer pins) = some e) :
    getBit r =
      .raise e { r with source := later, history := r.history ++ [.fetch (sourceAnswer pins)] } := by
  cases ha : sourceAnswer pins <;> rw [ha] at he <;> cases he <;> simp [getBit, h8, sourceRead, hsource, ha]

/-- A body that needs a bit, with none in hand, raises what the failed fetch raises (R201, R202). -/
theorem ReadsBits.failed {f : Reader → ReadRun Word RRest} {N : List Bool → Prop} (h : ReadsBits f N) (hneeds : N [])
    {r : Reader} {pins : SourcePins} {later : List SourcePins} {e : Err} (h8 : r.bitPosition = 8#4)
    (hsource : r.source = pins :: later) (he : fetchError (sourceAnswer pins) = some e) :
    f r = .raise e { r with source := later, history := r.history ++ [.fetch (sourceAnswer pins)] } := by
  cases h with
  | ends v => exact hneeds.elim
  | aligns => exact hneeds.elim
  | raises e => exact hneeds.elim
  | bit rest hrun _ _ => rw [hrun, getBit_failed h8 hsource he]; rfl

/-- The rest of a body that waits needs a bit (R48). -/
theorem restNeeds_of_wait {rest rest' : RRest} {r u : Reader} (h : runRest rest r = .wait rest' u) :
    restNeeds rest' [] := by
  obtain ⟨h8, hempty, hagain⟩ := (runRest_reads rest).waits h
  have hwait := hagain u h8 hempty
  have hneeds := ((runRest_reads rest').waits_iff (bytes := []) hempty (by simp [hwait])).1 ⟨rest', u, hwait⟩
  rwa [upcomingBits_aligned [] h8] at hneeds

/-- A body runs on the first answers alone, and where it waits it goes on with those after them (R80). -/
theorem runRest_resumes {rest : RRest} {r : Reader} {front later : List SourcePins}
    (hsource : r.source = front ++ later) :
    runRest rest r = resumeRead (withSource later r.body) (runRest rest { r with source := front }) := by
  have hr : r = withSource later r.body { r with source := front } := by simp [withSource, ← hsource]
  rw [← (runRest_reads rest).run_withSource, ← hr]

/-- A body whose bits end before a failed fetch makes that fetch its last (R202, R262, R263). -/
theorem runRest_failed {rest : RRest} {r : Reader} {bytes : List Byte} {pins : SourcePins} {later : List SourcePins}
    {e : Err} (hposition : r.bitPosition.toNat ≤ 8) (hneeds : restNeeds rest (upcomingBits r bytes))
    (hsource : r.source = bytes.map bytePins ++ pins :: later) (he : fetchError (sourceAnswer pins) = some e) :
    ∃ u, runRest rest r = .raise e u ∧ ReaderRan r u ∧ u.source = later ∧
      u.history = r.history ++ ((bytes.map fun b => .fetch (.byte b)) ++ [.fetch (sourceAnswer pins)]) := by
  have hreads := runRest_reads rest
  obtain ⟨rest', v, hwait⟩ :=
    (hreads.waits_iff (r := { r with source := bytes.map bytePins }) rfl (runRest_not_stuck hposition)).2 hneeds
  obtain ⟨h8, hempty, -⟩ := hreads.waits hwait
  obtain ⟨used, hused, hhistory⟩ := hreads.fetched (by rw [hwait]; rfl : readerAt (runRest rest _) = some v)
  have hfails := (runRest_reads rest').failed (restNeeds_of_wait hwait)
    (r := withSource (pins :: later) r.body v) h8 (later := later) (by simp [withSource, hempty]) he
  have hraise := runRest_resumes (rest := rest) hsource
  rw [hwait, resumeRead, hfails] at hraise
  refine ⟨_, hraise, runRest_ran (by rw [hraise]; rfl : readerAt (runRest rest r) = some _), rfl, ?_⟩
  rw [hempty, List.append_nil] at hused
  change v.history ++ _ = _
  rw [hhistory, ← hused]
  simp [sourceAnswer, bytePins]

/-- A command whose bits end before a failed fetch enters the error of that fetch (R262, R263, R270). -/
theorem exec_failed {s : State} {i : Instr} {bytes : List Byte} {pins : SourcePins} {later : List SourcePins} {e : Err}
    (hstate : s.reader.state = .ready) (hresponse : s.reader.response = none)
    (hposition : s.reader.bitPosition.toNat ≤ 8) (hmore : needsMore i (upcomingBits s.reader bytes))
    (hsource : s.reader.source = bytes.map bytePins ++ pins :: later) (he : fetchError (sourceAnswer pins) = some e) :
    ∃ t, exec i s = .next t ∧ t.reader.state = stateAfterError e ∧
      t.reader.fault = recordFault e s.reader.fault ∧ t.reader.response = some (errorResponse e) ∧
      t.reader.source = later ∧ t.reader.body = none ∧
      t.reader.history =
        s.reader.history ++ ((bytes.map fun b => .fetch (.byte b)) ++ [.fetch (sourceAnswer pins)]) ∧
      t.writer = s.writer := by
  obtain ⟨hport, hlegal⟩ := reader_of_needsMore hmore
  obtain ⟨u, hraise, hran, hlater, hhistory⟩ := runRest_failed (r := { s.reader with state := .busy }) hposition
    ((restNeeds_readerBody hport hlegal _).2 hmore) hsource he
  refine ⟨{ s with reader := enterReader e u }, ?_, rfl, ?_, rfl, hlater, rfl, hhistory, rfl⟩
  · rw [exec_starts_reader hport hlegal hstate hresponse, hraise]
    rfl
  · rw [enterReader_fault, hran.fault]

/-- Settles O38: ERR wins over EOD, and either is the answer of the last fetch (R262, R263). -/
theorem failedFetchEndsTheReaderCommand : Obligations.FailedFetchEndsTheReaderCommand := by
  intro s i bytes pins later hstate hresponse hposition hmore hsource
  refine ⟨fun herr => ?_, fun herr heod => ?_⟩
  · have ha : sourceAnswer pins = .err := if_pos herr
    have hfailed := exec_failed (e := .ioFailure) hstate hresponse hposition hmore hsource (by rw [ha]; rfl)
    rwa [ha] at hfailed
  · have ha : sourceAnswer pins = .eod := by simp [sourceAnswer, herr, heod]
    have hfailed := exec_failed (e := .endOfStream) hstate hresponse hposition hmore hsource (by rw [ha]; rfl)
    rwa [ha] at hfailed

/-! ### Where a raise comes from (R202, R203, R208) -/

/-- The error is CodeRange, or one that a fetch of this source raises. -/
def RaisedOn (r : Reader) (e : Err) : Prop :=
  e = .codeRange ∨ ∃ pins ∈ r.source, fetchError (sourceAnswer pins) = some e

theorem RaisedOn.of_ran {r u : Reader} {e : Err} (h : RaisedOn u e) (hran : ReaderRan r u) : RaisedOn r e := by
  rcases h with hrange | ⟨pins, hpins, he⟩
  · exact .inl hrange
  · exact .inr ⟨pins, hran.source.subset hpins, he⟩

theorem getBit_raise {r u : Reader} {e : Err} (h : getBit r = .raise e u) : RaisedOn r e := by
  rcases getBit_cases r (getBit_legal fun e => by simp [e] at h) with ⟨_, hget⟩ | ⟨_, _, hget⟩ |
      ⟨_, pins, later, hs, ha, hget⟩ | ⟨_, pins, later, hs, ha, hget⟩ | ⟨_, _, _, _, _, _, hget⟩ <;>
    rw [hget] at h <;> cases h
  · exact .inr ⟨pins, by simp [hs], by rw [ha]; rfl⟩
  · exact .inr ⟨pins, by simp [hs], by rw [ha]; rfl⟩

/-- A raise of two parts in sequence comes from one of them. -/
theorem andThenR_raise {α β γ δ : Type} {x : ReadRun α β} {k : α → Reader → ReadRun γ δ} {f : β → δ} {r u : Reader}
    {e : Err} (hran : ∀ v, readerAt x = some v → ReaderRan r v) (hx : ∀ v, x = .raise e v → RaisedOn r e)
    (hk : ∀ a v, k a v = .raise e u → RaisedOn v e) (h : andThenR x k f = .raise e u) : RaisedOn r e := by
  cases x with
  | done a v => exact (hk a v h).of_ran (hran v rfl)
  | wait p v => cases h
  | raise e' v => cases h; exact hx _ rfl
  | stuck => cases h

theorem readBits_raise {n i : Nat} {v : Word} {r u : Reader} {e : Err} (h : readBits n i v r = .raise e u) :
    RaisedOn r e := by
  induction n generalizing i v r with
  | zero => cases h
  | succ n ih => exact andThenR_raise (fun _ => getBit_ran) (fun _ => getBit_raise) (fun _ _ => ih) h

theorem scanUnary_raise {fuel c : Nat} {r u : Reader} {e : Err} (h : scanUnary fuel c r = .raise e u) :
    RaisedOn r e := by
  induction fuel generalizing c r with
  | zero => cases h; exact .inl rfl
  | succ fuel ih =>
    refine andThenR_raise (fun _ => getBit_ran) (fun _ => getBit_raise) (fun b v hv => ?_) h
    cases b with
    | true => cases hv
    | false => exact ih hv

theorem readRemainder_raise {k q i : Nat} {v : Word} {r u : Reader} {e : Err}
    (h : readRemainder k q i v r = .raise e u) : RaisedOn r e := by
  refine andThenR_raise (fun _ => readBits_ran) (fun _ => readBits_raise) (fun a v hv => ?_) h
  unfold riceValue at hv
  split at hv
  · cases hv; exact .inl rfl
  · cases hv

/-- A reader body raises CodeRange, or what one of its source's answers raises (R202, R203, R208). -/
theorem runRest_raise {rest : RRest} {r u : Reader} {e : Err} (h : runRest rest r = .raise e u) : RaisedOn r e := by
  cases rest with
  | field n i v => exact andThenR_raise (fun _ => readBits_ran) (fun _ => readBits_raise) (fun _ _ hv => by cases hv) h
  | unary c => exact andThenR_raise (fun _ => scanUnary_ran) (fun _ => scanUnary_raise) (fun _ _ hv => by cases hv) h
  | riceQuotient k c =>
    exact andThenR_raise (fun _ => scanUnary_ran) (fun _ => scanUnary_raise) (fun _ _ => readRemainder_raise) h
  | riceRemainder k q i v => exact readRemainder_raise h
  | align => cases h

/-- Bytes alone never end the stream (R80). -/
theorem not_endOfStream_of_bytes {rest : RRest} {r u : Reader} {bytes : List Byte}
    (hsource : r.source = bytes.map bytePins) : runRest rest r ≠ .raise .endOfStream u := by
  intro h
  rcases runRest_raise h with hrange | ⟨pins, hpins, he⟩
  · cases hrange
  · rw [hsource] at hpins
    obtain ⟨b, -, rfl⟩ := List.mem_map.1 hpins
    cases he

/-- A command whose bytes suffice does not end the stream, whatever the source does after them (R81). -/
theorem not_endOfStream_of_suffices {i : Instr} {r u : Reader} {bytes : List Byte} {later : List SourcePins}
    (hport : portOf i = .reader) (hlegal : legal i) (hsource : r.source = bytes.map bytePins ++ later)
    (hmore : ¬ needsMore i (upcomingBits r bytes)) : runRest (readerBody i) r ≠ .raise .endOfStream u := by
  intro h
  rw [runRest_resumes hsource] at h
  cases hx : runRest (readerBody i) { r with source := bytes.map bytePins } with
  | done v w => rw [hx] at h; cases h
  | wait p w => exact runRest_ends (r := { r with source := bytes.map bytePins }) hport hlegal rfl hmore p w hx
  | raise e w =>
    rw [hx] at h
    cases h
    exact not_endOfStream_of_bytes rfl hx
  | stuck => rw [hx] at h; cases h

/-- At a ready port END_OF_STREAM is the answer of a legal command's own run (R268). -/
theorem exec_endOfStream {i : Instr} {s t : State} (hport : portOf i = .reader) (hstate : s.reader.state = .ready)
    (hresponse : s.reader.response = none) (h : exec i s = .next t)
    (heos : t.reader.response = some ⟨.err .endOfStream, 0#32⟩) :
    legal i ∧ ∃ u, runRest (readerBody i) { s.reader with state := .busy } = .raise .endOfStream u := by
  rw [exec_reader hport] at h
  rcases readerCommand_cases i (precondition i) (readerBody i) s with
    ⟨_, e⟩ | ⟨_, hruns, e⟩ | ⟨_, _, _, e⟩ | ⟨_, _, hpre, e⟩ <;> rw [e] at h
  · cases h
    simp [hresponse] at heos
  · simp [hstate, runsReader] at hruns
  · cases h
    simp [errorResponse] at heos
  · obtain ⟨r, hr, rfl⟩ := withReader_next h
    refine ⟨(precondition_iff_legal i).1 hpre, ?_⟩
    cases hx : runRest (readerBody i) { s.reader with state := .busy } with
    | done v u => rw [hx] at hr; cases hr; simp [okResponse] at heos
    | wait p u =>
      have hran := runRest_ran (by rw [hx]; rfl : readerAt (runRest (readerBody i) _) = some u)
      rw [hx] at hr
      cases hr
      simp [hran.response, hresponse] at heos
    | raise err u =>
      rw [hx] at hr
      cases hr
      obtain rfl : err = .endOfStream := by simpa [errorResponse] using heos
      exact ⟨u, rfl⟩
    | stuck => rw [hx] at hr; cases hr

/-- Settles O37: the first answer that is no byte decides, and only where the bits before it do not suffice (R218). -/
theorem endOfStreamExactlyWhenBitsAreMissing : Obligations.EndOfStreamExactlyWhenBitsAreMissing := by
  intro s i hport hstate hresponse hposition
  constructor
  · rintro ⟨t, h, heos⟩
    obtain ⟨hlegal, u, hraise⟩ := exec_endOfStream hport hstate hresponse h heos
    obtain ⟨bytes, hsource | ⟨pins, later, e, hsource, he⟩⟩ := source_bytes_then_failure s.reader.source
    · exact absurd hraise (not_endOfStream_of_bytes hsource)
    have hmore : needsMore i (upcomingBits s.reader bytes) := by
      by_contra hends
      exact not_endOfStream_of_suffices (r := { s.reader with state := .busy }) hport hlegal hsource hends hraise
    obtain ⟨t', h', -, -, hresponse', -⟩ := exec_failed hstate hresponse hposition hmore hsource he
    obtain rfl : t = t' := by simpa [h] using h'
    obtain rfl : e = .endOfStream := by simpa [errorResponse, heos] using hresponse'.symm
    exact ⟨bytes, pins, later, hsource, sourceAnswer_eod_of_fetchError he, hmore⟩
  · rintro ⟨bytes, pins, later, hsource, ha, hmore⟩
    obtain ⟨t, h, -, -, hanswer, -⟩ :=
      exec_failed (e := .endOfStream) hstate hresponse hposition hmore hsource (by rw [ha]; rfl)
    exact ⟨t, h, hanswer⟩

/-! ### One body for two commands (R217) -/

/-- Only a wait shows in the settled reader which command it was (R48, R268). -/
theorem settleReader_congr {a b : Instr} {x : ReadRun Word RRest} (hx : ∀ p u, x ≠ .wait p u) :
    settleReader a x = settleReader b x := by
  cases x with
  | wait p u => exact absurd rfl (hx p u)
  | _ => rfl

/-- Commands with one precondition and one body, run by the same states, have one command cycle, where it does not wait
(R268). -/
theorem cycleReader_congr {a b : Instr} {r u : Reader} (hpre : precondition a = precondition b)
    (hbody : readerBody a = readerBody b) (hruns : runsReader a r.state = runsReader b r.state)
    (h : cycleReader a (precondition a) (readerBody a) r = some u) (hidle : u.state ≠ .busy) :
    cycleReader b (precondition b) (readerBody b) r = some u := by
  unfold cycleReader at h ⊢
  rw [← hpre, ← hbody, ← hruns]
  by_cases hstate : runsReader a r.state = false
  · rwa [if_pos hstate] at h ⊢
  rw [if_neg hstate] at h ⊢
  by_cases hlegal : precondition a = false
  · rwa [if_pos hlegal] at h ⊢
  rw [if_neg hlegal] at h ⊢
  rwa [settleReader_congr (b := a)]
  intro p v hwait
  have hran := runRest_ran (by rw [hwait]; rfl : readerAt (runRest (readerBody a) _) = some v)
  rw [hwait] at h
  cases h
  exact hidle hran.state

/-- Settles O42: the two commands have one body (R207, R209). -/
theorem readByteIsReadBinaryEight : Obligations.ReadByteIsReadBinaryEight := by
  intro s t h hidle
  rw [exec_reader (by decide), readerCommand] at h ⊢
  split at h
  next hready =>
    obtain ⟨u, hu, rfl⟩ := withReader_next h
    have hruns : runsReader .rByte s.reader.state = runsReader (.rBinary 8) s.reader.state := by
      cases s.reader.state <;> rfl
    rw [if_pos hready, cycleReader_congr (a := .rByte) (b := .rBinary 8) rfl rfl hruns hu hidle, withReader]
  next hready => rwa [if_neg hready]

/-! ### Realignment (R210, R211) -/

/-- A command that only aligns needs nothing of the source, in every state that runs it (R210, R211). -/
theorem exec_aligns {i : Instr} {s : State} (hport : portOf i = .reader) (hlegal : legal i)
    (hbody : readerBody i = .align) (hruns : runsReader i s.reader.state = true) (hidle : s.reader.state ≠ .busy)
    (hresponse : s.reader.response = none) :
    exec i s = .next
      { s with reader :=
        { s.reader with bitPosition := 8#4, state := .ready, body := none, response := some ⟨.ok, 0#32⟩ } } := by
  have hready : cmdReady .reader s = true := by simp [cmdReady, readerCmdReady, hidle, hresponse]
  rw [exec_reader hport, readerCommand, if_pos hready, cycleReader, hruns, (precondition_iff_legal i).2 hlegal, hbody]
  rfl

/-- Settles O43: both commands only align (R210, R211). -/
theorem realignAndResetDiscardTheCachedBits : Obligations.RealignAndResetDiscardTheCachedBits := by
  rintro s i hresponse (⟨rfl, hstate⟩ | ⟨rfl, hstate | hstate⟩) <;>
    exact exec_aligns (by decide) trivial rfl (by rw [hstate]; decide) (by rw [hstate]; decide) hresponse

end Sys2Proof.Machine
end

section
/-! SUPPORT. Proofs of the statements about the checks of the command cycle (60_exceptions.md R264 to R268) and about a
repositioned source (R278, R311). Which error a command can answer is said once for each unit, `cycleWriter_error` and
`cycleReader_error`: a refusal has its own check's error, a run only those its transfers or its value raise. -/

namespace Sys2Proof.Machine

open Sys2Proof.Safety

/-! ### Illegal commands (R265) -/

theorem usesN_eq_false_iff (op : BitVec 4) : usesN op = false ↔ op ∉ [0x3#4, 0x5#4, 0xA#4, 0xB#4] := by
  decide +revert

theorem usesV_eq_false_iff (op : BitVec 4) :
    usesV op = false ↔ op ∉ [0x0#4, 0x1#4, 0x2#4, 0x3#4, 0x4#4, 0x5#4] := by
  decide +revert

/-- A field a command does not use holds something (R105, R265). -/
theorem not_unusedZero_iff (op : BitVec 4) (n : BitVec 6) (v : Word) :
    ¬ UnusedZero op n v ↔
      (n ≠ 0#6 ∧ op ∉ [0x3#4, 0x5#4, 0xA#4, 0xB#4]) ∨
        (v ≠ 0#32 ∧ op ∉ [0x0#4, 0x1#4, 0x2#4, 0x3#4, 0x4#4, 0x5#4]) := by
  rw [← usesN_eq_false_iff, ← usesV_eq_false_iff, UnusedZero, not_and_or, Classical.not_imp, Classical.not_imp,
    and_comm, and_comm (b := v ≠ 0#32)]

/-- Bit 47 names the unit the port does not belong to (R101, R104). -/
theorem opPort_opField_ne_iff (p : Port) (w : CommandWord) :
    opPort (opField w) ≠ p ↔ (p = .writer ∧ w.getLsbD 47 = true) ∨ (p = .reader ∧ w.getLsbD 47 = false) := by
  rw [opPort_opField]
  cases p <;> cases w.getLsbD 47 <;> decide

/-- The causes of R265 are the failures of the checks of R107. -/
theorem illegalWord_iff (p : Port) (w : CommandWord) : illegalWord p w ↔ ¬ ∃ i, decode p w = .ok i := by
  rw [decodes_iff, not_and_or, not_and_or, not_and_or, not_not, ← ne_eq (opPort _), opPort_opField_ne_iff,
    not_unusedZero_iff, or_assoc]
  rfl

/-- An illegal word that a port accepts is answered ILLEGAL_COMMAND (R265, R268). -/
theorem presentCommand_illegal {p : Port} {w : CommandWord} {s : State} (hready : cmdReady p s = true)
    (hillegal : illegalWord p w) : presentCommand p w s = .next (illegalCommand p s) := by
  rw [presentCommand, if_pos hready]
  cases hd : decode p w with
  | ok i => exact absurd ⟨i, hd⟩ ((illegalWord_iff p w).1 hillegal)
  | error e => rfl

/-- Settles O9: the words that fail a check of R107 have a cause of R265, and check 1 of R268 answers them. -/
theorem illegalCommandChangesOnlyFaultAndResponse : Obligations.IllegalCommandChangesOnlyFaultAndResponse := by
  refine ⟨fun p w => (illegalWord_iff p w).trans not_exists, fun s p w later hin hready hillegal => ?_⟩
  have hready' : cmdReady p { s with inputs := later, clock := s.clock + 1 } = true := hready
  rw [step_applyInput hin, applyInput, presentCommand_illegal hready' hillegal]
  cases p <;> rfl

/-! ### The state check and the precondition (R264, R266, R268) -/

theorem exec_writer_accepted {i : Instr} {s : State} (hport : portOf i = .writer) (hready : cmdReady .writer s = true) :
    exec i s = .next { s with writer := cycleWriter i (precondition i) (writerBody i) s.writer } := by
  rw [exec_writer hport, writerCommand, if_pos hready]

theorem exec_reader_accepted {i : Instr} {s : State} (hport : portOf i = .reader) (hready : cmdReady .reader s = true) :
    exec i s = withReader s (cycleReader i (precondition i) (readerBody i) s.reader) := by
  rw [exec_reader hport, readerCommand, if_pos hready]

theorem precondition_eq_false {i : Instr} (h : ¬ legal i) : precondition i = false :=
  Bool.eq_false_iff.2 (h ∘ (precondition_iff_legal i).1)

/-- The states that run a writer command (R266). -/
theorem writerRuns_iff (state : WState) : writerRuns state ↔ state = .ready := by
  cases state <;> simp [writerRuns]

/-- The states that run a reader command (R266). -/
theorem readerRuns_iff (state : RState) (i : Instr) : readerRuns state i ↔ runsReader i state = true := by
  cases state <;> simp [readerRuns, runsReader]

/-- An error a writer's run answers is IOFailure (R267, R269). -/
theorem settleWriter_error {cmd : Instr} {ops : List WOp} {w : Writer} {e : Err} (hnone : w.response = none)
    (h : (settleWriter cmd (runWOps ops w)).response = some (errorResponse e)) : e = .ioFailure := by
  have hran := runWOps_ran ops w
  cases hx : runWOps ops w with
  | done u => rw [hx] at h; cases h
  | raise u => rw [hx] at h; cases h; rfl
  | wait u rest =>
    rw [hx] at h hran
    have hwait : u.response = none := hran.response.trans hnone
    cases hwait.symm.trans h

/-- An error a writer command answers is that of the check it fails, or IOFailure (R268). -/
theorem cycleWriter_error {cmd : Instr} {pre : Bool} {ops : List WOp} {w : Writer} {e : Err}
    (hnone : w.response = none) (h : (cycleWriter cmd pre ops w).response = some (errorResponse e)) :
    (e = .stateError ∧ w.state ≠ .ready) ∨ (e = .precondition ∧ pre = false) ∨ e = .ioFailure := by
  unfold cycleWriter at h
  split at h
  next hstate => cases h; exact .inl ⟨rfl, hstate⟩
  next =>
    split at h
    next hpre => cases h; exact .inr (.inl ⟨rfl, hpre⟩)
    next => exact .inr (.inr (settleWriter_error (w := { w with state := .busy }) hnone h))

/-- What a run raises is neither of the checks' errors (R202, R203, R208). -/
theorem RaisedOn.not_check {r : Reader} {e : Err} (h : RaisedOn r e) : e ≠ .stateError ∧ e ≠ .precondition := by
  rcases h with rfl | ⟨pins, -, he⟩
  · decide
  · cases ha : sourceAnswer pins <;> rw [ha] at he <;> cases he <;> decide

/-- An error a reader's run answers is the one it raises (R269). -/
theorem settleReader_error {cmd : Instr} {rest : RRest} {r u : Reader} {e : Err} (hnone : r.response = none)
    (hrun : settleReader cmd (runRest rest r) = some u) (h : u.response = some (errorResponse e)) : RaisedOn r e := by
  cases hx : runRest rest r with
  | done a v => rw [hx] at hrun; cases hrun; cases h
  | raise e' v => rw [hx] at hrun; cases hrun; cases h; exact runRest_raise hx
  | wait p v =>
    have hran := runRest_ran (by rw [hx]; rfl : readerAt (runRest rest r) = some v)
    rw [hx] at hrun
    cases hrun
    have hwait : v.response = none := hran.response.trans hnone
    cases hwait.symm.trans h
  | stuck => rw [hx] at hrun; cases hrun

/-- An error a reader command answers is that of the check it fails, or raised by its run (R268). -/
theorem cycleReader_error {cmd : Instr} {pre : Bool} {rest : RRest} {r u : Reader} {e : Err}
    (hnone : r.response = none) (hrun : cycleReader cmd pre rest r = some u)
    (h : u.response = some (errorResponse e)) :
    (e = .stateError ∧ runsReader cmd r.state = false) ∨ (e = .precondition ∧ pre = false) ∨
      (e ≠ .stateError ∧ e ≠ .precondition) := by
  unfold cycleReader at hrun
  split at hrun
  next hstate => cases hrun; cases h; exact .inl ⟨rfl, hstate⟩
  next =>
    split at hrun
    next hpre => cases hrun; cases h; exact .inr (.inl ⟨rfl, hpre⟩)
    next => exact .inr (.inr (settleReader_error (r := { r with state := .busy }) hnone hrun h).not_check)

/-- An error that an accepted writer command answers (R268). -/
theorem exec_writer_error {i : Instr} {s t : State} {e : Err} (hport : portOf i = .writer)
    (hready : cmdReady .writer s = true) (h : exec i s = .next t)
    (he : t.writer.response = some (errorResponse e)) :
    (e = .stateError ∧ ¬ writerRuns s.writer.state) ∨ (e = .precondition ∧ ¬ legal i) ∨ e = .ioFailure := by
  rw [exec_writer_accepted hport hready] at h
  cases h
  rw [writerRuns_iff, ← precondition_iff_legal, Bool.not_eq_true]
  exact cycleWriter_error ((writerCmdReady_iff s.writer).1 hready).2 he

/-- An error that an accepted reader command answers (R268). -/
theorem exec_reader_error {i : Instr} {s t : State} {e : Err} (hport : portOf i = .reader)
    (hready : cmdReady .reader s = true) (h : exec i s = .next t)
    (he : t.reader.response = some (errorResponse e)) :
    (e = .stateError ∧ ¬ readerRuns s.reader.state i) ∨ (e = .precondition ∧ ¬ legal i) ∨
      (e ≠ .stateError ∧ e ≠ .precondition) := by
  rw [exec_reader_accepted hport hready] at h
  obtain ⟨u, hu, rfl⟩ := withReader_next h
  rw [readerRuns_iff, ← precondition_iff_legal, Bool.not_eq_true, Bool.not_eq_true]
  exact cycleReader_error ((readerCmdReady_iff s.reader).1 hready).2 hu he

/-- Settles O16: the state check comes first, and no later check or run answers STATE_ERROR (R266, R268). -/
theorem refusingStatesAnswerStateError : Obligations.RefusingStatesAnswerStateError := by
  intro s i hready
  refine ⟨fun hport => ?_, fun hport => ?_⟩ <;> rw [hport] at hready
  · refine ⟨fun hrefuses => ?_, fun hruns t h he => ?_⟩
    · rw [writerRuns_iff] at hrefuses
      rw [exec_writer_accepted hport hready, cycleWriter, if_pos hrefuses]
      rfl
    · rcases exec_writer_error hport hready h he with ⟨-, hrefuses⟩ | ⟨hother, -⟩ | hother
      · exact hrefuses hruns
      · cases hother
      · cases hother
  · refine ⟨fun hrefuses => ?_, fun hruns t h he => ?_⟩
    · rw [readerRuns_iff, Bool.not_eq_true] at hrefuses
      rw [exec_reader_accepted hport hready, cycleReader, if_pos hrefuses]
      rfl
    · rcases exec_reader_error hport hready h he with ⟨-, hrefuses⟩ | ⟨hother, -⟩ | ⟨hother, -⟩
      · exact hrefuses hruns
      · cases hother
      · exact hother rfl

/-- Settles O17: a READY unit comes to the precondition, and no run answers PRECONDITION (R264, R268). -/
theorem illegalOperandsAnswerPrecondition : Obligations.IllegalOperandsAnswerPrecondition := by
  intro s i hready
  refine ⟨fun hport hstate => ?_, fun hport hstate => ?_⟩ <;> rw [hport] at hready
  · refine ⟨fun hillegal => ?_, fun hlegal t h he => ?_⟩
    · rw [exec_writer_accepted hport hready, cycleWriter, if_neg (not_not.2 hstate),
        if_pos (precondition_eq_false hillegal)]
      rfl
    · rcases exec_writer_error hport hready h he with ⟨hother, -⟩ | ⟨-, hillegal⟩ | hother
      · cases hother
      · exact hillegal hlegal
      · cases hother
  · refine ⟨fun hillegal => ?_, fun hlegal t h he => ?_⟩
    · have hruns : ¬ runsReader i s.reader.state = false := by simp [hstate, runsReader]
      rw [exec_reader_accepted hport hready, cycleReader, if_neg hruns, if_pos (precondition_eq_false hillegal)]
      rfl
    · rcases exec_reader_error hport hready h he with ⟨hother, -⟩ | ⟨-, hillegal⟩ | ⟨-, hother⟩
      · cases hother
      · exact hillegal hlegal
      · exact hother rfl

/-! ### Repositioning (R278, R311) -/

/-- R_BIT with a bit in hand answers it and fetches nothing (R81, R205). -/
theorem exec_rBit_in_hand {s : State} (hresponse : s.reader.response = none) (hstate : s.reader.state = .ready)
    (hlt : s.reader.bitPosition.toNat < 8) :
    ∃ u, exec .rBit s = .next u ∧ u.reader.history = s.reader.history ∧
      u.reader.response =
        some ⟨.ok, if s.reader.currentByte.getLsbD s.reader.bitPosition.toNat then 1#32 else 0#32⟩ := by
  have hfetches : ([] : List Byte).length = fetchCount s.reader.bitPosition.toNat 1 := by
    rw [fetchCount_succ_in_hand 0 hlt, fetchCount_zero, List.length_nil]
  have hexec := fieldReadsReturnTheNextBits s .rBit 1 [] s.reader.source (.inl ⟨rfl, rfl⟩) hstate hresponse hlt.le
    hfetches rfl
  refine ⟨_, hexec, List.append_nil _, ?_⟩
  simp only [upcomingBits_in_hand [] hlt, List.take_succ_cons, List.take_zero]
  cases s.reader.currentByte.getLsbD s.reader.bitPosition.toNat <;> rfl

/-- Settles O58: R_BIT takes the bit in hand, and R_RESET discards all of them (R211, R278, R311). -/
theorem repositioningNeedsAReset : Obligations.RepositioningNeedsAReset := by
  intro s later hin
  refine ⟨_, step_applyInput hin, rfl, fun hresponse hstate hlt => exec_rBit_in_hand hresponse hstate hlt,
    fun hresponse hstate => ?_⟩
  exact ⟨_, realignAndResetDiscardTheCachedBits _ .rReset hresponse (.inr ⟨rfl, hstate⟩), rfl, rfl, rfl,
    fun bytes => upcomingBits_aligned bytes rfl⟩

end Sys2Proof.Machine
end

section
/-! SUPPORT. Hardware reset (70_reset_and_hazards.md R300, R301) and the end of every wait (R315). A waiting writer has
`workLeft` of its body, which every transfer lowers; a waiting reader has a number of bytes that suffice for its body,
which every fetch lowers. -/

namespace Sys2Proof.Machine

open Sys2Proof.Safety

/-! ### Hardware reset (R300, R301) -/

theorem step_rst {s : State} {later : List Input} (hin : s.inputs = .rst :: later) :
    step s = .next (hardwareReset { s with inputs := later, clock := s.clock + 1 }) := step_applyInput hin

/-- Settles O2: the outputs are gated by `rst`, and the next state is `hardwareReset` (R51, R300). -/
theorem hardwareResetRestoresBothUnits : Obligations.HardwareResetRestoresBothUnits := by
  intro s later hin
  exact ⟨⟨rfl, rfl, rfl, rfl, rfl, rfl, rfl⟩, _, step_rst hin, rfl, rfl, rfl, rfl, rfl, rfl, rfl, rfl, rfl, rfl, rfl⟩

/-- Only a reset takes a unit out of a terminal state (R301, R33, R43). -/
theorem rst_of_leaves_terminal {s t : State} (h : step s = .next t)
    (hleft : (s.writer.state = .closed ∧ t.writer.state ≠ .closed) ∨
      (s.writer.state = .broken ∧ t.writer.state ≠ .broken) ∨ (s.reader.state = .dead ∧ t.reader.state ≠ .dead)) :
    ∃ later, s.inputs = .rst :: later := by
  cases hin : s.inputs with
  | nil =>
    obtain rfl := step_idle hin h
    rcases hleft with ⟨hs, ht⟩ | ⟨hs, ht⟩ | ⟨hs, ht⟩ <;> exact absurd hs ht
  | cons x later =>
    by_cases hx : x = .rst
    · exact ⟨later, by rw [hx]⟩
    obtain ⟨hwriter, hreader⟩ := onlyResetLeavesTheTerminalStates s t x later hin h hx
    rcases hleft with ⟨hs, ht⟩ | ⟨hs, ht⟩ | ⟨hs, ht⟩
    · exact absurd ((hwriter (.inl hs)).1.trans hs) ht
    · exact absurd ((hwriter (.inr hs)).1.trans hs) ht
    · exact absurd (hreader hs).1 ht

/-- Settles O3: a reset keeps the records alone, and no other step leaves a terminal state (R301). -/
theorem resetAbandonsTheCommandAndKeepsTheTransfers : Obligations.ResetAbandonsTheCommandAndKeepsTheTransfers :=
  ⟨fun _ _ hin =>
    ⟨_, step_rst hin, fun _ => ⟨rfl, rfl, rfl⟩, fun _ => ⟨rfl, rfl, rfl⟩, rfl, rfl, rfl, rfl, rfl, rfl, rfl, rfl, rfl⟩,
    fun _ _ => rst_of_leaves_terminal⟩

/-! ### What is left of a writer body (R141, R315) -/

/-- At most how many transfers a statement still makes: one for each bit, one for a flush, an emit or the close. -/
def opWork : WOp → Nat
  | .zeros n => n
  | .bits _ _ n => n
  | .flush => 1
  | .emit => 1
  | .close => 1

/-- At most how many transfers a body still makes. -/
def bodyWork (ops : List WOp) : Nat := (ops.map opWork).sum

@[simp] theorem bodyWork_nil : bodyWork [] = 0 := rfl

@[simp] theorem bodyWork_cons (op : WOp) (later : List WOp) : bodyWork (op :: later) = opWork op + bodyWork later := by
  simp [bodyWork]

@[simp] theorem bodyWork_append (front later : List WOp) :
    bodyWork (front ++ later) = bodyWork front + bodyWork later := by
  simp [bodyWork]

/-- Zero bits that wait at an emit have a bit less to place (R141). -/
theorem putZeros_wait_work {n : Nat} {w u : Writer} {rest : List WOp} (h : putZeros n w = .wait u rest) :
    bodyWork rest ≤ n := by
  induction n generalizing w with
  | zero => cases h
  | succ n ih =>
    rcases andThenW_wait h with ⟨v, _, hk⟩ | ⟨front, hx, rfl⟩
    · exact (ih hk).trans (Nat.le_succ n)
    · obtain ⟨-, rfl⟩ := putBit_wait hx
      simp [opWork, Nat.add_comm]

/-- A field that waits at an emit has a bit less to place (R141). -/
theorem putBits_wait_work {v : Word} {n i : Nat} {w u : Writer} {rest : List WOp}
    (h : putBits v n i w = .wait u rest) : bodyWork rest ≤ n := by
  induction n generalizing i w with
  | zero => cases h
  | succ n ih =>
    rcases andThenW_wait h with ⟨x, _, hk⟩ | ⟨front, hx, rfl⟩
    · exact (ih hk).trans (Nat.le_succ n)
    · obtain ⟨-, rfl⟩ := putBit_wait hx
      simp [opWork, Nat.add_comm]

theorem runWOp_wait_work {op : WOp} {w u : Writer} {rest : List WOp} (h : runWOp op w = .wait u rest) :
    bodyWork rest ≤ opWork op := by
  cases op with
  | zeros n => exact putZeros_wait_work h
  | bits v i n => exact putBits_wait_work h
  | flush =>
    change flushPending w = .wait u rest at h
    unfold flushPending at h
    split at h
    · obtain ⟨-, -, rfl⟩ := emitPending_wait h
      exact le_refl 1
    · cases h
  | emit =>
    obtain ⟨-, -, rfl⟩ := emitPending_wait h
    exact le_refl 1
  | close =>
    rcases runWOp_wait h with ⟨hne, -⟩ | ⟨-, -, rfl, -⟩
    · exact absurd rfl hne
    · exact le_refl 1

/-- A body that waits has no more to do than before. -/
theorem runWOps_wait_work {ops rest : List WOp} {w u : Writer} (h : runWOps ops w = .wait u rest) :
    bodyWork rest ≤ bodyWork ops := by
  induction ops generalizing w with
  | nil => cases h
  | cons op later ih =>
    rw [bodyWork_cons]
    rcases andThenW_wait h with ⟨v, _, hk⟩ | ⟨front, hx, rfl⟩
    · exact (ih hk).trans (Nat.le_add_left _ _)
    · rw [bodyWork_append]
      exact Nat.add_le_add_right (runWOp_wait_work hx) _

/-- At most how many transfers a writer's command still makes. -/
def workLeft (w : Writer) : Nat := (w.body.map fun b => bodyWork b.rest).getD 0

theorem workLeft_of_body {w : Writer} {cmd : Instr} {rest : List WOp} (h : w.body = some ⟨cmd, rest⟩) :
    workLeft w = bodyWork rest := by
  simp [workLeft, h]

/-- A BUSY writer offers a byte or requests the close (R75, R77, R315). -/
theorem offers_of_busy {s : State} (hinv : WriterInv s.writer) (hbusy : s.writer.state = .busy) :
    (sinkOffer s).isSome = true ∨ closeOffer s = true := by
  obtain ⟨-, -, -, hwaiting, -, -⟩ := hinv
  obtain ⟨-, hwaits⟩ := hwaiting hbusy
  unfold writerWaits at hwaits
  split at hwaits
  next hbody => exact .inl (by simp [sinkOffer, hbusy, hbody])
  next hbody => exact .inr (by simp [closeOffer, hbusy, hbody])
  next => cases hwaits

/-- A BUSY writer has a transfer left to make. -/
theorem workLeft_pos {s : State} (hinv : WriterInv s.writer) (hbusy : s.writer.state = .busy) :
    0 < workLeft s.writer := by
  rcases offers_of_busy hinv hbusy with h | h
  · obtain ⟨-, cmd, later, hbody⟩ := sinkOffer_isSome h
    simp [workLeft_of_body hbody, opWork]
  · obtain ⟨-, cmd, later, hbody⟩ := closeOffer_true h
    simp [workLeft_of_body hbody, opWork]

/-! ### Edges of the writer's handshakes (R75, R77, R315) -/

/-- The writer has a command to answer, or offers its response. -/
def WriterAnswers (w : Writer) : Prop := w.state = .busy ∨ w.response ≠ none

/-- A body resumed at a transfer that does not wait has that transfer less to make. -/
theorem workLeft_settleWriter {cmd : Instr} {op : WOp} {later : List WOp} {w : Writer}
    (hmoves : ∀ u rest, runWOp op w ≠ .wait u rest) :
    workLeft (settleWriter cmd (runWOps (op :: later) w)) ≤ bodyWork later := by
  cases hx : runWOps (op :: later) w with
  | done u => exact Nat.zero_le _
  | raise u => exact Nat.zero_le _
  | wait u rest =>
    rcases andThenW_wait hx with ⟨v, -, hk⟩ | ⟨front, hop, -⟩
    · exact runWOps_wait_work hk
    · exact absurd hop (hmoves u front)

/-- A settled run still waits in BUSY or has its response (R268). -/
theorem settleWriter_answers {cmd : Instr} {x : WriteRun} (hinv : WriterInv (settleWriter cmd x)) :
    WriterAnswers (settleWriter cmd x) := by
  cases x with
  | done u => exact .inr nofun
  | raise u => exact .inr nofun
  | wait u rest =>
    obtain ⟨-, -, hbody, -⟩ := hinv
    by_contra hidle
    exact absurd (hbody fun hbusy => hidle (.inl hbusy)) nofun

/-- The writer has made a transfer it waited for: fewer are left, and its command goes on or has its response. -/
def Advances (w w' : Writer) : Prop := workLeft w' < workLeft w ∧ WriterAnswers w'

theorem sinkEdge_inv {s : State} (hinv : WriterInv s.writer) (pins : SinkPins) :
    WriterInv (sinkEdge pins s).writer := (sinkEdge_move .rst pins s).inv hinv

theorem closeEdge_inv {s : State} (hinv : WriterInv s.writer) (pins : SinkPins) :
    WriterInv (closeEdge pins s).writer := (closeEdge_move .rst pins s).inv hinv

/-- The edge of an offered byte with ready = 1 makes the transfer (R75). -/
theorem sinkEdge_advances {s : State} {pins : SinkPins} (hinv : WriterInv s.writer)
    (hoffer : (sinkOffer s).isSome = true ∧ pins.ready = true) : Advances s.writer (sinkEdge pins s).writer := by
  have hnext := sinkEdge_inv hinv pins
  obtain ⟨hbusy, cmd, later, hbody⟩ := sinkOffer_isSome hoffer.1
  rw [sinkEdge_eq, if_pos hoffer, postSink_busy _ hbusy hbody] at hnext ⊢
  refine ⟨?_, settleWriter_answers hnext⟩
  rw [workLeft_of_body hbody, bodyWork_cons, opWork, Nat.add_comm]
  exact Nat.lt_succ_of_le (workLeft_settleWriter fun u rest hx => by simpa using (emitPending_wait hx).2.1)

/-- The edge of a requested close with ready = 1 makes the close (R77). -/
theorem closeEdge_advances {s : State} {pins : SinkPins} (hinv : WriterInv s.writer)
    (hoffer : closeOffer s = true ∧ pins.ready = true) : Advances s.writer (closeEdge pins s).writer := by
  have hnext := closeEdge_inv hinv pins
  obtain ⟨hbusy, cmd, later, hbody⟩ := closeOffer_true hoffer.1
  rw [closeEdge_eq, if_pos hoffer, postClose_busy _ hbusy hbody] at hnext ⊢
  refine ⟨?_, settleWriter_answers hnext⟩
  rw [workLeft_of_body hbody, bodyWork_cons, opWork, Nat.add_comm]
  refine Nat.lt_succ_of_le (workLeft_settleWriter fun u rest hx => ?_)
  rcases runWOp_wait hx with ⟨hne, -⟩ | ⟨-, hcloses, -, hu⟩
  · exact hne rfl
  · simp [hu] at hcloses

theorem sinkEdge_stays_or_advances {s : State} (hinv : WriterInv s.writer) (pins : SinkPins) :
    sinkEdge pins s = s ∨ Advances s.writer (sinkEdge pins s).writer := by
  by_cases hoffer : (sinkOffer s).isSome = true ∧ pins.ready = true
  · exact .inr (sinkEdge_advances hinv hoffer)
  · exact .inl (by rw [sinkEdge_eq, if_neg hoffer])

theorem closeEdge_stays_or_advances {s : State} (hinv : WriterInv s.writer) (pins : SinkPins) :
    closeEdge pins s = s ∨ Advances s.writer (closeEdge pins s).writer := by
  by_cases hoffer : closeOffer s = true ∧ pins.ready = true
  · exact .inr (closeEdge_advances hinv hoffer)
  · exact .inl (by rw [closeEdge_eq, if_neg hoffer])

/-- A round of edges, one of each handshake, leaves the writer or moves it on. -/
theorem round_stays_or_advances {s : State} (hinv : WriterInv s.writer) (x : SinkPins × SinkPins) :
    closeEdge x.2 (sinkEdge x.1 s) = s ∨ Advances s.writer (closeEdge x.2 (sinkEdge x.1 s)).writer := by
  rcases sinkEdge_stays_or_advances hinv x.1 with hs | hs
  · rw [hs]
    exact closeEdge_stays_or_advances hinv x.2
  · rcases closeEdge_stays_or_advances (sinkEdge_inv hinv x.1) x.2 with hc | hc
    · rw [hc]
      exact .inr hs
    · exact .inr ⟨hc.1.trans hs.1, hc.2⟩

/-- A round with ready = 1 on both handshakes moves a BUSY writer on (R315). -/
theorem round_advances {s : State} {x : SinkPins × SinkPins} (hinv : WriterInv s.writer)
    (hbusy : s.writer.state = .busy) (hready : x.1.ready = true ∧ x.2.ready = true) :
    Advances s.writer (closeEdge x.2 (sinkEdge x.1 s)).writer := by
  rcases offers_of_busy hinv hbusy with hoffer | hoffer
  · have hs := sinkEdge_advances hinv ⟨hoffer, hready.1⟩
    rcases closeEdge_stays_or_advances (sinkEdge_inv hinv x.1) x.2 with hc | hc
    · rwa [hc]
    · exact ⟨hc.1.trans hs.1, hc.2⟩
  · have hs : sinkEdge x.1 s = s := by rw [sinkEdge_eq, sinkOffer_of_closeOffer hoffer, if_neg (by simp)]
    rw [hs]
    exact closeEdge_advances hinv ⟨hoffer, hready.2⟩

theorem workLeft_of_idle {w : Writer} (hinv : WriterInv w) (hidle : w.state ≠ .busy) : workLeft w = 0 := by
  obtain ⟨-, -, hbody, -⟩ := hinv
  simp [workLeft, hbody hidle]

/-- The transfers left stay at most the rounds still to come with both handshakes ready (R315). -/
theorem workLeft_round {s : State} {x : SinkPins × SinkPins} {later : List (SinkPins × SinkPins)}
    (hinv : WriterInv s.writer)
    (hwork : workLeft s.writer ≤ ((x :: later).filter fun x => x.1.ready && x.2.ready).length) :
    workLeft (closeEdge x.2 (sinkEdge x.1 s)).writer ≤ (later.filter fun x => x.1.ready && x.2.ready).length := by
  have hle : workLeft (closeEdge x.2 (sinkEdge x.1 s)).writer ≤ workLeft s.writer := by
    rcases round_stays_or_advances hinv x with h | h
    · rw [h]
    · exact h.1.le
  by_cases hready : (x.1.ready && x.2.ready) = true
  · by_cases hbusy : s.writer.state = .busy
    · have hlt := (round_advances hinv hbusy (by simpa using hready)).1
      rw [List.filter_cons_of_pos (by simpa using hready), List.length_cons] at hwork
      omega
    · rw [workLeft_of_idle hinv hbusy] at hle
      exact hle.trans (Nat.zero_le _)
  · rw [List.filter_cons_of_neg (by simpa using hready)] at hwork
    exact hle.trans hwork

/-- As many rounds with ready = 1 as transfers left end the command (R315). -/
theorem sinkEdges_end (edges : List (SinkPins × SinkPins)) {s : State} (hinv : WriterInv s.writer)
    (hwork : workLeft s.writer ≤ (edges.filter fun x => x.1.ready && x.2.ready).length) :
    (sinkEdges edges s).writer.state ≠ .busy ∧
      (WriterAnswers s.writer → (sinkEdges edges s).writer.response ≠ none) := by
  induction edges generalizing s with
  | nil =>
    have hidle : s.writer.state ≠ .busy := fun hbusy => (workLeft_pos hinv hbusy).not_ge hwork
    exact ⟨hidle, fun hanswers => hanswers.resolve_left hidle⟩
  | cons x later ih =>
    obtain ⟨hidle, hresponse⟩ := ih (closeEdge_inv (sinkEdge_inv hinv x.1) x.2) (workLeft_round hinv hwork)
    refine ⟨hidle, fun hanswers => hresponse ?_⟩
    rcases round_stays_or_advances hinv x with h | h
    · rwa [h]
    · exact h.2

/-- Settles O30: every round with both handshakes ready makes a transfer of those left. -/
theorem busyWriterEndsWhenTheSinkAnswers : Obligations.BusyWriterEndsWhenTheSinkAnswers := by
  intro s hinv
  refine ⟨workLeft s.writer, fun edges hedges => ?_⟩
  obtain ⟨hidle, hresponse⟩ := sinkEdges_end edges hinv.1 hedges
  exact ⟨hidle, fun hbusy => hresponse (.inl hbusy)⟩

/-! ### What is left of a reader body (R81, R201, R315) -/

/-- Every body ends within some number of bits. -/
theorem ReadsBits.bounded {f : Reader → ReadRun Word RRest} {N : List Bool → Prop} (h : ReadsBits f N) :
    ∃ n, ∀ bits : List Bool, n ≤ bits.length → ¬ N bits := by
  induction h with
  | ends v => exact ⟨0, fun _ _ => id⟩
  | aligns => exact ⟨0, fun _ _ => id⟩
  | raises e => exact ⟨0, fun _ _ => id⟩
  | bit rest _ _ _ ih =>
    obtain ⟨m, hm⟩ := ih true
    obtain ⟨n, hn⟩ := ih false
    refine ⟨max m n + 1, fun bits hbits => ?_⟩
    cases bits with
    | nil => simp at hbits
    | cons b bits =>
      have hle : max m n ≤ bits.length := Nat.le_of_succ_le_succ hbits
      cases b with
      | true => exact hm bits ((le_max_left m n).trans hle)
      | false => exact hn bits ((le_max_right m n).trans hle)

/-- Any n bytes suffice for the rest of the reader's command, if it has one. -/
def BytesSuffice (n : Nat) (r : Reader) : Prop :=
  ∀ b, r.body = some b → ∀ bytes : List Byte, n ≤ bytes.length → ¬ restNeeds b.rest (bytes.flatMap byteBits)

theorem bytesSuffice_of_no_body {r : Reader} (n : Nat) (h : r.body = none) : BytesSuffice n r := by
  intro b hb
  simp [h] at hb

theorem exists_bytesSuffice (r : Reader) : ∃ n, BytesSuffice n r := by
  cases hbody : r.body with
  | none => exact ⟨0, bytesSuffice_of_no_body 0 hbody⟩
  | some b =>
    obtain ⟨n, hn⟩ := (runRest_reads b.rest).bounded
    refine ⟨n, fun b' hb' bytes hbytes => ?_⟩
    obtain rfl : b = b' := Option.some.inj (hbody.symm.trans hb')
    exact hn _ (by rw [flatMap_byteBits_length]; omega)

/-- A waiting body that waits again after a fetch has fetched a byte, and needs what it needed after that byte. -/
theorem restNeeds_after_fetch {rest rest' : RRest} {r u : Reader} {pins : SourcePins} (hneeds : restNeeds rest [])
    (h8 : r.bitPosition = 8#4) (hsource : r.source = [pins]) (h : runRest rest r = .wait rest' u) :
    ∃ b, ∀ bytes : List Byte,
      restNeeds rest' (bytes.flatMap byteBits) → restNeeds rest ((b :: bytes).flatMap byteBits) := by
  cases he : fetchError (sourceAnswer pins) with
  | some e =>
    rw [(runRest_reads rest).failed hneeds h8 hsource he] at h
    cases h
  | none =>
    obtain ⟨b, rfl⟩ := exists_bytePins he
    refine ⟨b, fun bytes hmore => ?_⟩
    obtain ⟨hu8, hempty, -⟩ := (runRest_reads rest).waits h
    obtain ⟨more, v, hwait⟩ := ((runRest_reads rest').waits_iff (r := withSource (bytes.map bytePins) r.body u)
      (bytes := bytes) (by simp [withSource, hempty]) (runRest_not_stuck (by simp [withSource, hu8]))).2
      (by rwa [upcomingBits_aligned (r := withSource _ _ u) bytes hu8])
    have hlonger : runRest rest (withSource (bytes.map bytePins) r.body r) = .wait more v := by
      rw [(runRest_reads rest).run_withSource, h]
      exact hwait
    have hneeds' := ((runRest_reads rest).waits_iff (bytes := b :: bytes) (by simp [withSource, hsource])
      (by simp [hlonger])).1 ⟨more, v, hlonger⟩
    rwa [upcomingBits_aligned (r := withSource _ _ r) _ h8] at hneeds'

/-! ### Edges of the source port (R79, R315) -/

/-- The reader has a command to answer, or offers its response. -/
def ReaderAnswers (r : Reader) : Prop := r.state = .busy ∨ r.response ≠ none

/-- A settled run still waits in BUSY or has its response (R268). -/
theorem settleReader_answers {cmd : Instr} {rest : RRest} {r u : Reader} (hbusy : r.state = .busy)
    (h : settleReader cmd (runRest rest r) = some u) : ReaderAnswers u := by
  cases hx : runRest rest r with
  | done v w => rw [hx] at h; cases h; exact .inr nofun
  | raise e w => rw [hx] at h; cases h; exact .inr nofun
  | stuck => rw [hx] at h; cases h
  | wait p w =>
    rw [hx] at h
    cases h
    exact .inl ((runRest_ran (by rw [hx]; rfl : readerAt (runRest rest r) = some w)).state.trans hbusy)

/-- After a fetch a byte less suffices for a settled run. -/
theorem settleReader_bytesSuffice {cmd : Instr} {rest : RRest} {r u : Reader} {pins : SourcePins} {n : Nat}
    (hneeds : restNeeds rest []) (h8 : r.bitPosition = 8#4) (hsource : r.source = [pins])
    (hn : ∀ bytes : List Byte, n + 1 ≤ bytes.length → ¬ restNeeds rest (bytes.flatMap byteBits))
    (h : settleReader cmd (runRest rest r) = some u) : BytesSuffice n u := by
  cases hx : runRest rest r with
  | done v w => rw [hx] at h; cases h; exact bytesSuffice_of_no_body n rfl
  | raise e w => rw [hx] at h; cases h; exact bytesSuffice_of_no_body n rfl
  | stuck => rw [hx] at h; cases h
  | wait p w =>
    rw [hx] at h
    cases h
    intro b hb bytes hbytes
    obtain rfl : ⟨cmd, p⟩ = b := Option.some.inj hb
    obtain ⟨c, hc⟩ := restNeeds_after_fetch hneeds h8 hsource hx
    exact fun hmore => hn (c :: bytes) (Nat.succ_le_succ hbytes) (hc bytes hmore)

/-- A BUSY reader waits in a body that needs a bit, at the end of its byte with no answer (R48, R81). -/
theorem body_of_busy {r : Reader} (hinv : ReaderInv r) (hbusy : r.state = .busy) :
    ∃ b, r.body = some b ∧ restNeeds b.rest [] ∧ r.bitPosition = 8#4 ∧ r.source = [] := by
  obtain ⟨-, -, -, hwaiting, -, -⟩ := hinv
  obtain ⟨h8, -, hsource, hwaits⟩ := hwaiting hbusy
  cases hb : r.body with
  | none => simp [readerWaits, hb] at hwaits
  | some b => exact ⟨b, rfl, restNeeds_of_readerWaits hb hwaits, h8, hsource⟩

/-- A BUSY reader that needs no byte does not occur. -/
theorem idle_of_bytesSuffice {r : Reader} (hinv : ReaderInv r) (h : BytesSuffice 0 r) : r.state ≠ .busy := by
  intro hbusy
  obtain ⟨b, hb, hneeds, -⟩ := body_of_busy hinv hbusy
  exact h b hb [] (Nat.le_refl 0) hneeds

/-- The fetch of a BUSY reader leaves a byte less to suffice (R81, R315). -/
theorem fetch_advances {r u : Reader} {pins : SourcePins} {n : Nat} (hinv : ReaderInv r) (hbusy : r.state = .busy)
    (hn : BytesSuffice (n + 1) r) (h : resumeReader { r with source := r.source ++ [pins] } = some u) :
    BytesSuffice n u ∧ ReaderAnswers u := by
  obtain ⟨⟨cmd, rest⟩, hbody, hneeds, h8, hsource⟩ := body_of_busy hinv hbusy
  rw [resumeReader_busy (r := { r with source := r.source ++ [pins] }) hbusy hbody] at h
  have hone : ({ r with source := r.source ++ [pins] } : Reader).source = [pins] := by simp [hsource]
  exact ⟨settleReader_bytesSuffice (r := { r with source := r.source ++ [pins] }) hneeds h8 hone (hn _ hbody) h,
    settleReader_answers (r := { r with source := r.source ++ [pins] }) hbusy h⟩

/-- An edge of the source port: a next reader, for which a byte less suffices if ack was 1 (R79, R315). -/
theorem fetchEdge_advances {r : Reader} {x : Bool × SourcePins} {later : List (Bool × SourcePins)}
    (hinv : ReaderInv r) (hn : BytesSuffice ((x :: later).filter fun x => x.1).length r) :
    ∃ u, fetchEdge x.1 x.2 r = some u ∧ ReaderInv u ∧ BytesSuffice (later.filter fun x => x.1).length u ∧
      (ReaderAnswers r → ReaderAnswers u) := by
  obtain ⟨ack, pins⟩ := x
  by_cases hfetch : r.state = .busy ∧ ack = true
  · obtain ⟨hbusy, rfl⟩ := hfetch
    obtain ⟨u, hu⟩ := resumeReader_some hinv pins
    have hedge : fetchEdge true pins r = some u := (if_pos ⟨hbusy, rfl⟩).trans hu
    obtain ⟨hless, hanswers⟩ := fetch_advances hinv hbusy hn hu
    exact ⟨u, hedge, (fetchEdge_move (x := .source true pins) hedge).inv hinv, hless, fun _ => hanswers⟩
  · refine ⟨r, if_neg hfetch, hinv, ?_, id⟩
    by_cases hbusy : r.state = .busy
    · have hack : ¬ ack = true := fun hack => hfetch ⟨hbusy, hack⟩
      rwa [List.filter_cons_of_neg hack] at hn
    · obtain ⟨-, -, hbody, -⟩ := hinv
      exact bytesSuffice_of_no_body _ (hbody hbusy)

/-- As many edges with ack = 1 as bytes that suffice end the command (R315). -/
theorem sourceEdges_end (edges : List (Bool × SourcePins)) {s : State} (hinv : ReaderInv s.reader)
    (hn : BytesSuffice (edges.filter fun x => x.1).length s.reader) :
    ∃ t, sourceEdges edges s = .next t ∧ t.reader.state ≠ .busy ∧
      (ReaderAnswers s.reader → t.reader.response ≠ none) := by
  induction edges generalizing s with
  | nil =>
    have hidle := idle_of_bytesSuffice hinv hn
    exact ⟨s, rfl, hidle, fun hanswers => hanswers.resolve_left hidle⟩
  | cons x later ih =>
    obtain ⟨u, hedge, hinv', hless, hanswers⟩ := fetchEdge_advances hinv hn
    obtain ⟨t, ht, hidle, hresponse⟩ := ih (s := { s with reader := u }) hinv' hless
    refine ⟨t, ?_, hidle, fun h => hresponse (hanswers h)⟩
    rw [sourceEdges, sourceEdge_fetchEdge, hedge]
    exact ht

theorem BytesSuffice.mono {m n : Nat} {r : Reader} (h : BytesSuffice m r) (hmn : m ≤ n) : BytesSuffice n r :=
  fun b hb bytes hbytes => h b hb bytes (hmn.trans hbytes)

/-- Settles O41: every fetch of a waiting reader is one of the bytes that suffice, or it fails and ends the command. -/
theorem busyReaderEndsWhenTheSourceAnswers : Obligations.BusyReaderEndsWhenTheSourceAnswers := by
  intro s hinv
  obtain ⟨n, hn⟩ := exists_bytesSuffice s.reader
  refine ⟨n, fun edges hedges => ?_⟩
  obtain ⟨t, ht, hidle, hresponse⟩ := sourceEdges_end edges hinv.2.1 (hn.mono hedges)
  exact ⟨t, ht, hidle, fun hbusy => hresponse (.inl hbusy)⟩

end Sys2Proof.Machine
end
